-- ==== Sys2Proof/Word.lean ====
section
/-! DEFINITION. The word types of the DHT22 single-wire protocol decoder (spec R7, R8, R89). -/

namespace Sys2Proof

/-- A micro-operation word (R89) and the host response (R88): 16 bits. -/
abbrev Word := BitVec 16

/-- One byte of the FRAME space (R60, R61). -/
abbrev Byte := BitVec 8

/-- A level of the line: 0 is low, 1 is high (R66). -/
abbrev Level := BitVec 1

/-- The number of a tick, counted from reset (R6). -/
abbrev Tick := Nat

end Sys2Proof
end

