-- ==== Sys2Proof/Config.lean ====
section
/-! DEFINITION. What is fixed for this hardware: the parameters of rule R5, by the names the rule gives them, and the one
free value, the line where no waveform says what it is (R66). The open parameters TICK_PERIOD, FLOAT_FORMAT and MIN_INTERVAL
are used by no rule (93_implementation_defined.md U16) and have no counterpart here. -/

namespace Sys2Proof.Config

/-- T_WAKE: ticks of the wake pulse. -/
def tWake : Nat := 3000

/-- T_REQ: ticks of the request pulse. -/
def tReq : Nat := 25

/-- T_ACK_LOW: timeout of the first acknowledgement measurement. -/
def tAckLow : Nat := 85

/-- T_ACK_HIGH: timeout of the second acknowledgement measurement. -/
def tAckHigh : Nat := 85

/-- T_BIT_LOW: timeout of the per-bit low measurement. -/
def tBitLow : Nat := 56

/-- T_BIT_HIGH: timeout of the per-bit high measurement. -/
def tBitHigh : Nat := 75

/-- TH_BIT: a high duration strictly greater than this is a 1. -/
def thBit : Nat := 40

/-- NBITS: bits of a frame. -/
def nBits : Nat := 40

/-- NBYTES: bytes of a frame. -/
def nBytes : Nat := 5

/-- L_ACK_1: level of the first acknowledgement measurement (90_conflicts.md C1). -/
def lAck1 : Level := 0#1

/-- L_ACK_2: level of the second acknowledgement measurement (90_conflicts.md C1). -/
def lAck2 : Level := 1#1

/-- L_BIT_1: level of the per-bit low measurement (90_conflicts.md C1). -/
def lBit1 : Level := 0#1

/-- L_BIT_2: level of the per-bit high measurement (90_conflicts.md C1). -/
def lBit2 : Level := 1#1

/-- MEAS_SLACK: a measurement completes when its run length is at most the timeout plus this (log entry 11). -/
def measSlack : Nat := 0

/-- FREE VALUE. The level of the line at a tick for which the state lists no waveform: R66 leaves it to the environment and
"the block assumes nothing about it" (log entry 3, safe). -/
opaque freeLine : Tick → Level

end Sys2Proof.Config
end

