-- ==== Sys2Proof/Syntax.lean ====
section
/-! DEFINITION. The operation set of rule R92: one constructor for every row of spec/opcode_table.json. -/

namespace Sys2Proof

/-- The operations. Format H (host commands, R87): `noCall` (NONE), `read`, `hum`, `temp`. Format U (micro-operations, R90):
the other ten. A count of ticks is a Nat; an operand that is stored in a register or compared with one has that register's
width. -/
inductive Instr where
  /-- NONE: no host call in this tick (R87). -/
  | noCall
  /-- READ: start a read cycle (R120). -/
  | read
  /-- HUM: the retained humidity onto the response port (R166). -/
  | hum
  /-- TEMP: the retained temperature onto the response port (R167). -/
  | temp
  /-- CLRF: a fresh frame (R150). -/
  | clrf
  /-- DIR d: pin direction, 1 = output (R140). -/
  | dir (d : BitVec 1)
  /-- LVL l: level the pin drives (R141). -/
  | lvl (l : Level)
  /-- DLY n: wait n ticks (R142). -/
  | dly (n : Nat)
  /-- MEAS t, l: measure how long the line stays at level l, for at most t ticks (R112). -/
  | meas (t : Nat) (l : Level)
  /-- PACK h: decide the bit from D against the threshold h and set it in the frame (R152). -/
  | pack (h : Nat)
  /-- LOOP a, c: count one bit, go to a unless the count is c (R127). -/
  | loop (a : BitVec 4) (c : BitVec 6)
  /-- EXTR: extract the fields of the frame (R160). -/
  | extr
  /-- VRFY: validate the checksum (R181). -/
  | vrfy
  /-- CMT: commit the reading and end the read (R164). -/
  | cmt
  deriving DecidableEq, Repr

/-- The mnemonic of each operation, as rule R92 and spec/opcode_table.json spell it. -/
def Instr.mnemonic : Instr → String
  | .noCall => "NONE"
  | .read => "READ"
  | .hum => "HUM"
  | .temp => "TEMP"
  | .clrf => "CLRF"
  | .dir _ => "DIR"
  | .lvl _ => "LVL"
  | .dly _ => "DLY"
  | .meas _ _ => "MEAS"
  | .pack _ => "PACK"
  | .loop _ _ => "LOOP"
  | .extr => "EXTR"
  | .vrfy => "VRFY"
  | .cmt => "CMT"

/-- The operations of format H: what the host port carries (R87, R200). The others are micro-operations, which the host
cannot issue. -/
def Instr.isHost : Instr → Bool
  | .noCall => true
  | .read => true
  | .hum => true
  | .temp => true
  | .clrf => false
  | .dir _ => false
  | .lvl _ => false
  | .dly _ => false
  | .meas _ _ => false
  | .pack _ => false
  | .loop _ _ => false
  | .extr => false
  | .vrfy => false
  | .cmt => false

end Sys2Proof
end

