-- ==== Sys2Proof/WellFormed.lean ====
section
/-! DEFINITION. Which operations have an encoding: every operand inside its field of rule R90. Operands held as bit vectors
(DIR, LVL, the level of MEAS, LOOP) fit their fields by their type. -/

namespace Sys2Proof

/-- R90: n is 0 … 4095, t is 0 … 2047, h is 0 … 127. -/
def Instr.wellFormed : Instr → Bool
  | .noCall => true
  | .read => true
  | .hum => true
  | .temp => true
  | .clrf => true
  | .dir _ => true
  | .lvl _ => true
  | .dly n => decide (n < 4096)
  | .meas t _ => decide (t < 2048)
  | .pack h => decide (h < 128)
  | .loop _ _ => true
  | .extr => true
  | .vrfy => true
  | .cmt => true

end Sys2Proof
end

