-- ==== Sys2Proof/Decode.lean ====
section
/-! DEFINITION. Formats H and U of 30_encoding.md: the decoder, total on every code, and after it the encoder; the opcode
table's match and mask of each row (R87, R91). -/

namespace Sys2Proof

/-- A code as the block meets it: two bits on the host port (format H, R87) or a word of the microprogram (format U, R89). "A
decoder knows the length of a thing from which port or memory it came from" (R80). -/
inductive Code where
  | host (c : BitVec 2)
  | micro (w : Word)
  deriving DecidableEq, Repr

/-- Why a word spells no instruction (R93). -/
inductive Reject where
  /-- OP is 0x0 or 0xB … 0xF. -/
  | noSuchOperation
  /-- A bit of N that the row does not name is set. -/
  | mustBeZeroBit
  deriving DecidableEq, Repr

/-- OP = w[15:12] (R89). -/
def opField (w : Word) : BitVec 4 := w.extractLsb' 12 4

/-- The operation, if the bits of N that its row does not name are zero (R90, R93). -/
def ifZero {k : Nat} (unnamed : BitVec k) (i : Instr) : Except Reject Instr :=
  if unnamed = 0 then .ok i else .error .mustBeZeroBit

/-- Format H: all four codes are defined (R87). -/
def decodeHost (c : BitVec 2) : Instr :=
  match c.toNat with
  | 0 => .noCall
  | 1 => .read
  | 2 => .hum
  | _ => .temp

/-- Format U: operand fields of R90, total as R93 asks. -/
def decodeWord (w : Word) : Except Reject Instr :=
  match (opField w).toNat with
  | 0x1 => ifZero (w.extractLsb' 0 12) .clrf
  | 0x2 => ifZero (w.extractLsb' 1 11) (.dir (w.extractLsb' 0 1))
  | 0x3 => ifZero (w.extractLsb' 1 11) (.lvl (w.extractLsb' 0 1))
  | 0x4 => .ok (.dly (w.extractLsb' 0 12).toNat)
  | 0x5 => .ok (.meas (w.extractLsb' 0 11).toNat (w.extractLsb' 11 1))
  | 0x6 => ifZero (w.extractLsb' 7 5) (.pack (w.extractLsb' 0 7).toNat)
  | 0x7 => ifZero (w.extractLsb' 10 2) (.loop (w.extractLsb' 0 4) (w.extractLsb' 4 6))
  | 0x8 => ifZero (w.extractLsb' 0 12) .extr
  | 0x9 => ifZero (w.extractLsb' 0 12) .vrfy
  | 0xA => ifZero (w.extractLsb' 0 12) .cmt
  | _ => .error .noSuchOperation

/-- The decoder over both formats. -/
def decode : Code → Except Reject Instr
  | .host c => .ok (decodeHost c)
  | .micro w => decodeWord w

/-- The encoder, from the tables of R87 and R90: OP in the high four bits, then the operand field N with its unnamed bits
zero. -/
def encode : Instr → Code
  | .noCall => .host 0b00#2
  | .read => .host 0b01#2
  | .hum => .host 0b10#2
  | .temp => .host 0b11#2
  | .clrf => .micro (0x1#4 ++ 0#12)
  | .dir d => .micro (0x2#4 ++ 0#11 ++ d)
  | .lvl l => .micro (0x3#4 ++ 0#11 ++ l)
  | .dly n => .micro (0x4#4 ++ BitVec.ofNat 12 n)
  | .meas t l => .micro (0x5#4 ++ l ++ BitVec.ofNat 11 t)
  | .pack h => .micro (0x6#4 ++ 0#5 ++ BitVec.ofNat 7 h)
  | .loop a c => .micro (0x7#4 ++ 0#2 ++ c ++ a)
  | .extr => .micro (0x8#4 ++ 0#12)
  | .vrfy => .micro (0x9#4 ++ 0#12)
  | .cmt => .micro (0xA#4 ++ 0#12)

/-- A row of the table of R91: a word is the row's operation when `w AND mask = pattern`. -/
structure OpcodeRow where
  mnemonic : String
  pattern : Word
  mask : Word
  deriving DecidableEq, Repr

/-- The ten rows of R91. -/
def opcodeRows : List OpcodeRow :=
  [ ⟨"CLRF", 0x1000, 0xFFFF⟩,
    ⟨"DIR", 0x2000, 0xFFFE⟩,
    ⟨"LVL", 0x3000, 0xFFFE⟩,
    ⟨"DLY", 0x4000, 0xF000⟩,
    ⟨"MEAS", 0x5000, 0xF000⟩,
    ⟨"PACK", 0x6000, 0xFF80⟩,
    ⟨"LOOP", 0x7000, 0xFC00⟩,
    ⟨"EXTR", 0x8000, 0xFFFF⟩,
    ⟨"VRFY", 0x9000, 0xFFFF⟩,
    ⟨"CMT", 0xA000, 0xFFFF⟩ ]

/-- R91: `w AND mask = match`. -/
def OpcodeRow.covers (r : OpcodeRow) (w : Word) : Bool := w &&& r.mask == r.pattern

/-- A code numbered as spec/opcode_table.json numbers it: a row of format H has 2 bits (in whole bytes, 8), a row of format U
has 16. No code is wider than its format, so a set bit above it spells nothing (log entry 14). -/
def tableCode (nbits w : Nat) : Option Code :=
  if nbits ≤ 8 then
    if w < 4 then some (.host (BitVec.ofNat 2 w)) else none
  else if nbits ≤ 16 then
    if w < 65536 then some (.micro (BitVec.ofNat 16 w)) else none
  else none

/-- What the decoder reads from the bits w of a row of spec/opcode_table.json. -/
def decodeTableWord (nbits w : Nat) : Option Instr :=
  match tableCode nbits w with
  | some c => (decode c).toOption
  | none => none

end Sys2Proof
end

