-- ==== Sys2Proof/Machine/Microprogram.lean ====
section
/-! DEFINITION. The microprogram of rule R122: sixteen words at addresses 0 … 15, hard-wired (R72). -/

namespace Sys2Proof.Machine

/-- R122 and program P0, word for word, address 0 first. -/
def microprogram : Vector Word 16 :=
  #v[ 0x1000#16, 0x2001#16, 0x3000#16, 0x4BB8#16, 0x3001#16, 0x4019#16, 0x2000#16, 0x5055#16,
      0x5855#16, 0x5038#16, 0x584B#16, 0x6028#16, 0x7289#16, 0x8000#16, 0x9000#16, 0xA000#16 ]

end Sys2Proof.Machine
end

