-- ==== Sys2Proof/Machine/State.lean ====
section
/-! DEFINITION. The state of the block: every register of rule R20 under its own name, the microprogram the sequencer fetches
from (log entry 6), and what the environment presents and receives, as plain data (log entry 2); reset. -/

namespace Sys2Proof.Machine

/-- The FRAME space (R60, R61): cells (address, byte), addresses strictly rising, none outside 0 … 4 and none holding what an
unlisted address reads as. -/
abbrev Memory := List Host.Cell

/-- What an unlisted address of the FRAME space reads as: every byte of F is 0 after reset (R20, R38). -/
def Memory.fill : Byte := 0

/-- The canonical form of the FRAME space. -/
def Memory.wf (m : Memory) : Bool :=
  decide (m.Pairwise (fun c c' => c.1 < c'.1)) && m.all (fun c => decide (c.1 < Config.nBytes) && c.2 != Memory.fill)

/-- What the environment presents to the block (R37: none of it is state of the block). -/
structure Inputs where
  /-- The tick at which the listed waveform starts (R95). -/
  lineStart : Tick
  /-- The line from that tick on, as runs `level×length` (R95); a tick no run covers has a free level. -/
  lineRuns : List (Level × Nat)
  /-- The host command stream `hcmd(t)` (R68): the ticks with a command, strictly rising; NONE at every other tick. -/
  hcmds : List (Tick × BitVec 2)
  /-- The ticks at which `rst` = 1 (R230). -/
  resets : List Tick
  deriving DecidableEq, Repr

/-- What the block puts out at one tick (R9, R68). -/
inductive Event where
  /-- `ret(code)`: a read cycle ended (R128); ports `done`, `done_code`. -/
  | ret (tick : Tick) (code : BitVec 2)
  /-- `on_error(code)` (R197); ports `err_valid`, `err_kind`. -/
  | onError (tick : Tick) (code : BitVec 2)
  /-- The response to HUM or TEMP (R88); port `hresp`. -/
  | hresp (tick : Tick) (value : Word)
  deriving DecidableEq, Repr

/-- The state. -/
structure State where
  /-- PC: address into the microprogram (R21). -/
  pc : BitVec 4
  /-- RUN: 1 while a read cycle runs (R22). -/
  run : BitVec 1
  /-- D: the last completed duration (R23). -/
  d : BitVec 11
  /-- IDX: the sample index (R24). -/
  idx : BitVec 6
  /-- CNT: ticks inside one DLY or MEAS (R25). -/
  cnt : BitVec 12
  /-- TH: decoded humidity (R26). -/
  th : BitVec 16
  /-- TN: decoded sign flag (R26). -/
  tn : BitVec 1
  /-- TM: decoded magnitude (R26). -/
  tm : BitVec 15
  /-- S: computed checksum (R27). -/
  sum : BitVec 8
  /-- F: the frame buffer (R60, R61). -/
  frame : Memory
  /-- HUM: retained humidity in tenths of a percent (R28). -/
  hum : BitVec 16
  /-- TNEG: retained sign flag (R29). -/
  tneg : BitVec 1
  /-- TMAG: retained magnitude in tenths of a degree (R29). -/
  tmag : BitVec 15
  /-- OUTCOME: result of the last completed read (R31). -/
  outcome : BitVec 2
  /-- DIR: pin direction (R32). -/
  dir : BitVec 1
  /-- LVL: level the block drives (R33). -/
  lvl : BitVec 1
  /-- The microprogram the sequencer fetches from; no operation writes it (R72; log entry 6). -/
  rom : Vector Word 16
  /-- `now` (R6). While RUN = 1 the inputs of this tick have been sampled; while RUN = 0 they have not (log entry 1). -/
  now : Tick
  /-- What the environment presents (R37). -/
  inputs : Inputs
  /-- The events put out so far, the newest first (log entry 7). -/
  log : List Event
  deriving DecidableEq, Repr

/-- The faults of the model: none. The block raises Timeout and ChecksumMismatch and nothing else (R190, R191); both are
entered by the model as a next state (R196), so nothing raises a fault. -/
inductive Fault where
  deriving DecidableEq, Repr

/-- Why a step has no meaning. -/
inductive Refusal where
  /-- Raised by `exec` for an operation whose meaning is not written; no arm does (safe). -/
  | notModelled (mnemonic : String)
  /-- Raised by `step`: the word at PC spells no instruction, and R93 says a model "gives it no meaning (refuses)" (safe). -/
  | invalidWord (why : Reject)
  /-- Raised by `execPack`: an index of 40 or more would be presented to the FRAME space; R63 and 93_implementation_defined.md
  U13 say a model may refuse it (safe; log entry 10). -/
  | frameIndex
  deriving DecidableEq, Repr

/-- The outcome of a step of this machine. -/
abbrev Result := Host.Outcome State Fault Refusal

/-- The machine right after reset (R20, R38, R230): every register 0 but LVL = 1; tick 0; nothing listed in the inputs, no
event yet (log entry 15). -/
def State.reset : State where
  pc := 0
  run := 0
  d := 0
  idx := 0
  cnt := 0
  th := 0
  tn := 0
  tm := 0
  sum := 0
  frame := []
  hum := 0
  tneg := 0
  tmag := 0
  outcome := 0
  dir := 0
  lvl := 1
  rom := microprogram
  now := 0
  inputs := { lineStart := 0, lineRuns := [], hcmds := [], resets := [] }
  log := []

end Sys2Proof.Machine
end

