-- ==== Sys2Proof/Machine/Ops.lean ====
section
/-! DEFINITION. The named operations over memory, registers and the environment that the meanings share: reading and writing
the FRAME space, sampling the inputs, emitting an event, ending a read cycle, error entry (R196), reset at a tick (R230). -/

namespace Sys2Proof.Machine

/-- `MemRead(a, 1)` (R9). -/
def Memory.read : Memory → Nat → Byte
  | [], _ => Memory.fill
  | (b, v) :: m, a => if a = b then v else Memory.read m a

/-- `MemWrite(a, 1, v)` (R9), keeping the canonical form. -/
def Memory.write : Memory → Nat → Byte → Memory
  | [], a, v => if v = Memory.fill then [] else [(a, v)]
  | (b, u) :: m, a, v =>
    if a = b then
      if v = Memory.fill then m else (a, v) :: m
    else if a < b then
      if v = Memory.fill then (b, u) :: m else (a, v) :: (b, u) :: m
    else (b, u) :: Memory.write m a v

/-- The FRAME space with every byte 0 (R64: CLRF writes all 40 bits to 0 in one step). -/
def Memory.cleared : Memory := []

/-- F[a] (R61). -/
def State.byte (s : State) (a : Nat) : Byte := s.frame.read a

/-- The level of the k-th tick of a list of runs, if they reach that far (R95). -/
def levelIn : List (Level × Nat) → Nat → Option Level
  | [], _ => none
  | (l, n) :: rs, k => if k < n then some l else levelIn rs (k - n)

/-- The listed level at a tick, if one is listed. -/
def Inputs.listedLevel (e : Inputs) (t : Tick) : Option Level :=
  if t < e.lineStart then none else levelIn e.lineRuns (t - e.lineStart)

/-- `line(t)` (R66). -/
def State.line (s : State) (t : Tick) : Level := (s.inputs.listedLevel t).getD (Config.freeLine t)

/-- `hcmd(t)` (R68): NONE where nothing is listed. -/
def Inputs.hcmdAt (e : Inputs) (t : Tick) : BitVec 2 :=
  match e.hcmds.find? (fun c => c.1 == t) with
  | some c => c.2
  | none => 0

/-- `rst` at a tick (R230). -/
def Inputs.rstAt (e : Inputs) (t : Tick) : Bool := e.resets.contains t

/-- The first tick after `p` and up to `p + n` with `rst` = 1. -/
def Inputs.firstReset (e : Inputs) (p : Tick) (n : Nat) : Option Tick :=
  (e.resets.filter (fun r => decide (p < r) && decide (r ≤ p + n))).min?

/-- The host commands after tick `p` and up to tick `p + n`. -/
def Inputs.hcmdsIn (e : Inputs) (p : Tick) (n : Nat) : List (Tick × BitVec 2) :=
  e.hcmds.filter (fun c => decide (p < c.1) && decide (c.1 ≤ p + n))

/-- `emit e` (R9). -/
def State.emit (s : State) (e : Event) : State := { s with log := e :: s.log }

/-- `pc <- pc + 1` (R9, R124); at 15 the 4-bit address wraps, which the microprogram never does (R21; log entry 13). -/
def State.nextPc (s : State) : State := { s with pc := s.pc + 1 }

/-- `now <- now + n` (R9). -/
def State.pass (s : State) (n : Nat) : State := { s with now := s.now + n }

/-- The codes of format O (R86). -/
inductive Outcome where
  | ok
  | timeout
  | checksumMismatch
  deriving DecidableEq, Repr

/-- R86: 0 = Ok, 1 = Timeout, 2 = ChecksumMismatch. -/
def Outcome.code : Outcome → BitVec 2
  | .ok => 0
  | .timeout => 1
  | .checksumMismatch => 2

/-- The end of a read cycle (R73, R128): OUTCOME, RUN and PC together, and the event `ret(code)` at tick `now`. -/
def State.endRead (s : State) (o : Outcome) : State :=
  { s with outcome := o.code, run := 0, pc := 0, log := .ret s.now o.code :: s.log }

/-- Error entry, `raise K()` (R196): the end of the read cycle with K's code, and the event `on_error(code)` at the same tick.
There is no return from it (R198): a new READ starts the next cycle. -/
def State.raise (s : State) (k : Outcome) : State := (s.emit (.onError s.now k.code)).endRead k

/-- Reset at tick `r` (R230, R231): every register takes its reset value, the host command of the tick is ignored and no event
is emitted; the next tick is `r + 1`. -/
def State.resetAt (s : State) (r : Tick) : State :=
  { State.reset with rom := s.rom, now := r + 1, inputs := s.inputs, log := s.log }

end Sys2Proof.Machine
end

