-- ==== Sys2Proof/Machine/Operands.lean ====
section
/-! DEFINITION. What the operations read: the address and the mask of a sample index (R63, R153), the run length of the line
(R111), the fields of the frame (R83, R84), the host's responses (R88). -/

namespace Sys2Proof.Machine

/-- The byte of sample index i: `i div 8` (R8, R63). -/
def frameAddr (i : BitVec 6) : Nat := i.toNat / 8

/-- The mask of sample index i: bit `7 − (i mod 8)`, that is `0x80 >> (i mod 8)` (R63, R153). -/
def frameMask (i : BitVec 6) : Byte := 0x80#8 >>> (i.toNat % 8)

/-- `FrameSetBit(i)` (R9): read, OR and write one byte. -/
def Memory.setBit (m : Memory) (i : BitVec 6) : Memory :=
  m.write (frameAddr i) (m.read (frameAddr i) ||| frameMask i)

/-- The number of ticks from `p`, among the next `fuel`, before the first at which `f` is not `l`; none if it is `l` at all of
them (R111). -/
def runLength (f : Tick → Level) (l : Level) : Nat → Tick → Option Nat
  | 0, _ => none
  | n + 1, p => if f p = l then (runLength f l n (p + 1)).map (· + 1) else some 0

/-- The number of samples after which `MEAS t, l` times out: `t + 1 + MEAS_SLACK` (R112). -/
def sampleLimit (t : Nat) : Nat := t + 1 + Config.measSlack

/-- `k(now, l)` if the measurement completes, none if it times out (R112). -/
def State.duration (s : State) (t : Nat) (l : Level) : Option Nat := runLength s.line l (sampleLimit t) s.now

/-- `F[0] ‖ F[1] ‖ F[2] ‖ F[3] ‖ F[4]` (R8, R83). -/
def State.frameBits (s : State) : BitVec 40 := s.byte 0 ++ s.byte 1 ++ s.byte 2 ++ s.byte 3 ++ s.byte 4

/-- HUMF (R83, R84): `F[0] ‖ F[1]`. -/
def State.humField (s : State) : BitVec 16 := s.byte 0 ++ s.byte 1

/-- TSGN (R83): bit 7 of F[2]. -/
def State.signField (s : State) : BitVec 1 := (s.byte 2).extractLsb' 7 1

/-- TMGF (R83, R84): `F[2][6:0] ‖ F[3]`. -/
def State.magField (s : State) : BitVec 15 := (s.byte 2).extractLsb' 0 7 ++ s.byte 3

/-- `(F[0] + F[1] + F[2] + F[3]) mod 256` (R181, R182). -/
def State.checksum (s : State) : BitVec 8 := s.byte 0 + s.byte 1 + s.byte 2 + s.byte 3

/-- The response to HUM (R88, R166). -/
def State.humResponse (s : State) : Word := s.hum

/-- The response to TEMP: sign flag, then magnitude (R88, R167). -/
def State.tempResponse (s : State) : Word := s.tneg ++ s.tmag

end Sys2Proof.Machine
end

