-- ==== Sys2Proof/Machine/Flags.lean ====
section
/-! DEFINITION. The block has no flags register (R30). These are its three conditions, each consumed by the operation that
computes it and stored nowhere. -/

namespace Sys2Proof.Machine

/-- (a) of R30: the first `t + 1 + MEAS_SLACK` samples all equal the measured level (R112). -/
def State.timedOut (s : State) (t : Nat) (l : Level) : Bool := (s.duration t l).isNone

/-- (b) of R30: `x[D] > zext_11(h)`, unsigned and strict (R152). -/
def State.bitValue (s : State) (h : Nat) : Bool := decide (h < s.d.toNat)

/-- (c) of R30: the computed sum equals F[4] (R181). -/
def State.checksumEqual (s : State) : Bool := s.checksum == s.byte 4

end Sys2Proof.Machine
end

