-- ==== Sys2Proof/Machine/FrameOps.lean ====
section
/-! DEFINITION. The meanings of the micro-operations that build the frame: CLRF and PACK (43_bit_sampler_packing.md) and LOOP
(R127). -/

namespace Sys2Proof.Machine

/-- CLRF (R150): every byte of the frame and IDX to 0. -/
def execClrf (s : State) : Result := .next { s with frame := Memory.cleared, idx := 0, pc := s.pc + 1 }

/-- PACK h (R152): set the bit of index IDX when D is greater than h. An index of 40 or more that would be presented to the
FRAME space is refused (R63; log entry 10). -/
def execPack (h : Nat) (s : State) : Result :=
  if s.bitValue h then
    if s.idx.toNat < Config.nBits then .next { s with frame := s.frame.setBit s.idx, pc := s.pc + 1 }
    else .refused .frameIndex
  else .next s.nextPc

/-- LOOP a, c (R127): 6-bit increment, then to a unless the count is c. -/
def execLoop (a : BitVec 4) (c : BitVec 6) (s : State) : Result :=
  .next { s with idx := s.idx + 1, pc := if s.idx + 1 = c then s.pc + 1 else a }

end Sys2Proof.Machine
end

