-- ==== Sys2Proof/Machine/HostOps.lean ====
section
/-! DEFINITION. The meanings of the host commands NONE, READ, HUM and TEMP, evaluated against the state at the start of the
tick `now` (R69). -/

namespace Sys2Proof.Machine

/-- NONE (R87): no effect on any state, no response. -/
def execNoCall (s : State) : Result := .next s

/-- READ (R120): accepted when RUN = 0, else ignored. -/
def execRead (s : State) : Result := .next (if s.run = 0 then { s with run := 1, pc := 0 } else s)

/-- HUM (R166): `hresp <- x[HUM]`; no state changes. -/
def execHum (s : State) : Result := .next (s.emit (.hresp s.now s.humResponse))

/-- TEMP (R167): `hresp <- x[TNEG] ‖ x[TMAG]`; no state changes. -/
def execTemp (s : State) : Result := .next (s.emit (.hresp s.now s.tempResponse))

end Sys2Proof.Machine
end

