-- ==== Sys2Proof/Machine/LineOps.lean ====
section
/-! DEFINITION. The meanings of the micro-operations that drive, wait and measure: DIR, LVL, DLY (42_line_drive.md) and MEAS
(40_signal_timer.md). DLY, and MEAS on completion, leave in CNT what their per-tick forms leave there (R115, R142; log entry 8). -/

namespace Sys2Proof.Machine

/-- DIR d (R140). -/
def execDir (d : BitVec 1) (s : State) : Result := .next { s with dir := d, pc := s.pc + 1 }

/-- LVL l (R141). -/
def execLvl (l : Level) (s : State) : Result := .next { s with lvl := l, pc := s.pc + 1 }

/-- DLY n (R142): `now <- now + n`; the countdown in CNT ends at 0. -/
def execDly (n : Nat) (s : State) : Result := .next { s with now := s.now + n, cnt := 0, pc := s.pc + 1 }

/-- MEAS on completion (R112): D is the run length, and the sample that ended it is not consumed. -/
def State.measured (s : State) (k : Nat) : State :=
  { s with d := BitVec.ofNat 11 k, cnt := BitVec.ofNat 12 k, now := s.now + k, pc := s.pc + 1 }

/-- MEAS on timeout (R112): the samples are consumed and Timeout is raised; nothing else is written (R9, R196). -/
def State.measTimeout (s : State) (t : Nat) : State :=
  (s.pass (sampleLimit t)).raise .timeout

/-- MEAS t, l (R112). -/
def execMeas (t : Nat) (l : Level) (s : State) : Result :=
  .next (match s.duration t l with
    | some k => s.measured k
    | none => s.measTimeout t)

end Sys2Proof.Machine
end

