-- ==== Sys2Proof/Machine/ResultOps.lean ====
section
/-! DEFINITION. The meanings of the micro-operations that finish a read: EXTR and CMT (44_extract_commit_accessors.md) and VRFY
(45_checksum.md). -/

namespace Sys2Proof.Machine

/-- EXTR (R160). -/
def execExtr (s : State) : Result :=
  .next { s with th := s.humField, tn := s.signField, tm := s.magField, pc := s.pc + 1 }

/-- VRFY (R181): `x[S] <- sum` stands before the comparison, so S holds the sum in either case; a mismatch raises
ChecksumMismatch, which writes what `State.raise` writes (R196; log entry 9). -/
def execVrfy (s : State) : Result :=
  .next (if s.checksumEqual then { s with sum := s.checksum, pc := s.pc + 1 }
    else { s with sum := s.checksum }.raise .checksumMismatch)

/-- CMT (R164): all writes together. -/
def execCmt (s : State) : Result := .next ({ s with hum := s.th, tneg := s.tn, tmag := s.tm }.endRead .ok)

end Sys2Proof.Machine
end

