-- ==== Sys2Proof/Machine/Dispatch.lean ====
section
/-! DEFINITION. One arm per operation of the set (R92). -/

namespace Sys2Proof.Machine

def exec (i : Instr) (s : State) : Host.Outcome State Fault Refusal :=
  match i with
  | .noCall => Sys2Proof.Machine.execNoCall s
  | .read => Sys2Proof.Machine.execRead s
  | .hum => Sys2Proof.Machine.execHum s
  | .temp => Sys2Proof.Machine.execTemp s
  | .clrf => Sys2Proof.Machine.execClrf s
  | .dir d => Sys2Proof.Machine.execDir d s
  | .lvl l => Sys2Proof.Machine.execLvl l s
  | .dly n => Sys2Proof.Machine.execDly n s
  | .meas t l => Sys2Proof.Machine.execMeas t l s
  | .pack h => Sys2Proof.Machine.execPack h s
  | .loop a c => Sys2Proof.Machine.execLoop a c s
  | .extr => Sys2Proof.Machine.execExtr s
  | .vrfy => Sys2Proof.Machine.execVrfy s
  | .cmt => Sys2Proof.Machine.execCmt s

end Sys2Proof.Machine
end

