-- ==== Sys2Proof/Machine/Sequencer.lean ====
section
/-! DEFINITION. What goes on around an operation: fetching it (R121), the ticks it takes (R245), the host commands answered and
the reset sampled in those ticks (R69, R230, R247), the end of the tick at which a read ends (R69). -/

namespace Sys2Proof.Machine

/-- `ROM[pc]` (R121). -/
def State.fetch (s : State) : Word := s.rom[s.pc.toNat]'s.pc.isLt

/-- The ticks an operation consumes (R10, R245). -/
def State.ticksOf (s : State) : Instr → Nat
  | .noCall => 0
  | .read => 0
  | .hum => 0
  | .temp => 0
  | .clrf => 0
  | .dir _ => 0
  | .lvl _ => 0
  | .dly n => n
  | .meas t l => (s.duration t l).getD (sampleLimit t)
  | .pack _ => 0
  | .loop _ _ => 0
  | .extr => 0
  | .vrfy => 0
  | .cmt => 0

/-- Format R (R88): what `hresp` carries for each command. -/
def State.responseTo (s : State) (c : BitVec 2) : Option Word :=
  match c.toNat with
  | 2 => some s.humResponse
  | 3 => some s.tempResponse
  | _ => none

/-- One host command presented while RUN = 1: HUM and TEMP are answered, READ and NONE change nothing (R120, R247). -/
def State.answer (s : State) (c : Tick × BitVec 2) : State :=
  match s.responseTo c.2 with
  | some v => s.emit (.hresp c.1 v)
  | none => s

/-- The host commands of the `n` ticks after `now`, each evaluated against the state the operations before those ticks left
(R69). -/
def State.serve (s : State) (n : Nat) : State := (s.inputs.hcmdsIn s.now n).foldl State.answer s

/-- The state after an outcome, changed by `f`; a stop stays a stop. -/
def mapNext (f : State → State) : Result → Result
  | .next t => .next (f t)
  | .fault e => .fault e
  | .refused e => .refused e

/-- After a micro-operation: if it ended the read, nothing else happens at this tick (R128) and the next host command
evaluated is that of the next tick (R69). -/
def State.afterOp (s : State) : State := if s.run = 0 then s.pass 1 else s

/-- One micro-operation (R121). A reset at one of the ticks it takes drops it at that tick (R231). -/
def microStep (s : State) : Result :=
  match decodeWord s.fetch with
  | .error why => .refused (.invalidWord why)
  | .ok i =>
    match s.inputs.firstReset s.now (s.ticksOf i) with
    | some r => .next ((s.serve (r - 1 - s.now)).resetAt r)
    | none => mapNext State.afterOp (exec i (s.serve (s.ticksOf i)))

/-- The end of a tick that began with RUN = 0. If its READ was accepted, word 0 executes at the next tick (R120), whose reset
and host command come first (R69, R230). -/
def State.afterIdle (s : State) : State :=
  if s.run = 0 then s.pass 1
  else match s.inputs.firstReset s.now 1 with
    | some r => s.resetAt r
    | none => (s.serve 1).pass 1

/-- One tick with RUN = 0: reset, or the host command of the tick (R121, R230). -/
def hostStep (s : State) : Result :=
  if s.inputs.rstAt s.now then .next (s.resetAt s.now)
  else mapNext State.afterIdle (exec (decodeHost (s.inputs.hcmdAt s.now)) s)

/-- The command stream with the command `c` at tick `t` and every other tick as before. -/
def Inputs.withHcmd (e : Inputs) (t : Tick) (c : BitVec 2) : Inputs :=
  { e with hcmds := e.hcmds.filter (fun x => decide (x.1 < t)) ++ (t, c) :: e.hcmds.filter (fun x => decide (t < x.1)) }

/-- No reset presented. -/
def Inputs.withoutResets (e : Inputs) : Inputs := { e with resets := [] }

/-- A code placed where the next step takes its operation from: a command on the host port of an idle block, or a word at PC of
a running one; no reset is presented (log entry 6). -/
def State.withCode (s : State) : Code → State
  | .host c => { s with run := 0, inputs := (s.inputs.withHcmd s.now c).withoutResets }
  | .micro w => { s with run := 1, rom := s.rom.set s.pc.toNat w s.pc.isLt, inputs := s.inputs.withoutResets }

end Sys2Proof.Machine
end

