-- ==== Sys2Proof/Machine/Step.lean ====
section
/-! DEFINITION. One step of the block: one micro-operation while RUN = 1, one tick while RUN = 0 (R121; log entry 1). -/

namespace Sys2Proof.Machine

/-- The step. -/
def step (s : State) : Host.Outcome State Fault Refusal :=
  if s.run = 1 then microStep s else hostStep s

/-- The state with the operation that spec/opcode_table.json numbers as the bits w placed where the next step takes it from. -/
def State.withFetchWord (s : State) (nbits w : Nat) : State :=
  match tableCode nbits w with
  | some c => s.withCode c
  | none => s

end Sys2Proof.Machine
end

