-- ==== Sys2Proof/Machine/Assembler.lean ====
section
/-! DEFINITION. The assembler syntax of R95 and the pseudo-instructions of R97. -/

namespace Sys2Proof.Machine

/-- An operation in the syntax of R95: the mnemonic, then the operands in decimal in the order of R90. -/
def assemblerText : Instr → String
  | .noCall => "NONE"
  | .read => "READ"
  | .hum => "HUM"
  | .temp => "TEMP"
  | .clrf => "CLRF"
  | .dir d => "DIR " ++ toString d.toNat
  | .lvl l => "LVL " ++ toString l.toNat
  | .dly n => "DLY " ++ toString n
  | .meas t l => "MEAS " ++ toString t ++ ", " ++ toString l.toNat
  | .pack h => "PACK " ++ toString h
  | .loop a c => "LOOP " ++ toString a.toNat ++ ", " ++ toString c.toNat
  | .extr => "EXTR"
  | .vrfy => "VRFY"
  | .cmt => "CMT"

/-- The four pseudo-instructions; none has an encoding of its own (R97). -/
inductive Pseudo where
  | wake
  | req
  | ack
  | bit
  deriving DecidableEq, Repr

/-- What each expands to (R97). -/
def Pseudo.expand : Pseudo → List Instr
  | .wake => [.dir 1, .lvl 0, .dly 3000]
  | .req => [.lvl 1, .dly 25, .dir 0]
  | .ack => [.meas 85 0, .meas 85 1]
  | .bit => [.meas 56 0, .meas 75 1, .pack 40]

end Sys2Proof.Machine
end

