-- ==== Sys2Proof/Machine/PerTick.lean ====
section
/-! DEFINITION. The per-tick forms of DLY (R142) and MEAS (R115), which count in CNT one tick at a time. `exec` runs each
operation as one step (R9); these are the forms it is to be compared with. -/

namespace Sys2Proof.Machine

/-- What one visit to a timed operation does. -/
inductive Visit where
  /-- The tick is consumed and the operation goes on. -/
  | goesOn (s : State)
  /-- The operation is over. -/
  | over (s : State)
  deriving DecidableEq, Repr

/-- R142: `CNT <- n`. -/
def dlyStart (n : Nat) (s : State) : State := { s with cnt := BitVec.ofNat 12 n }

/-- R142: each tick with `CNT > 0` is consumed and decrements CNT; complete at the first tick with `CNT = 0`. -/
def dlyVisit (s : State) : Visit :=
  if s.cnt = 0 then .over s.nextPc else .goesOn { s with cnt := s.cnt - 1, now := s.now + 1 }

/-- R115: `CNT <- 0`. -/
def measStart (s : State) : State := { s with cnt := 0 }

/-- R115: one tick of `MEAS t, l`. -/
def measVisit (t : Nat) (l : Level) (s : State) : Visit :=
  if s.line s.now ≠ l then .over { s with d := s.cnt.setWidth 11, pc := s.pc + 1 }
  else if s.cnt.toNat = t + Config.measSlack then .over ((s.pass 1).raise .timeout)
  else .goesOn { s with cnt := s.cnt + 1, now := s.now + 1 }

/-- Visits until the operation is over, at most `fuel`. -/
def visits (visit : State → Visit) : Nat → State → Option State
  | 0, _ => none
  | n + 1, s =>
    match visit s with
    | .over t => some t
    | .goesOn t => visits visit n t

end Sys2Proof.Machine
end

