-- ==== Sys2Proof/Machine/Ports.lean ====
section
/-! DEFINITION. The output ports of R68 and the value of a reading (R168). What a level port shows at a tick is read from the
steps that let the tick pass (log entry 20); a pulse port shows the events the log holds for a tick (log entry 7). -/

namespace Sys2Proof.Machine

/-- What `busy` is connected to: RUN. -/
def State.busy (s : State) : BitVec 1 := s.run

/-- What `line_o` is connected to: LVL. -/
def State.lineO (s : State) : Level := s.lvl

/-- What `line_oe` is connected to: DIR. -/
def State.lineOe (s : State) : BitVec 1 := s.dir

/-- The level DIR and LVL have the block drive, none (Z) when it does not drive (R66). Between two zero-time operations of one
tick this is not on the pin: what the pin shows is defined per tick (R145), `State.driveAt`. -/
def State.drive (s : State) : Option Level := if s.dir = 1 then some s.lvl else none

/-- What a port connected to `p` shows at tick τ of the step from `s` to `t`, when that step lets τ pass (`s.now ≤ τ < t.now`):
the value before the step, which every operation of an earlier step at τ has left, but at a tick at which the step takes a reset
the reset's value (R230, R231). So the pin shows at a tick what the last operation before the passing of the tick left (R145),
and `busy` and `outcome` show a completion from the next tick on (R196). -/
def passingValue {α : Type} (p : State → α) (s t : State) (τ : Tick) : α :=
  if τ + 1 = t.now ∧ s.inputs.rstAt τ = true ∧ (s.run = 0 ∨ s.now < τ) then p t else p s

/-- What a port connected to `p` shows at tick τ, found within `n` steps from a state whose tick is not after τ: the value at the
step that lets τ pass. A step that takes no tick shows nothing (R145). -/
def State.portAt {α : Type} (p : State → α) : Nat → State → Tick → Option α
  | 0, _, _ => none
  | n + 1, s, τ =>
    match step s with
    | .next t =>
      if τ < s.now then none
      else if τ < t.now then some (passingValue p s t τ)
      else State.portAt p n t τ
    | .fault _ => none
    | .refused _ => none

/-- `drive(τ)` (R66, R145). -/
def State.driveAt (s : State) (n : Nat) (τ : Tick) : Option (Option Level) := State.portAt State.drive n s τ

/-- `line_oe` at tick τ. -/
def State.lineOeAt (s : State) (n : Nat) (τ : Tick) : Option (BitVec 1) := State.portAt State.lineOe n s τ

/-- `line_o` at tick τ. -/
def State.lineOAt (s : State) (n : Nat) (τ : Tick) : Option Level := State.portAt State.lineO n s τ

/-- `busy` at tick τ. -/
def State.busyAt (s : State) (n : Nat) (τ : Tick) : Option (BitVec 1) := State.portAt State.busy n s τ

/-- `outcome` at tick τ. -/
def State.outcomeAt (s : State) (n : Nat) (τ : Tick) : Option (BitVec 2) := State.portAt State.outcome n s τ

/-- The code of a `ret` event of tick t. -/
def Event.retAt (t : Tick) : Event → Option (BitVec 2)
  | .ret t' c => if t' = t then some c else none
  | .onError _ _ => none
  | .hresp _ _ => none

/-- The code of an `on_error` event of tick t. -/
def Event.errorAt (t : Tick) : Event → Option (BitVec 2)
  | .ret _ _ => none
  | .onError t' c => if t' = t then some c else none
  | .hresp _ _ => none

/-- The value of a response of tick t. -/
def Event.responseAt (t : Tick) : Event → Option Word
  | .ret _ _ => none
  | .onError _ _ => none
  | .hresp t' v => if t' = t then some v else none

/-- `done` at tick t. -/
def State.done (s : State) (t : Tick) : Bool := (s.log.findSome? (Event.retAt t)).isSome

/-- `done_code` at tick t; 0 when `done` = 0. -/
def State.doneCode (s : State) (t : Tick) : BitVec 2 := (s.log.findSome? (Event.retAt t)).getD 0

/-- `err_valid` at tick t. -/
def State.errValid (s : State) (t : Tick) : Bool := (s.log.findSome? (Event.errorAt t)).isSome

/-- `err_kind` at tick t; 0 when `err_valid` = 0. -/
def State.errKind (s : State) (t : Tick) : BitVec 2 := (s.log.findSome? (Event.errorAt t)).getD 0

/-- `hresp` at tick t; 0 when there is nothing to return (R68, R88). -/
def State.hresp (s : State) (t : Tick) : Word := (s.log.findSome? (Event.responseAt t)).getD 0

/-- `humidity()` in percent (R168). -/
def State.humidity (s : State) : ℚ := (s.hum.toNat : ℚ) / 10

/-- `temperature()` in degrees Celsius (R168). -/
def State.temperature (s : State) : ℚ :=
  if s.tneg = 0 then (s.tmag.toNat : ℚ) / 10 else -((s.tmag.toNat : ℚ) / 10)

end Sys2Proof.Machine
end

