-- ==== Sys2Proof/Safety.lean ====
section
/-! DEFINITION. What holds of the block between operations: the invariant of the hard-wired microprogram, the registers of R20 as
names, with the sets each operation reads and writes (R39), and what a read cycle's events are. -/

namespace Sys2Proof.Machine

/-- The pin at each address of the microprogram (R122, R144, R145): an output from address 2 to 6, driving low at 3 and 4. -/
def pinOk (s : State) : Bool :=
  s.dir == (if 2 ≤ s.pc.toNat ∧ s.pc.toNat ≤ 6 then 1 else 0) &&
  s.lvl == (if s.pc.toNat = 3 ∨ s.pc.toNat = 4 then 0 else 1)

/-- IDX at each address of the microprogram (R24): 0 before the loop, at most 39 in it, 40 after it. -/
def idxOk (s : State) : Bool :=
  if s.pc.toNat = 0 then decide (s.idx.toNat ≤ 40)
  else if s.pc.toNat ≤ 8 then s.idx == 0
  else if s.pc.toNat ≤ 12 then decide (s.idx.toNat ≤ 39)
  else s.idx == 40

/-- The code of an event is one the block produces for it (R86, R190): never 3, and never 0 for an error. -/
def Event.legal : Event → Bool
  | .ret _ c => c != 3
  | .onError _ c => c == 1 || c == 2
  | .hresp _ _ => true

/-- The invariant: the microprogram is that of R122; the frame is in its canonical form; while RUN = 0, PC = 0 (R21); OUTCOME is
never 3 (R31); D never exceeds 85 (R23); the pin and IDX are as the address says; the codes of the events are legal; the
listed host commands stand in rising order of their ticks. -/
structure State.Inv (s : State) : Prop where
  rom : s.rom = microprogram
  frame : s.frame.wf = true
  idle : s.run = 0 → s.pc = 0
  outcome : s.outcome ≠ 3
  duration : s.d.toNat ≤ 85
  pin : pinOk s = true
  index : idxOk s = true
  events : ∀ e ∈ s.log, e.legal = true
  commands : s.inputs.hcmds.Pairwise (fun c c' => c.1 < c'.1)

/-- The registers of R20, and the five bytes of F one by one. -/
inductive Reg where
  | pc | run | d | idx | cnt | th | tn | tm | sum
  | f (a : Fin 5)
  | hum | tneg | tmag | outcome | dir | lvl
  deriving DecidableEq, Repr

/-- The value of a register as a number. -/
def State.reg (s : State) : Reg → Nat
  | .pc => s.pc.toNat
  | .run => s.run.toNat
  | .d => s.d.toNat
  | .idx => s.idx.toNat
  | .cnt => s.cnt.toNat
  | .th => s.th.toNat
  | .tn => s.tn.toNat
  | .tm => s.tm.toNat
  | .sum => s.sum.toNat
  | .f a => (s.byte a).toNat
  | .hum => s.hum.toNat
  | .tneg => s.tneg.toNat
  | .tmag => s.tmag.toNat
  | .outcome => s.outcome.toNat
  | .dir => s.dir.toNat
  | .lvl => s.lvl.toNat

/-- The byte of F that IDX addresses, `F[IDX div 8]`, if there is one. -/
def State.indexedByte (s : State) : List Reg :=
  if h : frameAddr s.idx < 5 then [.f ⟨frameAddr s.idx, h⟩] else []

/-- Column "writes" of the table of R39, with PC for every micro-operation and CNT for the timed ones. Error entry adds OUTCOME,
RUN and PC. -/
def writeSet (s : State) : Instr → List Reg
  | .noCall => []
  | .read => [.run, .pc]
  | .hum => []
  | .temp => []
  | .clrf => [.f 0, .f 1, .f 2, .f 3, .f 4, .idx, .pc]
  | .dir _ => [.dir, .pc]
  | .lvl _ => [.lvl, .pc]
  | .dly _ => [.cnt, .pc]
  | .meas _ _ => [.d, .cnt, .outcome, .run, .pc]
  | .pack _ => .pc :: s.indexedByte
  | .loop _ _ => [.idx, .pc]
  | .extr => [.th, .tn, .tm, .pc]
  | .vrfy => [.sum, .outcome, .run, .pc]
  | .cmt => [.hum, .tneg, .tmag, .outcome, .run, .pc]

/-- Column "reads" of the table of R39, with PC for the operations that step it. MEAS also reads the line. -/
def readSet (s : State) : Instr → List Reg
  | .noCall => []
  | .read => [.run]
  | .hum => [.hum]
  | .temp => [.tneg, .tmag]
  | .clrf => [.pc]
  | .dir _ => [.pc]
  | .lvl _ => [.pc]
  | .dly _ => [.pc]
  | .meas _ _ => [.pc]
  | .pack _ => .pc :: .d :: .idx :: s.indexedByte
  | .loop _ _ => [.pc, .idx]
  | .extr => [.pc, .f 0, .f 1, .f 2, .f 3]
  | .vrfy => [.pc, .f 0, .f 1, .f 2, .f 3, .f 4]
  | .cmt => [.th, .tn, .tm]

/-- The number of `ret` events in a log. -/
def retCount (log : List Event) : Nat :=
  log.countP (fun e => match e with
    | .ret _ _ => true
    | .onError _ _ => false
    | .hresp _ _ => false)

/-- The number of `on_error` events in a log. -/
def errorCount (log : List Event) : Nat :=
  log.countP (fun e => match e with
    | .ret _ _ => false
    | .onError _ _ => true
    | .hresp _ _ => false)

/-- `n` steps, stopping at the first stop. -/
def steps : Nat → State → Result
  | 0, s => .next s
  | n + 1, s =>
    match step s with
    | .next t => steps n t
    | .fault e => .fault e
    | .refused e => .refused e

/-- A chain of alternating measurements (R114): `MEAS t, l`, then `MEAS t', 1 − l`, and so on, with the durations left in D; none
if one of them ends the read. -/
def measureChain : List Nat → Level → State → Option (List Nat × State)
  | [], _, s => some ([], s)
  | t :: ts, l, s =>
    match exec (.meas t l) s with
    | .next u =>
      if u.run = 1 then (measureChain ts (1 - l) u).map (fun r => (u.d.toNat :: r.1, r.2)) else none
    | .fault _ => none
    | .refused _ => none

/-- Runs of alternating level, starting with `l`. -/
def alternating : List Nat → Level → List (Level × Nat)
  | [], _ => []
  | a :: as, l => (l, a) :: alternating as (1 - l)

/-- The number of ticks of a list of runs. -/
def runsLength (runs : List (Level × Nat)) : Nat := (runs.map Prod.snd).sum

/-- From tick `p` on the line is as the runs say, for as long as they say. -/
def State.follows (s : State) (p : Tick) (runs : List (Level × Nat)) : Prop :=
  ∀ k < runsLength runs, levelIn runs k = some (s.line (p + k))

/-- The runs of `n` data symbols (R81): for each a low phase, then a high phase. -/
def symbolRuns (low high : Nat → Nat) (n : Nat) : List (Level × Nat) :=
  (List.range n).flatMap (fun i => [(0, low i), (1, high i)])

/-- The runs of a whole transmission (R82): the acknowledgement, low then high, and the 40 symbols. -/
def transmission (ackLow ackHigh : Nat) (low high : Nat → Nat) : List (Level × Nat) :=
  (0, ackLow) :: (1, ackHigh) :: symbolRuns low high Config.nBits

/-- Durations the block accepts (R81, R82). -/
def Accepted (ackLow ackHigh : Nat) (low high : Nat → Nat) : Prop :=
  ackLow ≤ Config.tAckLow ∧ (1 ≤ ackHigh ∧ ackHigh ≤ Config.tAckHigh) ∧
  ∀ i < Config.nBits, (1 ≤ low i ∧ low i ≤ Config.tBitLow) ∧ (1 ≤ high i ∧ high i ≤ Config.tBitHigh)

/-- An idle block, at a tick whose host command is READ, with no reset presented from that tick on. -/
def State.AboutToRead (s : State) : Prop :=
  s.rom = microprogram ∧ s.run = 0 ∧ s.inputs.hcmdAt s.now = 1 ∧ ∀ r ∈ s.inputs.resets, r < s.now

/-- The bits of the frame that the loop has not reached are 0 (R64, R155): before the loop all of them, in the loop those from
IDX on, at LOOP those after IDX. -/
def State.UnreachedBitsZero (s : State) : Prop :=
  s.run = 1 →
    (1 ≤ s.pc.toNat ∧ s.pc.toNat ≤ 8 → s.frameBits = 0) ∧
    (9 ≤ s.pc.toNat ∧ s.pc.toNat ≤ 11 → ∀ j < Config.nBits, s.idx.toNat ≤ j → s.frameBits.getLsbD (39 - j) = false) ∧
    (s.pc.toNat = 12 → ∀ j < Config.nBits, s.idx.toNat < j → s.frameBits.getLsbD (39 - j) = false)

end Sys2Proof.Machine
end

