-- ==== Sys2Proof/Certificates/Slice0/Obligations.lean ====
section
/-! DEFINITION. The statements for the provers, in the order of OBLIGATIONS.json. -/

open Sys2Proof Sys2Proof.Machine

/-- R38: after reset every register of R20 is 0 but LVL, which is 1, and the pin is an input. -/
def Obligations.ResetValues : Prop :=
  (∀ r : Reg, State.reset.reg r = if r = .lvl then 1 else 0) ∧ State.reset.drive = none

/-- R87: the four codes of format H; NONE changes nothing and its tick has no response. -/
def Obligations.HostCodesAndNone : Prop :=
  decode (.host 0b00#2) = .ok .noCall ∧ decode (.host 0b01#2) = .ok .read ∧
  decode (.host 0b10#2) = .ok .hum ∧ decode (.host 0b11#2) = .ok .temp ∧
  ∀ s : State, exec .noCall s = .next s ∧ ((∀ e ∈ s.log, e.responseAt s.now = none) → s.hresp s.now = 0)

/-- R120 and R69: a READ with RUN = 0 starts a read cycle whose word 0 executes at the next tick; with RUN = 1 it is ignored. The
step that accepts it enters the next tick (log entry 1): it adds no `ret` and no `on_error`, and the one response it can add is the
answer to the command of that next tick. -/
def Obligations.ReadStartsACycleOrIsIgnored : Prop :=
  (∀ s : State, s.run = 0 → exec .read s = .next { s with run := 1, pc := 0 }) ∧
  (∀ s : State, s.run = 1 → exec .read s = .next s) ∧
  (∀ s : State, s.run = 0 → s.inputs.hcmdAt s.now = 1 → s.inputs.rstAt s.now = false → s.inputs.rstAt (s.now + 1) = false →
    ∃ t, step s = .next t ∧ t = { s with run := 1, pc := 0, now := s.now + 1, log := t.log } ∧
      retCount t.log = retCount s.log ∧ errorCount t.log = errorCount s.log ∧
      (s.inputs.hcmds.Pairwise (fun c c' => c.1 < c'.1) →
        t.log =
          if s.inputs.hcmdAt (s.now + 1) = 2 then .hresp (s.now + 1) s.hum :: s.log
          else if s.inputs.hcmdAt (s.now + 1) = 3 then .hresp (s.now + 1) (s.tneg ++ s.tmag) :: s.log
          else s.log))

/-- R166, with R88: HUM puts HUM on the response port, at any tick, and changes no state. -/
def Obligations.HumAnswersTheRetainedHumidity : Prop :=
  ∀ s : State, ∃ t, exec .hum s = .next t ∧ t = { s with log := .hresp s.now s.hum :: s.log } ∧
    t.hresp s.now = s.hum ∧ ∀ a, t.byte a = s.byte a

/-- R167, with R88: TEMP puts sign flag and magnitude on the response port, at any tick, and changes no state. -/
def Obligations.TempAnswersSignAndMagnitude : Prop :=
  ∀ s : State, ∃ t, exec .temp s = .next t ∧ (∃ v, t = { s with log := .hresp s.now v :: s.log }) ∧
    (t.hresp s.now).getLsbD 15 = s.tneg.getLsbD 0 ∧ (t.hresp s.now).extractLsb' 0 15 = s.tmag ∧
    (t.hresp s.now).toNat = s.tneg.toNat * 32768 + s.tmag.toNat ∧ ∀ a, t.byte a = s.byte a

/-- R150: CLRF leaves five zero bytes and IDX = 0. -/
def Obligations.ClrfMakesAFreshFrame : Prop :=
  encode .clrf = .micro 0x1000 ∧
  ∀ s : State, s.ticksOf .clrf = 0 ∧ ∃ t, exec .clrf s = .next t ∧
    t = { s with frame := t.frame, idx := 0, pc := s.pc + 1 } ∧ (∀ a, t.byte a = 0) ∧ t.frameBits = 0

/-- R140: DIR d. -/
def Obligations.DirSetsThePinDirection : Prop :=
  ∀ (d : BitVec 1) (s : State), encode (.dir d) = .micro (0x2000#16 ||| d.setWidth 16) ∧ s.ticksOf (.dir d) = 0 ∧
    ∃ t, exec (.dir d) s = .next t ∧ t = { s with dir := d, pc := s.pc + 1 } ∧
      t.drive = if d = 1 then some s.lvl else none

/-- R141: LVL l. -/
def Obligations.LvlSetsTheDrivenLevel : Prop :=
  ∀ (l : Level) (s : State), encode (.lvl l) = .micro (0x3000#16 ||| l.setWidth 16) ∧ s.ticksOf (.lvl l) = 0 ∧
    ∃ t, exec (.lvl l) s = .next t ∧ t = { s with lvl := l, pc := s.pc + 1 } ∧
      t.drive = if s.dir = 1 then some l else none

/-- After R142: DLY n takes exactly n ticks and changes nothing else but CNT, and its per-tick form comes to the same state. That the
two forms leave the same CNT, 0, is log entry 8 (DEDUCED). -/
def Obligations.DlyWaitsItsTicks : Prop :=
  ∀ (n : Nat) (s : State), n < 4096 → encode (.dly n) = .micro (0x4000#16 ||| BitVec.ofNat 16 n) ∧ s.ticksOf (.dly n) = n ∧
    ∃ t, exec (.dly n) s = .next t ∧ t = { s with now := s.now + n, cnt := t.cnt, pc := s.pc + 1 } ∧ t.drive = s.drive ∧
      visits dlyVisit (n + 1) (dlyStart n s) = some t

/-- R112: MEAS completes with the run length when it is at most the timeout, and the sample that ends it is not consumed; when
the first t + 1 samples are at the level it raises Timeout, and nothing else is written. -/
def Obligations.MeasMeasuresOrTimesOut : Prop :=
  ∀ (n : Nat) (l : Level) (s : State), n < 2048 →
    encode (.meas n l) = .micro (0x5000#16 ||| (l.setWidth 16 <<< 11) ||| BitVec.ofNat 16 n) ∧
    (∀ k, k ≤ n + Config.measSlack → (∀ j < k, s.line (s.now + j) = l) → s.line (s.now + k) ≠ l →
      ∃ t, exec (.meas n l) s = .next t ∧ t.d.toNat = k ∧
        t = { s with d := t.d, cnt := t.cnt, now := s.now + k, pc := s.pc + 1 }) ∧
    ((∀ j < n + 1 + Config.measSlack, s.line (s.now + j) = l) →
      ∃ t, exec (.meas n l) s = .next t ∧
        t = { s with now := s.now + (n + 1 + Config.measSlack), outcome := 1, run := 0, pc := 0,
                     log := .ret (s.now + (n + 1 + Config.measSlack)) 1 ::
                       .onError (s.now + (n + 1 + Config.measSlack)) 1 :: s.log })

/-- R113: a measurement that finds the line at the other level completes at once with D = 0 and consumes no tick. -/
def Obligations.MeasOfTheOtherLevelIsZero : Prop :=
  ∀ (n : Nat) (l : Level) (s : State), s.line s.now ≠ l →
    exec (.meas n l) s = .next { s with d := 0, cnt := 0, pc := s.pc + 1 }

/-- R114: alternating measurements with no timed operation between them return the successive run lengths of the line; a chain
the line lets complete skips no tick and counts none twice. A measurement that follows one of the other level and completes has a
run length of at least 1. -/
def Obligations.SuccessiveMeasurementsReturnRunLengths : Prop :=
  (∀ (ts as : List Nat) (l : Level) (s : State), s.run = 1 → as ≠ [] → List.Forall₂ (fun a t => a ≤ t ∧ t < 2048) as ts →
    (∀ a ∈ as.tail, 1 ≤ a) → s.follows s.now (alternating as l) →
    s.line (s.now + as.sum) ≠ (if as.length % 2 = 1 then l else 1 - l) →
    ∃ u, measureChain ts l s = some (as, u) ∧ u.now = s.now + as.sum) ∧
  (∀ (n n' : Nat) (l : Level) (s t u : State), n' < 2048 → exec (.meas n l) s = .next t → t.run = 1 →
    exec (.meas n' (1 - l)) t = .next u → u.run = 1 → 1 ≤ u.d.toNat)

/-- After R115: the per-tick form of MEAS comes, for every line, to the same D, `now`, error and all else as the one-step form, CNT too
when it completes; on a timeout the one-step form has left CNT alone and the per-tick form has counted in it.
All that is said of CNT is log entry 8 (DEDUCED). -/
def Obligations.MeasPerTickFormAgrees : Prop :=
  ∀ (n : Nat) (l : Level) (s : State), n < 2048 →
    ∃ t u, exec (.meas n l) s = .next t ∧ visits (measVisit n l) (n + 2 + Config.measSlack) (measStart s) = some u ∧
      u = { t with cnt := u.cnt } ∧
      (errorCount t.log = errorCount s.log → u = t) ∧
      (errorCount s.log < errorCount t.log → t.cnt = s.cnt ∧ u.cnt = BitVec.ofNat 12 (n + Config.measSlack))

/-- R152: PACK h decides the bit by an unsigned strict comparison and sets at most the one bit that IDX names. (An index of 40 or
more with a 1 to set is the case of `OnlyAnIndexOutsideTheFrameStops`.) -/
def Obligations.PackDecidesAndSetsOneBit : Prop :=
  ∀ (h : Nat) (s : State), h < 128 →
    encode (.pack h) = .micro (0x6000#16 ||| BitVec.ofNat 16 h) ∧ s.ticksOf (.pack h) = 0 ∧
    (s.d.toNat ≤ h → exec (.pack h) s = .next { s with pc := s.pc + 1 }) ∧
    (h < s.d.toNat → s.idx.toNat < 40 → ∃ t, exec (.pack h) s = .next t ∧ t = { s with frame := t.frame, pc := s.pc + 1 } ∧
      t.byte (s.idx.toNat / 8) = s.byte (s.idx.toNat / 8) ||| (1#8 <<< (7 - s.idx.toNat % 8)) ∧
      ∀ a, a ≠ s.idx.toNat / 8 → t.byte a = s.byte a)

/-- R8: sample index i is bit 39 − i of the frame number, so a 1 at index i sets that bit and keeps the other 39. -/
def Obligations.SampleIndexIsBitOfTheFrame : Prop :=
  ∀ (h : Nat) (s : State), s.idx.toNat < 40 → h < s.d.toNat →
    ∃ t, exec (.pack h) s = .next t ∧
      ∀ j < 40, t.frameBits.getLsbD (39 - j) = (s.frameBits.getLsbD (39 - j) || decide (j = s.idx.toNat))

/-- The model's choice (log entry 10), after R63: only PACK can be refused, and only where an index of 40 or more would be
presented to the FRAME space; no operation stops anywhere else. -/
def Obligations.OnlyAnIndexOutsideTheFrameStops : Prop :=
  (∀ (h : Nat) (s : State), 40 ≤ s.idx.toNat → h < s.d.toNat → exec (.pack h) s = .refused .frameIndex) ∧
  (∀ (i : Instr) (s : State), (∀ t, exec i s ≠ .next t) →
    ∃ h, i = .pack h ∧ 40 ≤ s.idx.toNat ∧ h < s.d.toNat)

/-- R127: LOOP a, c. -/
def Obligations.LoopCountsAndBranches : Prop :=
  ∀ (a : BitVec 4) (c : BitVec 6) (s : State),
    encode (.loop a c) = .micro (0x7000#16 ||| (c.setWidth 16 <<< 4) ||| a.setWidth 16) ∧ s.ticksOf (.loop a c) = 0 ∧
    ∃ t, exec (.loop a c) s = .next t ∧ t.idx.toNat = (s.idx.toNat + 1) % 64 ∧
      t = { s with idx := t.idx, pc := if t.idx ≠ c then a else s.pc + 1 }

/-- R160 and R161: EXTR writes the fields of the frame, as bits and as numbers, and changes nothing else. -/
def Obligations.ExtrExtractsTheFields : Prop :=
  encode .extr = .micro 0x8000 ∧
  ∀ s : State, s.ticksOf .extr = 0 ∧ ∃ t, exec .extr s = .next t ∧
    t = { s with th := t.th, tn := t.tn, tm := t.tm, pc := s.pc + 1 } ∧
    t.th = s.byte 0 ++ s.byte 1 ∧ t.th.toNat = (s.byte 0).toNat * 256 + (s.byte 1).toNat ∧
    t.tn.getLsbD 0 = (s.byte 2).getLsbD 7 ∧
    t.tm.toNat = ((s.byte 2) &&& 0x7F#8).toNat * 256 + (s.byte 3).toNat

/-- VRFY, after R181. That S holds the sum after a mismatch too is log entry 9 (DEDUCED: R181's pseudocode writes S before it
compares, against the words of R9 and R196 that the raising operation writes nothing else). -/
def Obligations.VrfyComparesTheChecksum : Prop :=
  encode .vrfy = .micro 0x9000 ∧
  ∀ s : State, s.ticksOf .vrfy = 0 ∧ ∃ t, exec .vrfy s = .next t ∧
    t.sum.toNat = ((s.byte 0).toNat + (s.byte 1).toNat + (s.byte 2).toNat + (s.byte 3).toNat) % 256 ∧
    (t.sum = s.byte 4 → t = { s with sum := t.sum, pc := s.pc + 1 }) ∧
    (t.sum ≠ s.byte 4 → t = { s with sum := t.sum, outcome := 2, run := 0, pc := 0,
                                     log := .ret s.now 2 :: .onError s.now 2 :: s.log })

/-- R164: CMT commits, sets OUTCOME to Ok and ends the read, all in one step; `done` = 1 with code 0 at that tick, and no
`on_error`; HUM and TEMP see the new values from the next tick. -/
def Obligations.CmtCommitsAndEndsTheRead : Prop :=
  encode .cmt = .micro 0xA000 ∧
  ∀ s : State, s.ticksOf .cmt = 0 ∧ ∃ t, exec .cmt s = .next t ∧
    t = { s with hum := s.th, tneg := s.tn, tmag := s.tm, outcome := 0, run := 0, pc := 0, log := .ret s.now 0 :: s.log } ∧
    t.done s.now = true ∧ t.doneCode s.now = 0 ∧ errorCount t.log = errorCount s.log ∧
    (s.run = 1 → decodeWord s.fetch = .ok .cmt →
      ∃ u, step s = .next u ∧ u.now = s.now + 1 ∧ u.run = 0 ∧ u.humResponse = s.th ∧ u.tempResponse = s.tn ++ s.tm)

/-- After R196 and R191: only MEAS and VRFY raise; at an error entry OUTCOME, RUN and PC are written, both events are put out at
its tick, and the retained registers, the pin, F, IDX, D, CNT, TH, TN and TM are as they were; so is S at a Timeout. That S holds
the sum after a ChecksumMismatch is log entry 9 (DEDUCED). -/
def Obligations.OnlyMeasAndVrfyRaiseAndTheReadingsStay : Prop :=
  ∀ (i : Instr) (s t : State), exec i s = .next t → errorCount s.log < errorCount t.log →
    ∃ k : Outcome,
      ((k = .timeout ∧ (∃ n l, i = .meas n l) ∧ t.sum = s.sum) ∨
       (k = .checksumMismatch ∧ i = .vrfy ∧ t.sum = s.checksum)) ∧
      t.outcome = k.code ∧ t.run = 0 ∧ t.pc = 0 ∧
      t.log = .ret t.now k.code :: .onError t.now k.code :: s.log ∧
      t.done t.now = true ∧ t.doneCode t.now = k.code ∧ t.errValid t.now = true ∧ t.errKind t.now = k.code ∧
      t.hum = s.hum ∧ t.tneg = s.tneg ∧ t.tmag = s.tmag ∧ t.dir = s.dir ∧ t.lvl = s.lvl ∧
      (∀ a, t.byte a = s.byte a) ∧ t.idx = s.idx ∧ t.d = s.d ∧ t.cnt = s.cnt ∧ t.th = s.th ∧ t.tn = s.tn ∧ t.tm = s.tm

/-- Error entry by itself, after R196: `raise K()` writes OUTCOME, RUN and PC, puts out both events, and writes nothing else, S and CNT
among it; a MEAS that times out is the passing of its samples' ticks and then that entry; a VRFY that fails is the write of S that
R181 puts before its comparison (log entry 9, DEDUCED) and then that entry. -/
def Obligations.ErrorEntryWritesThreeRegisters : Prop :=
  (∀ (s : State) (k : Outcome), s.raise k =
    { s with outcome := k.code, run := 0, pc := 0, log := .ret s.now k.code :: .onError s.now k.code :: s.log }) ∧
  (∀ (n : Nat) (l : Level) (s : State), (∀ j < n + 1 + Config.measSlack, s.line (s.now + j) = l) →
    exec (.meas n l) s = .next (State.raise { s with now := s.now + (n + 1 + Config.measSlack) } .timeout)) ∧
  (∀ s : State, ((s.byte 0).toNat + (s.byte 1).toNat + (s.byte 2).toNat + (s.byte 3).toNat) % 256 ≠ (s.byte 4).toNat →
    exec .vrfy s = .next (State.raise { s with sum := s.byte 0 + s.byte 1 + s.byte 2 + s.byte 3 } .checksumMismatch))

/-- R10: what each operation adds to `now`: nothing for the zero-time ones, the operand for DLY, and for MEAS the duration, which
is at most the timeout, or the timeout plus 1 (and MEAS_SLACK). -/
def Obligations.EveryOperationTakesItsTicks : Prop :=
  ∀ (i : Instr) (s t : State), exec i s = .next t →
    (∀ n, i = .dly n → t.now = s.now + n) ∧
    (∀ n l, i = .meas n l →
      (errorCount t.log = errorCount s.log ∧ t.now ≤ s.now + n + Config.measSlack ∧ (n < 2048 → t.now = s.now + t.d.toNat)) ∨
      (errorCount s.log < errorCount t.log ∧ t.now = s.now + (n + 1 + Config.measSlack))) ∧
    ((∀ n, i ≠ .dly n) → (∀ n l, i ≠ .meas n l) → t.now = s.now) ∧
    t.now = s.now + s.ticksOf i

/-- R39: an operation writes nothing outside its row of the table, and what it writes and answers is a function of what its row
reads (and of PC, `now` and the line). The microprogram and the inputs are written by none. -/
def Obligations.OperationsKeepToTheirReadAndWriteSets : Prop :=
  (∀ (i : Instr) (s t : State), exec i s = .next t →
    (∀ r, r ∉ writeSet s i → t.reg r = s.reg r) ∧ t.rom = s.rom ∧ t.inputs = s.inputs) ∧
  (∀ (i : Instr) (s₁ s₂ t₁ t₂ : State), exec i s₁ = .next t₁ → exec i s₂ = .next t₂ →
    s₁.now = s₂.now → s₁.inputs = s₂.inputs → s₁.log = s₂.log → (∀ r ∈ readSet s₁ i, s₁.reg r = s₂.reg r) →
    t₁.log = t₂.log ∧ t₁.now = t₂.now ∧
    ∀ r ∈ writeSet s₁ i, t₁.reg r = t₂.reg r ∨ (t₁.reg r = s₁.reg r ∧ t₂.reg r = s₂.reg r))

/-- The frame of memory (R64, R76): only CLRF and PACK store; PACK stores to the byte `frameAddr IDX` alone, and only for a 1
bit; every other byte reads as before. -/
def Obligations.OnlyClrfAndPackStore : Prop :=
  ∀ (i : Instr) (s t : State), exec i s = .next t →
    (i ≠ .clrf → (∀ h, i ≠ .pack h) → ∀ a, t.byte a = s.byte a) ∧
    (∀ h, i = .pack h → (∀ a, a ≠ frameAddr s.idx → t.byte a = s.byte a) ∧
      (s.d.toNat ≤ h → ∀ a, t.byte a = s.byte a)) ∧
    (∀ h, i = .pack h → ∀ a, t.byte a &&& s.byte a = s.byte a)

/-- R124: every way the program counter changes. -/
def Obligations.PcChangesOnlyAsListed : Prop :=
  ∀ (i : Instr) (s t : State), exec i s = .next t →
    (t.pc = s.pc + 1 ∧ i.isHost = false ∧ i ≠ .cmt ∧ (∀ a c, i ≠ .loop a c) ∧ errorCount t.log = errorCount s.log) ∨
    (∃ a c, i = .loop a c ∧ t.pc = if s.idx + 1 = c then s.pc + 1 else a) ∨
    (t.pc = 0 ∧ (i = .cmt ∨ errorCount s.log < errorCount t.log ∨ (i = .read ∧ s.run = 0 ∧ t.run = 1))) ∨
    (t.pc = s.pc ∧ i.isHost = true ∧ ¬ (i = .read ∧ s.run = 0))

/-- The 'only' half of R22, with the reset of R231: RUN rises only when a READ is accepted and falls only at CMT, at an error entry
or at a reset. -/
def Obligations.RunChangesOnlyAtReadCompletionOrReset : Prop :=
  ∀ s t : State, step s = .next t →
    (s.run = 0 → t.run = 1 → s.inputs.hcmdAt s.now = 1 ∧ s.inputs.rstAt s.now = false) ∧
    (s.run = 1 → t.run = 0 →
      decodeWord s.fetch = .ok .cmt ∨ errorCount s.log < errorCount t.log ∨
      ∃ i r, decodeWord s.fetch = .ok i ∧ s.inputs.firstReset s.now (s.ticksOf i) = some r)

/-- R22 (a reset, R231, apart): RUN becomes 1 exactly at the acceptance of a READ and 0 exactly at CMT or an error entry; RUN alone
decides whether a READ is accepted; `busy` shows RUN. -/
def Obligations.RunIsOneFromReadToCompletion : Prop :=
  (∀ s : State, s.run = 0 → s.inputs.rstAt s.now = false → s.inputs.rstAt (s.now + 1) = false →
    ∃ t, step s = .next t ∧ (t.run = 1 ↔ s.inputs.hcmdAt s.now = 1)) ∧
  (∀ (s t : State) (i : Instr), s.run = 1 → decodeWord s.fetch = .ok i → s.inputs.firstReset s.now (s.ticksOf i) = none →
    step s = .next t → (t.run = 0 ↔ i = .cmt ∨ errorCount s.log < errorCount t.log)) ∧
  (∀ s : State, ∃ t, exec .read s = .next t ∧ t.run = 1 ∧ (s.run = 0 → t = { s with run := 1, pc := 0 }) ∧ (s.run = 1 → t = s)) ∧
  (∀ s : State, s.busy = s.run)

/-- R165 (a reset, R231, apart): a step changes the retained registers only by executing CMT. -/
def Obligations.OnlyCmtWritesTheRetainedRegisters : Prop :=
  ∀ s t : State, step s = .next t → ¬ (t.hum = s.hum ∧ t.tneg = s.tneg ∧ t.tmag = s.tmag) →
    (s.run = 1 ∧ decodeWord s.fetch = .ok .cmt ∧ t.hum = s.th ∧ t.tneg = s.tn ∧ t.tmag = s.tm ∧ t.outcome = 0) ∨
    ((∃ r ∈ s.inputs.resets, s.now ≤ r ∧ t.now = r + 1) ∧ t.hum = 0 ∧ t.tneg = 0 ∧ t.tmag = 0)

/-- Tier 1: the invariant holds right after reset, whatever the environment presents (with its commands in rising order). -/
def Obligations.ResetMeetsTheInvariant : Prop :=
  ∀ e : Inputs, e.hcmds.Pairwise (fun c c' => c.1 < c'.1) → State.Inv { State.reset with inputs := e }

/-- The invariant of the hard-wired microprogram is kept by every step: canonical frame, PC = 0 while idle (R21), OUTCOME never 3
(R31), D at most 85 (R23), the pin and IDX as the address says (R144, R24), legal event codes (R86). -/
def Obligations.EveryStepKeepsTheInvariant : Prop :=
  ∀ s t : State, s.Inv → step s = .next t → t.Inv

/-- R93, R63: with the hard-wired microprogram no step is refused: no word is ever invalid and no index is outside the frame. -/
def Obligations.NoStepIsRefused : Prop :=
  ∀ s : State, s.Inv → ∃ t, step s = .next t

/-- Every state a run from reset reaches has the pin as an input with LVL = 1 while idle and from word 7 on, and no outcome or
event code 3 (R144, R31, R86), whatever the environment presents. -/
def Obligations.IdlePinIsReleasedInEveryRun : Prop :=
  ∀ (e : Inputs) (k : Nat), e.hcmds.Pairwise (fun c c' => c.1 < c'.1) →
    ∃ t, steps k { State.reset with inputs := e } = .next t ∧
      (t.run = 0 ∨ 7 ≤ t.pc.toNat → t.drive = none ∧ t.lvl = 1) ∧ t.outcome ≠ 3 ∧ ∀ ev ∈ t.log, ev.legal = true

/-- A step of a running block is `exec` of the word at PC, after the host commands of its ticks have been answered; a step of an
idle block is `exec` of the host command of the tick. -/
def Obligations.StepRunsTheDecodedOperation : Prop :=
  (∀ (s : State) (i : Instr), s.run = 1 → decodeWord s.fetch = .ok i → s.inputs.firstReset s.now (s.ticksOf i) = none →
    step s = mapNext State.afterOp (exec i (s.serve (s.ticksOf i)))) ∧
  (∀ (s : State) (i : Instr), s.run = 0 → decode (.host (s.inputs.hcmdAt s.now)) = .ok i → s.inputs.rstAt s.now = false →
    step s = mapNext State.afterIdle (exec i s))

/-- An operation placed with `withFetchWord` is the one the next step runs, and its own effect is not dropped. -/
def Obligations.APlacedWordRunsNext : Prop :=
  ∀ (s : State) (nbits w : Nat) (i : Instr), decodeTableWord nbits w = some i →
    (i.isHost = false →
      step (s.withFetchWord nbits w) =
        mapNext State.afterOp (exec i ((s.withFetchWord nbits w).serve ((s.withFetchWord nbits w).ticksOf i)))) ∧
    (i.isHost = true → step (s.withFetchWord nbits w) = mapNext State.afterIdle (exec i (s.withFetchWord nbits w)))

/-- R69, R247: the HUM and TEMP commands of the ticks an operation takes are answered with the values retained before it, even at
the tick at which it raises Timeout; nothing else is answered. -/
def Obligations.CommandsDuringAnOperationAreAnsweredFirst : Prop :=
  ∀ (s u : State) (i : Instr), s.run = 1 → decodeWord s.fetch = .ok i → s.inputs.firstReset s.now (s.ticksOf i) = none →
    step s = .next u →
    ∀ (p : Tick) (v : Word), Event.hresp p v ∈ u.log ↔
      Event.hresp p v ∈ s.log ∨
      (s.now < p ∧ p ≤ s.now + s.ticksOf i ∧
        (((p, 2#2) ∈ s.inputs.hcmds ∧ v = s.hum) ∨ ((p, 3#2) ∈ s.inputs.hcmds ∧ v = s.tneg ++ s.tmag)))

/-- R230, R231: at a tick with `rst` = 1 every register takes its reset value and the pin is an input; a read in progress is
dropped with no event, and the command of that tick is ignored: at an idle tick, at the tick after the one that accepts a READ, and
at any tick of a running operation. -/
def Obligations.ResetDropsEverything : Prop :=
  (∀ s : State, s.run = 0 → s.inputs.rstAt s.now = true →
    ∃ t, step s = .next t ∧ (∀ r, t.reg r = State.reset.reg r) ∧ t.drive = none ∧ t.now = s.now + 1 ∧ t.log = s.log) ∧
  (∀ s : State, s.run = 0 → s.inputs.hcmdAt s.now = 1 → s.inputs.rstAt s.now = false → s.inputs.rstAt (s.now + 1) = true →
    ∃ t, step s = .next t ∧ (∀ r, t.reg r = State.reset.reg r) ∧ t.drive = none ∧ t.now = s.now + 2 ∧ t.log = s.log) ∧
  (∀ (s : State) (i : Instr) (r : Tick), s.run = 1 → decodeWord s.fetch = .ok i →
    r ∈ s.inputs.resets → s.now < r → r ≤ s.now + s.ticksOf i → (∀ r' ∈ s.inputs.resets, s.now < r' → r ≤ r') →
    ∃ t, step s = .next t ∧ (∀ r', t.reg r' = State.reset.reg r') ∧ t.drive = none ∧ t.now = r + 1 ∧
      retCount t.log = retCount s.log ∧ errorCount t.log = errorCount s.log ∧
      ∀ p v, Event.hresp p v ∈ t.log → Event.hresp p v ∈ s.log ∨ p < r)

/-- R123: with the hard-wired microprogram every read ends, within 172 micro-operations, whatever the line, the host and the
reset input do. -/
def Obligations.EveryReadEnds : Prop :=
  ∀ s : State, s.Inv → s.run = 1 → ∃ k ≤ 172, ∃ t, steps k s = .next t ∧ t.run = 0

/-- R128, R194: a read that no reset drops ends with exactly one `ret`, at the tick of its last operation, with the code left in
OUTCOME, and with one `on_error` exactly if that code is not 0. -/
def Obligations.EveryReadHasExactlyOneOutcome : Prop :=
  ∀ s : State, s.Inv → s.run = 1 → (∀ r ∈ s.inputs.resets, r ≤ s.now) →
    ∃ k ≤ 172, ∃ t, steps k s = .next t ∧ t.run = 0 ∧ 1 ≤ t.now ∧
      retCount t.log = retCount s.log + 1 ∧ Event.ret (t.now - 1) t.outcome ∈ t.log ∧
      errorCount t.log = errorCount s.log + (if t.outcome = 0 then 0 else 1) ∧
      (t.outcome ≠ 0 → Event.onError (t.now - 1) t.outcome ∈ t.log ∧ t.hum = s.hum ∧ t.tneg = s.tneg ∧ t.tmag = s.tmag)

/-- R246: from the tick after its READ to the tick of its `ret`, a complete read takes 3106 … 8435 ticks and a read that times out
3083 … 8436, whatever the line does. -/
def Obligations.AReadLastsBetweenItsBounds : Prop :=
  ∀ s : State, s.AboutToRead → ∃ k t, k ≤ 173 ∧ steps k s = .next t ∧ t.run = 0 ∧ retCount t.log = retCount s.log + 1 ∧
    ∃ n, Event.ret (s.now + 1 + n) t.outcome ∈ t.log ∧ t.now = s.now + 1 + n + 1 ∧
      (t.outcome ≠ 1 → 3106 ≤ n ∧ n ≤ 8435) ∧ (t.outcome = 1 → 3083 ≤ n ∧ n ≤ 8436)

/-- R129: the line after an accepted READ at tick t: driven low on ticks t + 1 … t + 3000, high on t + 3001 … t + 3025, released
from t + 3026, when the first measurement is about to sample. -/
def Obligations.StartSignalOnTheLine : Prop :=
  ∀ s : State, s.AboutToRead →
    (∃ a, steps 4 s = .next a ∧ a.now = s.now + 1 ∧ a.drive = some 0 ∧ decodeWord a.fetch = .ok (.dly Config.tWake)) ∧
    (∃ b, steps 6 s = .next b ∧ b.now = s.now + 3001 ∧ b.drive = some 1 ∧ decodeWord b.fetch = .ok (.dly Config.tReq)) ∧
    (∃ c, steps 8 s = .next c ∧ c.now = s.now + 3026 ∧ c.drive = none ∧ c.run = 1 ∧
      decodeWord c.fetch = .ok (.meas Config.tAckLow Config.lAck1))

/-- R145: words 0, 1 and 2 execute at tick t + 1 and words 6 and 7 at tick t + 3026, word 7 with the pin already
an input; tick by tick, from t + 1 to the last tick of the read, the pin drives 0 on t + 1 … t + 3000, 1 on t + 3001 … t + 3025,
and is an input from t + 3026 on. So the state between words 1 and 2 is on the pin at no tick. -/
def Obligations.ThePinTickByTick : Prop :=
  ∀ s : State, s.AboutToRead →
    (∀ j, 1 ≤ j → j ≤ 3 → ∃ a, steps j s = .next a ∧ a.now = s.now + 1 ∧ a.run = 1 ∧ a.pc.toNat = j - 1) ∧
    (∃ b, steps 7 s = .next b ∧ b.now = s.now + 3026 ∧ decodeWord b.fetch = .ok (.dir 0)) ∧
    (∃ c, steps 8 s = .next c ∧ c.now = s.now + 3026 ∧ c.drive = none ∧
      decodeWord c.fetch = .ok (.meas Config.tAckLow Config.lAck1)) ∧
    ∃ k t, k ≤ 173 ∧ steps k s = .next t ∧ t.run = 0 ∧ s.now + 3026 < t.now ∧
      ∀ τ, s.now < τ → τ < t.now →
        s.driveAt k τ = some (if τ ≤ s.now + 3000 then some 0 else if τ ≤ s.now + 3025 then some 1 else none)

/-- After R196, and for a success log entry 20 (DEDUCED): at the tick at which a read ends `busy` and `outcome` still show what
they showed before, and the pulse ports show the end; from the next tick they show the new values. -/
def Obligations.ACompletionShowsFromTheNextTick : Prop :=
  ∀ (s t : State) (i : Instr), s.run = 1 → decodeWord s.fetch = .ok i → s.inputs.firstReset s.now (s.ticksOf i) = none →
    step s = .next t → t.run = 0 →
    ∃ p, t.now = p + 1 ∧ (∀ τ, s.now ≤ τ → τ ≤ p → s.busyAt 1 τ = some 1 ∧ s.outcomeAt 1 τ = some s.outcome) ∧
      t.done p = true ∧ t.doneCode p = t.outcome ∧
      (s.inputs.rstAt t.now = false → t.busyAt 1 t.now = some 0 ∧ t.outcomeAt 1 t.now = some t.outcome)

/-- R154: when word 13 executes, bit 39 − i of the frame is 1 exactly when the i-th high duration is greater than 40. -/
def Obligations.TheFrameHoldsTheDecidedBits : Prop :=
  ∀ (s : State) (ackLow ackHigh : Nat) (low high : Nat → Nat), s.AboutToRead → Accepted ackLow ackHigh low high →
    s.follows (s.now + 3026) (transmission ackLow ackHigh low high) →
    s.line (s.now + 3026 + runsLength (transmission ackLow ackHigh low high)) = 0 →
    ∃ t, steps 170 s = .next t ∧ t.run = 1 ∧ decodeWord t.fetch = .ok .extr ∧
      t.now = s.now + 3026 + runsLength (transmission ackLow ackHigh low high) ∧
      ∀ i < Config.nBits, t.frameBits.getLsbD (39 - i) = decide (Config.thBit < high i)

/-- The read as a whole: a line that carries the frame FR, within the limits of R81 and R82, ends with Ok and FR's readings
committed if FR's checksum is right, and with ChecksumMismatch and the old readings kept if it is not, at the tick R246 gives. -/
def Obligations.ACompleteReadCommitsOrRejects : Prop :=
  ∀ (s : State) (ackLow ackHigh : Nat) (low high : Nat → Nat) (fr : BitVec 40), s.AboutToRead →
    Accepted ackLow ackHigh low high →
    s.follows (s.now + 3026) (transmission ackLow ackHigh low high) →
    s.line (s.now + 3026 + runsLength (transmission ackLow ackHigh low high)) = 0 →
    (∀ i < Config.nBits, fr.getLsbD (39 - i) = decide (Config.thBit < high i)) →
    let last := s.now + 1 + (3025 + runsLength (transmission ackLow ackHigh low high))
    let sum := fr.extractLsb' 32 8 + fr.extractLsb' 24 8 + fr.extractLsb' 16 8 + fr.extractLsb' 8 8
    (sum = fr.extractLsb' 0 8 →
      ∃ t, steps 173 s = .next t ∧ t.run = 0 ∧ t.outcome = 0 ∧ t.now = last + 1 ∧ Event.ret last 0 ∈ t.log ∧
        t.hum = fr.extractLsb' 24 16 ∧ t.tneg = fr.extractLsb' 23 1 ∧ t.tmag = fr.extractLsb' 8 15) ∧
    (sum ≠ fr.extractLsb' 0 8 →
      ∃ t, steps 172 s = .next t ∧ t.run = 0 ∧ t.outcome = 2 ∧ t.now = last + 1 ∧ Event.ret last 2 ∈ t.log ∧
        Event.onError last 2 ∈ t.log ∧ t.hum = s.hum ∧ t.tneg = s.tneg ∧ t.tmag = s.tmag)

/-- R155: the bits of the frame the loop has not reached are 0; every step keeps that. -/
def Obligations.UnreachedFrameBitsStayZero : Prop :=
  ∀ s t : State, s.Inv → s.UnreachedBitsZero → step s = .next t → t.UnreachedBitsZero

/-- R183: the verdict of VRFY depends on the sum of bytes 0 … 3 modulo 256 and on byte 4 only, so no reordering of those bytes
changes it; the reading EXTR takes from the frame does depend on their order. -/
def Obligations.VerdictDependsOnTheSumOnly : Prop :=
  (∀ s₁ s₂ t₁ t₂ : State, exec .vrfy s₁ = .next t₁ → exec .vrfy s₂ = .next t₂ →
    ((s₁.byte 0).toNat + (s₁.byte 1).toNat + (s₁.byte 2).toNat + (s₁.byte 3).toNat) % 256 =
      ((s₂.byte 0).toNat + (s₂.byte 1).toNat + (s₂.byte 2).toNat + (s₂.byte 3).toNat) % 256 →
    s₁.byte 4 = s₂.byte 4 → (errorCount s₁.log < errorCount t₁.log ↔ errorCount s₂.log < errorCount t₂.log)) ∧
  (∀ s₁ s₂ t₁ t₂ : State, exec .vrfy s₁ = .next t₁ → exec .vrfy s₂ = .next t₂ →
    [s₁.byte 0, s₁.byte 1, s₁.byte 2, s₁.byte 3].Perm [s₂.byte 0, s₂.byte 1, s₂.byte 2, s₂.byte 3] →
    s₁.byte 4 = s₂.byte 4 → (errorCount s₁.log < errorCount t₁.log ↔ errorCount s₂.log < errorCount t₂.log)) ∧
  (∃ s₁ s₂ t₁ t₂ : State, [s₁.byte 0, s₁.byte 1, s₁.byte 2, s₁.byte 3].Perm [s₂.byte 0, s₂.byte 1, s₂.byte 2, s₂.byte 3] ∧
    s₁.byte 4 = s₂.byte 4 ∧ exec .extr s₁ = .next t₁ ∧ exec .extr s₂ = .next t₂ ∧ t₁.th ≠ t₂.th ∧ t₁.tm ≠ t₂.tm)

/-- R184: VRFY catches every change of a single bit of a frame whose checksum is right, and misses the change of bit 0 of byte 0
from 0 to 1 together with bit 0 of byte 1 from 1 to 0. -/
def Obligations.SingleBitErrorsAreCaught : Prop :=
  (∀ (s₁ s₂ : State) (j : Nat), s₁.checksum = s₁.byte 4 → j < 40 → s₂.frameBits = s₁.frameBits ^^^ (1#40 <<< j) →
    ∃ t, exec .vrfy s₂ = .next t ∧ t.outcome = 2 ∧ t.run = 0 ∧ errorCount t.log = errorCount s₂.log + 1) ∧
  (∀ s₁ s₂ : State, s₁.checksum = s₁.byte 4 → (s₁.byte 0).getLsbD 0 = false → (s₁.byte 1).getLsbD 0 = true →
    s₂.frameBits = s₁.frameBits ^^^ (1#40 <<< 32) ^^^ (1#40 <<< 24) →
    ∃ t, exec .vrfy s₂ = .next t ∧ t.pc = s₂.pc + 1 ∧ t.log = s₂.log)

/-- R85: the block commits every frame whose checksum matches, whatever its fields, and the responses are then bytes 0–1 and 2–3
of that frame (R88). -/
def Obligations.EveryMatchingFrameIsCommitted : Prop :=
  ∀ s : State, s.checksum = s.byte 4 →
    ∃ a b c, exec .extr s = .next a ∧ exec .vrfy a = .next b ∧ exec .cmt b = .next c ∧ c.outcome = 0 ∧
      c.humResponse = s.frameBits.extractLsb' 24 16 ∧ c.tempResponse = s.frameBits.extractLsb' 8 16

/-- R91: a word is the operation of a row exactly when `w AND mask = match`, and no word is the operation of two rows. -/
def Obligations.DecodingFollowsMatchAndMask : Prop :=
  (∀ (w : Word) (r : OpcodeRow), r ∈ opcodeRows →
    (r.covers w = true ↔ ∃ i, decodeWord w = .ok i ∧ i.mnemonic = r.mnemonic)) ∧
  (∀ (w : Word) (r r' : OpcodeRow), r ∈ opcodeRows → r' ∈ opcodeRows → r.covers w = true → r'.covers w = true → r = r')

/-- R93: the words that spell no instruction are rejected by name, for the reason the rule gives, and refused by the step; the
microprogram holds none. -/
def Obligations.InvalidWordsAreRejected : Prop :=
  (∀ w : Word, decodeWord w = .error .noSuchOperation ↔ (w.toNat / 4096 = 0 ∨ 0xB ≤ w.toNat / 4096)) ∧
  (∀ w : Word, decodeWord w = .error .mustBeZeroBit ↔
    (1 ≤ w.toNat / 4096 ∧ w.toNat / 4096 ≤ 0xA ∧ ∀ r ∈ opcodeRows, r.covers w = false)) ∧
  (∀ (s : State) (e : Reject), s.run = 1 → decodeWord s.fetch = .error e → step s = .refused (.invalidWord e)) ∧
  (∀ (a : Nat) (h : a < 16), ∃ i, decodeWord microprogram[a] = .ok i)

/-- Decoding an encoded well-formed operation gives it back, with every operand at every value its field admits. -/
def Obligations.DecodeOfEncodeIsTheOperation : Prop :=
  ∀ i : Instr, i.wellFormed = true → decode (encode i) = .ok i

/-- What the decoder accepts is well-formed and encodes to the code it was read from. -/
def Obligations.EncodeOfDecodeIsTheCode : Prop :=
  ∀ (c : Code) (i : Instr), decode c = .ok i → i.wellFormed = true ∧ encode i = c

/-- R122: the sixteen words, and that they decode to the sixteen steps of the read algorithm, with the parameters of R5. -/
def Obligations.TheMicroprogramIsTheReadAlgorithm : Prop :=
  microprogram.toList = [0x1000, 0x2001, 0x3000, 0x4BB8, 0x3001, 0x4019, 0x2000, 0x5055, 0x5855, 0x5038, 0x584B, 0x6028, 0x7289,
    0x8000, 0x9000, 0xA000] ∧
  microprogram.toList.map decodeWord =
    [ .clrf, .dir 1, .lvl 0, .dly Config.tWake, .lvl 1, .dly Config.tReq, .dir 0, .meas Config.tAckLow Config.lAck1,
      .meas Config.tAckHigh Config.lAck2, .meas Config.tBitLow Config.lBit1, .meas Config.tBitHigh Config.lBit2,
      .pack Config.thBit, .loop 9 (BitVec.ofNat 6 Config.nBits), .extr, .vrfy, .cmt ].map Except.ok

/-- R97: with the pseudo-instructions the microprogram reads CLRF, WAKE, REQ, ACK, BIT, LOOP 9, 40, EXTR, VRFY, CMT, and BIT stands
at address 9. -/
def Obligations.TheMicroprogramInPseudoInstructions : Prop :=
  (microprogram.toList.map Code.micro =
    ([Instr.clrf] ++ Pseudo.wake.expand ++ Pseudo.req.expand ++ Pseudo.ack.expand ++ Pseudo.bit.expand ++
      [Instr.loop 9 40, Instr.extr, Instr.vrfy, Instr.cmt]).map encode) ∧
  ([Instr.clrf] ++ Pseudo.wake.expand ++ Pseudo.req.expand ++ Pseudo.ack.expand).length = 9

/-- R168: the value of the readings as rationals, their ranges, and when two are equal. -/
def Obligations.ReadingsAreTenths : Prop :=
  (∀ s : State, s.humidity * 10 = s.hum.toNat ∧ 0 ≤ s.humidity ∧ s.humidity ≤ 65535 / 10 ∧
    (s.tneg = 0 → s.temperature * 10 = s.tmag.toNat) ∧ (s.tneg = 1 → s.temperature * 10 = -(s.tmag.toNat : ℚ)) ∧
    -(32767 / 10) ≤ s.temperature ∧ s.temperature ≤ 32767 / 10) ∧
  (∀ s₁ s₂ : State, (s₁.humidity = s₂.humidity ↔ s₁.hum = s₂.hum) ∧
    (s₁.temperature = s₂.temperature ↔
      (s₁.tneg = s₂.tneg ∧ s₁.tmag = s₂.tmag) ∨ (s₁.tmag = 0 ∧ s₂.tmag = 0)))
end

