-- ==== Sys2Proof/Laws/Memory.lean ====
section
/-! SUPPORT. The laws of the FRAME space: read after write, and that every operation keeps the canonical form. -/

namespace Sys2Proof.Machine

@[simp] theorem Memory.read_cleared (a : Nat) : Memory.read Memory.cleared a = 0 := rfl

/-- The canonical form as a proposition. -/
theorem Memory.wf_iff (m : Memory) : m.wf = true ↔
    m.Pairwise (fun c c' => c.1 < c'.1) ∧ ∀ c ∈ m, c.1 < Config.nBytes ∧ c.2 ≠ Memory.fill := by
  simp [Memory.wf]

@[simp] theorem Memory.cleared_wf : Memory.wf Memory.cleared = true := rfl

/-- Writing a byte other than the fill changes that address alone, whatever the list. -/
theorem Memory.read_write_of_ne_fill (m : Memory) (a : Nat) (v : Byte) (hv : v ≠ Memory.fill) (b : Nat) :
    (m.write a v).read b = if b = a then v else m.read b := by
  induction m with
  | nil => by_cases h : b = a <;> simp [Memory.write, Memory.read, hv, h]
  | cons c m ih =>
    obtain ⟨x, u⟩ := c
    unfold Memory.write
    by_cases hax : a = x
    · subst hax
      by_cases h : b = a <;> simp [Memory.read, hv, h]
    · by_cases hlt : a < x
      · by_cases h : b = a <;> simp [Memory.read, hv, hax, hlt, h]
      · by_cases hbx : b = x
        · subst hbx
          have : b ≠ a := fun e => hax e.symm
          simp [Memory.read, hax, hlt, this]
        · simp [Memory.read, hax, hlt, hbx, ih]

/-- An address below every listed one reads as the fill. -/
theorem Memory.read_of_lt (m : Memory) (a : Nat) (h : ∀ c ∈ m, a < c.1) : m.read a = Memory.fill := by
  induction m with
  | nil => rfl
  | cons c m ih =>
    have hc := h c (by simp)
    simp only [Memory.read, Nat.ne_of_lt hc, if_false]
    exact ih fun d hd => h d (by simp [hd])

/-- Read after write, on a canonical memory, whatever the byte. -/
theorem Memory.read_write (m : Memory) (hm : m.Pairwise (fun c c' => c.1 < c'.1)) (a : Nat) (v : Byte) (b : Nat) :
    (m.write a v).read b = if b = a then v else m.read b := by
  by_cases hv : v = Memory.fill
  · induction m with
    | nil => by_cases h : b = a <;> simp [Memory.write, Memory.read, hv, h]
    | cons c m ih =>
      obtain ⟨x, u⟩ := c
      rw [List.pairwise_cons] at hm
      unfold Memory.write
      by_cases hax : a = x
      · subst hax
        by_cases h : b = a
        · subst h
          simp [hv, Memory.read_of_lt m b (fun d hd => hm.1 d hd)]
        · simp [Memory.read, hv, h]
      · by_cases hlt : a < x
        · by_cases h : b = a
          · subst h
            have hbelow : ∀ c ∈ (x, u) :: m, b < c.1 := by
              intro c hc
              rcases List.mem_cons.1 hc with rfl | hc
              · exact hlt
              · exact Nat.lt_trans hlt (hm.1 c hc)
            have hr := Memory.read_of_lt ((x, u) :: m) b hbelow
            simp [hax, hlt, hv, hr]
          · simp [hax, hlt, hv, h]
        · by_cases hbx : b = x
          · subst hbx
            have : b ≠ a := fun e => hax e.symm
            simp [Memory.read, hax, hlt, this]
          · simp [Memory.read, hax, hlt, hbx, ih hm.2]
  · exact Memory.read_write_of_ne_fill m a v hv b

/-- Every cell of a written memory is an old cell or the one written, which then is not the fill. -/
theorem Memory.mem_write (m : Memory) (a : Nat) (v : Byte) (c : Host.Cell) (h : c ∈ m.write a v) :
    c ∈ m ∨ (c = (a, v) ∧ v ≠ Memory.fill) := by
  induction m with
  | nil =>
    unfold Memory.write at h
    split at h <;> simp_all
  | cons x m ih =>
    obtain ⟨x, u⟩ := x
    unfold Memory.write at h
    split at h
    · split at h
      · simp [h]
      · rcases List.mem_cons.1 h with h | h
        · exact .inr ⟨h, ‹_›⟩
        · simp [h]
    · split at h
      · split at h
        · exact .inl h
        · rcases List.mem_cons.1 h with h | h
          · exact .inr ⟨h, ‹_›⟩
          · exact .inl h
      · rcases List.mem_cons.1 h with h | h
        · simp [h]
        · rcases ih h with h | h
          · simp [h]
          · exact .inr h

/-- A write keeps the addresses strictly rising. -/
theorem Memory.write_pairwise (m : Memory) (a : Nat) (v : Byte) (hm : m.Pairwise (fun c c' => c.1 < c'.1)) :
    (m.write a v).Pairwise (fun c c' => c.1 < c'.1) := by
  induction m with
  | nil => unfold Memory.write; split <;> simp
  | cons x m ih =>
    obtain ⟨x, u⟩ := x
    have hm' := List.pairwise_cons.1 hm
    unfold Memory.write
    split
    · split
      · exact hm'.2
      · subst ‹a = x›
        exact List.pairwise_cons.2 hm'
    · split
      · split
        · exact hm
        · refine List.pairwise_cons.2 ⟨fun c hc => ?_, hm⟩
          rcases List.mem_cons.1 hc with rfl | hc
          · assumption
          · exact Nat.lt_trans ‹a < x› (hm'.1 c hc)
      · refine List.pairwise_cons.2 ⟨fun c hc => ?_, ih hm'.2⟩
        rcases Memory.mem_write m a v c hc with hc | ⟨rfl, -⟩
        · exact hm'.1 c hc
        · show x < a
          omega

/-- A write inside the FRAME space keeps the canonical form. -/
theorem Memory.write_wf (m : Memory) (a : Nat) (v : Byte) (ha : a < Config.nBytes) (hm : m.wf = true) :
    (m.write a v).wf = true := by
  rw [Memory.wf_iff] at hm ⊢
  refine ⟨Memory.write_pairwise m a v hm.1, fun c hc => ?_⟩
  rcases Memory.mem_write m a v c hc with hc | ⟨rfl, hv⟩
  · exact hm.2 c hc
  · exact ⟨ha, hv⟩

/-- The mask of an index is never 0, so FrameSetBit never writes the fill. -/
theorem frameMask_or_ne_fill (v : Byte) (i : BitVec 6) : v ||| frameMask i ≠ Memory.fill := by
  have h : ∀ j, j < 8 → (0x80#8 >>> j).toNat ≠ 0 := by decide
  intro h0
  have hz : frameMask i = 0#8 := by
    have := (BitVec.or_eq_zero_iff).1 h0
    exact this.2
  exact h (i.toNat % 8) (Nat.mod_lt _ (by decide)) (by rw [show 0x80#8 >>> (i.toNat % 8) = frameMask i from rfl, hz]; rfl)

/-- FrameSetBit changes the byte of its index, by OR with its mask, and no other. -/
theorem Memory.read_setBit (m : Memory) (i : BitVec 6) (a : Nat) :
    (m.setBit i).read a = if a = frameAddr i then m.read (frameAddr i) ||| frameMask i else m.read a :=
  Memory.read_write_of_ne_fill _ _ _ (frameMask_or_ne_fill _ _) _

theorem Memory.setBit_wf (m : Memory) (i : BitVec 6) (hi : i.toNat < Config.nBits) (hm : m.wf = true) :
    (m.setBit i).wf = true :=
  Memory.write_wf _ _ _ (by unfold frameAddr; simp only [Config.nBytes, Config.nBits] at *; omega) hm

end Sys2Proof.Machine
end

