-- ==== Sys2Proof/Laws/State.lean ====
section
/-! SUPPORT. One lemma per field for each named update of State (all by rfl), and the fields that answering host commands and
closing a tick leave alone. -/

namespace Sys2Proof.Machine

variable (s : State)

section emit

@[simp] theorem State.emit_pc (e : Event) : (s.emit e).pc = s.pc := rfl
@[simp] theorem State.emit_run (e : Event) : (s.emit e).run = s.run := rfl
@[simp] theorem State.emit_d (e : Event) : (s.emit e).d = s.d := rfl
@[simp] theorem State.emit_idx (e : Event) : (s.emit e).idx = s.idx := rfl
@[simp] theorem State.emit_cnt (e : Event) : (s.emit e).cnt = s.cnt := rfl
@[simp] theorem State.emit_th (e : Event) : (s.emit e).th = s.th := rfl
@[simp] theorem State.emit_tn (e : Event) : (s.emit e).tn = s.tn := rfl
@[simp] theorem State.emit_tm (e : Event) : (s.emit e).tm = s.tm := rfl
@[simp] theorem State.emit_sum (e : Event) : (s.emit e).sum = s.sum := rfl
@[simp] theorem State.emit_frame (e : Event) : (s.emit e).frame = s.frame := rfl
@[simp] theorem State.emit_hum (e : Event) : (s.emit e).hum = s.hum := rfl
@[simp] theorem State.emit_tneg (e : Event) : (s.emit e).tneg = s.tneg := rfl
@[simp] theorem State.emit_tmag (e : Event) : (s.emit e).tmag = s.tmag := rfl
@[simp] theorem State.emit_outcome (e : Event) : (s.emit e).outcome = s.outcome := rfl
@[simp] theorem State.emit_dir (e : Event) : (s.emit e).dir = s.dir := rfl
@[simp] theorem State.emit_lvl (e : Event) : (s.emit e).lvl = s.lvl := rfl
@[simp] theorem State.emit_rom (e : Event) : (s.emit e).rom = s.rom := rfl
@[simp] theorem State.emit_now (e : Event) : (s.emit e).now = s.now := rfl
@[simp] theorem State.emit_inputs (e : Event) : (s.emit e).inputs = s.inputs := rfl
@[simp] theorem State.emit_log (e : Event) : (s.emit e).log = e :: s.log := rfl

end emit

section nextPc

@[simp] theorem State.nextPc_pc : (s.nextPc).pc = s.pc + 1 := rfl
@[simp] theorem State.nextPc_run : (s.nextPc).run = s.run := rfl
@[simp] theorem State.nextPc_d : (s.nextPc).d = s.d := rfl
@[simp] theorem State.nextPc_idx : (s.nextPc).idx = s.idx := rfl
@[simp] theorem State.nextPc_cnt : (s.nextPc).cnt = s.cnt := rfl
@[simp] theorem State.nextPc_th : (s.nextPc).th = s.th := rfl
@[simp] theorem State.nextPc_tn : (s.nextPc).tn = s.tn := rfl
@[simp] theorem State.nextPc_tm : (s.nextPc).tm = s.tm := rfl
@[simp] theorem State.nextPc_sum : (s.nextPc).sum = s.sum := rfl
@[simp] theorem State.nextPc_frame : (s.nextPc).frame = s.frame := rfl
@[simp] theorem State.nextPc_hum : (s.nextPc).hum = s.hum := rfl
@[simp] theorem State.nextPc_tneg : (s.nextPc).tneg = s.tneg := rfl
@[simp] theorem State.nextPc_tmag : (s.nextPc).tmag = s.tmag := rfl
@[simp] theorem State.nextPc_outcome : (s.nextPc).outcome = s.outcome := rfl
@[simp] theorem State.nextPc_dir : (s.nextPc).dir = s.dir := rfl
@[simp] theorem State.nextPc_lvl : (s.nextPc).lvl = s.lvl := rfl
@[simp] theorem State.nextPc_rom : (s.nextPc).rom = s.rom := rfl
@[simp] theorem State.nextPc_now : (s.nextPc).now = s.now := rfl
@[simp] theorem State.nextPc_inputs : (s.nextPc).inputs = s.inputs := rfl
@[simp] theorem State.nextPc_log : (s.nextPc).log = s.log := rfl

end nextPc

section pass

@[simp] theorem State.pass_pc (n : Nat) : (s.pass n).pc = s.pc := rfl
@[simp] theorem State.pass_run (n : Nat) : (s.pass n).run = s.run := rfl
@[simp] theorem State.pass_d (n : Nat) : (s.pass n).d = s.d := rfl
@[simp] theorem State.pass_idx (n : Nat) : (s.pass n).idx = s.idx := rfl
@[simp] theorem State.pass_cnt (n : Nat) : (s.pass n).cnt = s.cnt := rfl
@[simp] theorem State.pass_th (n : Nat) : (s.pass n).th = s.th := rfl
@[simp] theorem State.pass_tn (n : Nat) : (s.pass n).tn = s.tn := rfl
@[simp] theorem State.pass_tm (n : Nat) : (s.pass n).tm = s.tm := rfl
@[simp] theorem State.pass_sum (n : Nat) : (s.pass n).sum = s.sum := rfl
@[simp] theorem State.pass_frame (n : Nat) : (s.pass n).frame = s.frame := rfl
@[simp] theorem State.pass_hum (n : Nat) : (s.pass n).hum = s.hum := rfl
@[simp] theorem State.pass_tneg (n : Nat) : (s.pass n).tneg = s.tneg := rfl
@[simp] theorem State.pass_tmag (n : Nat) : (s.pass n).tmag = s.tmag := rfl
@[simp] theorem State.pass_outcome (n : Nat) : (s.pass n).outcome = s.outcome := rfl
@[simp] theorem State.pass_dir (n : Nat) : (s.pass n).dir = s.dir := rfl
@[simp] theorem State.pass_lvl (n : Nat) : (s.pass n).lvl = s.lvl := rfl
@[simp] theorem State.pass_rom (n : Nat) : (s.pass n).rom = s.rom := rfl
@[simp] theorem State.pass_now (n : Nat) : (s.pass n).now = s.now + n := rfl
@[simp] theorem State.pass_inputs (n : Nat) : (s.pass n).inputs = s.inputs := rfl
@[simp] theorem State.pass_log (n : Nat) : (s.pass n).log = s.log := rfl

end pass

section endRead

@[simp] theorem State.endRead_pc (o : Outcome) : (s.endRead o).pc = 0 := rfl
@[simp] theorem State.endRead_run (o : Outcome) : (s.endRead o).run = 0 := rfl
@[simp] theorem State.endRead_d (o : Outcome) : (s.endRead o).d = s.d := rfl
@[simp] theorem State.endRead_idx (o : Outcome) : (s.endRead o).idx = s.idx := rfl
@[simp] theorem State.endRead_cnt (o : Outcome) : (s.endRead o).cnt = s.cnt := rfl
@[simp] theorem State.endRead_th (o : Outcome) : (s.endRead o).th = s.th := rfl
@[simp] theorem State.endRead_tn (o : Outcome) : (s.endRead o).tn = s.tn := rfl
@[simp] theorem State.endRead_tm (o : Outcome) : (s.endRead o).tm = s.tm := rfl
@[simp] theorem State.endRead_sum (o : Outcome) : (s.endRead o).sum = s.sum := rfl
@[simp] theorem State.endRead_frame (o : Outcome) : (s.endRead o).frame = s.frame := rfl
@[simp] theorem State.endRead_hum (o : Outcome) : (s.endRead o).hum = s.hum := rfl
@[simp] theorem State.endRead_tneg (o : Outcome) : (s.endRead o).tneg = s.tneg := rfl
@[simp] theorem State.endRead_tmag (o : Outcome) : (s.endRead o).tmag = s.tmag := rfl
@[simp] theorem State.endRead_outcome (o : Outcome) : (s.endRead o).outcome = o.code := rfl
@[simp] theorem State.endRead_dir (o : Outcome) : (s.endRead o).dir = s.dir := rfl
@[simp] theorem State.endRead_lvl (o : Outcome) : (s.endRead o).lvl = s.lvl := rfl
@[simp] theorem State.endRead_rom (o : Outcome) : (s.endRead o).rom = s.rom := rfl
@[simp] theorem State.endRead_now (o : Outcome) : (s.endRead o).now = s.now := rfl
@[simp] theorem State.endRead_inputs (o : Outcome) : (s.endRead o).inputs = s.inputs := rfl
@[simp] theorem State.endRead_log (o : Outcome) : (s.endRead o).log = .ret s.now o.code :: s.log := rfl

end endRead

section raise

@[simp] theorem State.raise_pc (k : Outcome) : (s.raise k).pc = 0 := rfl
@[simp] theorem State.raise_run (k : Outcome) : (s.raise k).run = 0 := rfl
@[simp] theorem State.raise_d (k : Outcome) : (s.raise k).d = s.d := rfl
@[simp] theorem State.raise_idx (k : Outcome) : (s.raise k).idx = s.idx := rfl
@[simp] theorem State.raise_cnt (k : Outcome) : (s.raise k).cnt = s.cnt := rfl
@[simp] theorem State.raise_th (k : Outcome) : (s.raise k).th = s.th := rfl
@[simp] theorem State.raise_tn (k : Outcome) : (s.raise k).tn = s.tn := rfl
@[simp] theorem State.raise_tm (k : Outcome) : (s.raise k).tm = s.tm := rfl
@[simp] theorem State.raise_sum (k : Outcome) : (s.raise k).sum = s.sum := rfl
@[simp] theorem State.raise_frame (k : Outcome) : (s.raise k).frame = s.frame := rfl
@[simp] theorem State.raise_hum (k : Outcome) : (s.raise k).hum = s.hum := rfl
@[simp] theorem State.raise_tneg (k : Outcome) : (s.raise k).tneg = s.tneg := rfl
@[simp] theorem State.raise_tmag (k : Outcome) : (s.raise k).tmag = s.tmag := rfl
@[simp] theorem State.raise_outcome (k : Outcome) : (s.raise k).outcome = k.code := rfl
@[simp] theorem State.raise_dir (k : Outcome) : (s.raise k).dir = s.dir := rfl
@[simp] theorem State.raise_lvl (k : Outcome) : (s.raise k).lvl = s.lvl := rfl
@[simp] theorem State.raise_rom (k : Outcome) : (s.raise k).rom = s.rom := rfl
@[simp] theorem State.raise_now (k : Outcome) : (s.raise k).now = s.now := rfl
@[simp] theorem State.raise_inputs (k : Outcome) : (s.raise k).inputs = s.inputs := rfl
@[simp] theorem State.raise_log (k : Outcome) : (s.raise k).log = .ret s.now k.code :: .onError s.now k.code :: s.log := rfl

end raise

section measured

@[simp] theorem State.measured_pc (k : Nat) : (s.measured k).pc = s.pc + 1 := rfl
@[simp] theorem State.measured_run (k : Nat) : (s.measured k).run = s.run := rfl
@[simp] theorem State.measured_d (k : Nat) : (s.measured k).d = BitVec.ofNat 11 k := rfl
@[simp] theorem State.measured_idx (k : Nat) : (s.measured k).idx = s.idx := rfl
@[simp] theorem State.measured_cnt (k : Nat) : (s.measured k).cnt = BitVec.ofNat 12 k := rfl
@[simp] theorem State.measured_th (k : Nat) : (s.measured k).th = s.th := rfl
@[simp] theorem State.measured_tn (k : Nat) : (s.measured k).tn = s.tn := rfl
@[simp] theorem State.measured_tm (k : Nat) : (s.measured k).tm = s.tm := rfl
@[simp] theorem State.measured_sum (k : Nat) : (s.measured k).sum = s.sum := rfl
@[simp] theorem State.measured_frame (k : Nat) : (s.measured k).frame = s.frame := rfl
@[simp] theorem State.measured_hum (k : Nat) : (s.measured k).hum = s.hum := rfl
@[simp] theorem State.measured_tneg (k : Nat) : (s.measured k).tneg = s.tneg := rfl
@[simp] theorem State.measured_tmag (k : Nat) : (s.measured k).tmag = s.tmag := rfl
@[simp] theorem State.measured_outcome (k : Nat) : (s.measured k).outcome = s.outcome := rfl
@[simp] theorem State.measured_dir (k : Nat) : (s.measured k).dir = s.dir := rfl
@[simp] theorem State.measured_lvl (k : Nat) : (s.measured k).lvl = s.lvl := rfl
@[simp] theorem State.measured_rom (k : Nat) : (s.measured k).rom = s.rom := rfl
@[simp] theorem State.measured_now (k : Nat) : (s.measured k).now = s.now + k := rfl
@[simp] theorem State.measured_inputs (k : Nat) : (s.measured k).inputs = s.inputs := rfl
@[simp] theorem State.measured_log (k : Nat) : (s.measured k).log = s.log := rfl

end measured

section measTimeout

@[simp] theorem State.measTimeout_pc (t : Nat) : (s.measTimeout t).pc = 0 := rfl
@[simp] theorem State.measTimeout_run (t : Nat) : (s.measTimeout t).run = 0 := rfl
@[simp] theorem State.measTimeout_d (t : Nat) : (s.measTimeout t).d = s.d := rfl
@[simp] theorem State.measTimeout_idx (t : Nat) : (s.measTimeout t).idx = s.idx := rfl
@[simp] theorem State.measTimeout_cnt (t : Nat) : (s.measTimeout t).cnt = s.cnt := rfl
@[simp] theorem State.measTimeout_th (t : Nat) : (s.measTimeout t).th = s.th := rfl
@[simp] theorem State.measTimeout_tn (t : Nat) : (s.measTimeout t).tn = s.tn := rfl
@[simp] theorem State.measTimeout_tm (t : Nat) : (s.measTimeout t).tm = s.tm := rfl
@[simp] theorem State.measTimeout_sum (t : Nat) : (s.measTimeout t).sum = s.sum := rfl
@[simp] theorem State.measTimeout_frame (t : Nat) : (s.measTimeout t).frame = s.frame := rfl
@[simp] theorem State.measTimeout_hum (t : Nat) : (s.measTimeout t).hum = s.hum := rfl
@[simp] theorem State.measTimeout_tneg (t : Nat) : (s.measTimeout t).tneg = s.tneg := rfl
@[simp] theorem State.measTimeout_tmag (t : Nat) : (s.measTimeout t).tmag = s.tmag := rfl
@[simp] theorem State.measTimeout_outcome (t : Nat) : (s.measTimeout t).outcome = 1 := rfl
@[simp] theorem State.measTimeout_dir (t : Nat) : (s.measTimeout t).dir = s.dir := rfl
@[simp] theorem State.measTimeout_lvl (t : Nat) : (s.measTimeout t).lvl = s.lvl := rfl
@[simp] theorem State.measTimeout_rom (t : Nat) : (s.measTimeout t).rom = s.rom := rfl
@[simp] theorem State.measTimeout_now (t : Nat) : (s.measTimeout t).now = s.now + sampleLimit t := rfl
@[simp] theorem State.measTimeout_inputs (t : Nat) : (s.measTimeout t).inputs = s.inputs := rfl
@[simp] theorem State.measTimeout_log (t : Nat) : (s.measTimeout t).log = .ret (s.now + sampleLimit t) 1 :: .onError (s.now + sampleLimit t) 1 :: s.log := rfl

end measTimeout

section resetAt

@[simp] theorem State.resetAt_pc (r : Tick) : (s.resetAt r).pc = 0 := rfl
@[simp] theorem State.resetAt_run (r : Tick) : (s.resetAt r).run = 0 := rfl
@[simp] theorem State.resetAt_d (r : Tick) : (s.resetAt r).d = 0 := rfl
@[simp] theorem State.resetAt_idx (r : Tick) : (s.resetAt r).idx = 0 := rfl
@[simp] theorem State.resetAt_cnt (r : Tick) : (s.resetAt r).cnt = 0 := rfl
@[simp] theorem State.resetAt_th (r : Tick) : (s.resetAt r).th = 0 := rfl
@[simp] theorem State.resetAt_tn (r : Tick) : (s.resetAt r).tn = 0 := rfl
@[simp] theorem State.resetAt_tm (r : Tick) : (s.resetAt r).tm = 0 := rfl
@[simp] theorem State.resetAt_sum (r : Tick) : (s.resetAt r).sum = 0 := rfl
@[simp] theorem State.resetAt_frame (r : Tick) : (s.resetAt r).frame = [] := rfl
@[simp] theorem State.resetAt_hum (r : Tick) : (s.resetAt r).hum = 0 := rfl
@[simp] theorem State.resetAt_tneg (r : Tick) : (s.resetAt r).tneg = 0 := rfl
@[simp] theorem State.resetAt_tmag (r : Tick) : (s.resetAt r).tmag = 0 := rfl
@[simp] theorem State.resetAt_outcome (r : Tick) : (s.resetAt r).outcome = 0 := rfl
@[simp] theorem State.resetAt_dir (r : Tick) : (s.resetAt r).dir = 0 := rfl
@[simp] theorem State.resetAt_lvl (r : Tick) : (s.resetAt r).lvl = 1 := rfl
@[simp] theorem State.resetAt_rom (r : Tick) : (s.resetAt r).rom = s.rom := rfl
@[simp] theorem State.resetAt_now (r : Tick) : (s.resetAt r).now = r + 1 := rfl
@[simp] theorem State.resetAt_inputs (r : Tick) : (s.resetAt r).inputs = s.inputs := rfl
@[simp] theorem State.resetAt_log (r : Tick) : (s.resetAt r).log = s.log := rfl

end resetAt

/-- Answering a command only appends to the log. -/
theorem State.answer_eq (c : Tick × BitVec 2) : s.answer c = { s with log := (s.answer c).log } := by
  unfold State.answer; split <;> rfl

/-- Answering commands only appends to the log. -/
theorem foldl_answer_eq (cs : List (Tick × BitVec 2)) (s : State) :
    cs.foldl State.answer s = { s with log := (cs.foldl State.answer s).log } := by
  induction cs generalizing s with
  | nil => rfl
  | cons c cs ih =>
    rw [List.foldl_cons, ih, State.answer_eq]

/-- What the host is answered during an operation changes nothing but the log. -/
theorem State.serve_eq (n : Nat) : s.serve n = { s with log := (s.serve n).log } := foldl_answer_eq _ _

@[simp] theorem State.serve_pc (n : Nat) : (s.serve n).pc = s.pc := by rw [State.serve_eq]
@[simp] theorem State.serve_run (n : Nat) : (s.serve n).run = s.run := by rw [State.serve_eq]
@[simp] theorem State.serve_d (n : Nat) : (s.serve n).d = s.d := by rw [State.serve_eq]
@[simp] theorem State.serve_idx (n : Nat) : (s.serve n).idx = s.idx := by rw [State.serve_eq]
@[simp] theorem State.serve_cnt (n : Nat) : (s.serve n).cnt = s.cnt := by rw [State.serve_eq]
@[simp] theorem State.serve_th (n : Nat) : (s.serve n).th = s.th := by rw [State.serve_eq]
@[simp] theorem State.serve_tn (n : Nat) : (s.serve n).tn = s.tn := by rw [State.serve_eq]
@[simp] theorem State.serve_tm (n : Nat) : (s.serve n).tm = s.tm := by rw [State.serve_eq]
@[simp] theorem State.serve_sum (n : Nat) : (s.serve n).sum = s.sum := by rw [State.serve_eq]
@[simp] theorem State.serve_frame (n : Nat) : (s.serve n).frame = s.frame := by rw [State.serve_eq]
@[simp] theorem State.serve_hum (n : Nat) : (s.serve n).hum = s.hum := by rw [State.serve_eq]
@[simp] theorem State.serve_tneg (n : Nat) : (s.serve n).tneg = s.tneg := by rw [State.serve_eq]
@[simp] theorem State.serve_tmag (n : Nat) : (s.serve n).tmag = s.tmag := by rw [State.serve_eq]
@[simp] theorem State.serve_outcome (n : Nat) : (s.serve n).outcome = s.outcome := by rw [State.serve_eq]
@[simp] theorem State.serve_dir (n : Nat) : (s.serve n).dir = s.dir := by rw [State.serve_eq]
@[simp] theorem State.serve_lvl (n : Nat) : (s.serve n).lvl = s.lvl := by rw [State.serve_eq]
@[simp] theorem State.serve_rom (n : Nat) : (s.serve n).rom = s.rom := by rw [State.serve_eq]
@[simp] theorem State.serve_now (n : Nat) : (s.serve n).now = s.now := by rw [State.serve_eq]
@[simp] theorem State.serve_inputs (n : Nat) : (s.serve n).inputs = s.inputs := by rw [State.serve_eq]

@[simp] theorem State.afterOp_pc : s.afterOp.pc = s.pc := by unfold State.afterOp; split <;> rfl
@[simp] theorem State.afterOp_run : s.afterOp.run = s.run := by unfold State.afterOp; split <;> rfl
@[simp] theorem State.afterOp_d : s.afterOp.d = s.d := by unfold State.afterOp; split <;> rfl
@[simp] theorem State.afterOp_idx : s.afterOp.idx = s.idx := by unfold State.afterOp; split <;> rfl
@[simp] theorem State.afterOp_cnt : s.afterOp.cnt = s.cnt := by unfold State.afterOp; split <;> rfl
@[simp] theorem State.afterOp_th : s.afterOp.th = s.th := by unfold State.afterOp; split <;> rfl
@[simp] theorem State.afterOp_tn : s.afterOp.tn = s.tn := by unfold State.afterOp; split <;> rfl
@[simp] theorem State.afterOp_tm : s.afterOp.tm = s.tm := by unfold State.afterOp; split <;> rfl
@[simp] theorem State.afterOp_sum : s.afterOp.sum = s.sum := by unfold State.afterOp; split <;> rfl
@[simp] theorem State.afterOp_frame : s.afterOp.frame = s.frame := by unfold State.afterOp; split <;> rfl
@[simp] theorem State.afterOp_hum : s.afterOp.hum = s.hum := by unfold State.afterOp; split <;> rfl
@[simp] theorem State.afterOp_tneg : s.afterOp.tneg = s.tneg := by unfold State.afterOp; split <;> rfl
@[simp] theorem State.afterOp_tmag : s.afterOp.tmag = s.tmag := by unfold State.afterOp; split <;> rfl
@[simp] theorem State.afterOp_outcome : s.afterOp.outcome = s.outcome := by unfold State.afterOp; split <;> rfl
@[simp] theorem State.afterOp_dir : s.afterOp.dir = s.dir := by unfold State.afterOp; split <;> rfl
@[simp] theorem State.afterOp_lvl : s.afterOp.lvl = s.lvl := by unfold State.afterOp; split <;> rfl
@[simp] theorem State.afterOp_rom : s.afterOp.rom = s.rom := by unfold State.afterOp; split <;> rfl
@[simp] theorem State.afterOp_inputs : s.afterOp.inputs = s.inputs := by unfold State.afterOp; split <;> rfl
@[simp] theorem State.afterOp_log : s.afterOp.log = s.log := by unfold State.afterOp; split <;> rfl
@[simp] theorem State.afterOp_now : s.afterOp.now = if s.run = 0 then s.now + 1 else s.now := by
  unfold State.afterOp; split <;> rfl

end Sys2Proof.Machine
end

