-- ==== Sys2Proof/Laws/Ops.lean ====
section
/-! SUPPORT. One lemma per shared operation that says everything it can do: run length and duration (R111, R112), the answers to
host commands (R69), the outcomes of `mapNext`. -/

namespace Sys2Proof.Machine

theorem runLength_some (f : Tick → Level) (l : Level) (n p k : Nat) :
    runLength f l n p = some k ↔ k < n ∧ (∀ j < k, f (p + j) = l) ∧ f (p + k) ≠ l := by
  induction n generalizing p k with
  | zero => simp [runLength]
  | succ n ih =>
    unfold runLength
    by_cases h : f p = l
    · rw [if_pos h]
      cases k with
      | zero => simp [h]
      | succ k =>
        have he : (Option.map (· + 1) (runLength f l n (p + 1)) = some (k + 1)) ↔ runLength f l n (p + 1) = some k := by
          simp
        rw [he, ih]
        constructor
        · rintro ⟨hk, hj, hn⟩
          refine ⟨by omega, fun j hj' => ?_, by rwa [show p + (k + 1) = p + 1 + k by omega]⟩
          cases j with
          | zero => exact h
          | succ j => rw [show p + (j + 1) = p + 1 + j by omega]; exact hj j (by omega)
        · rintro ⟨hk, hj, hn⟩
          refine ⟨by omega, fun j hj' => ?_, by rwa [show p + 1 + k = p + (k + 1) by omega]⟩
          rw [show p + 1 + j = p + (j + 1) by omega]
          exact hj (j + 1) (by omega)
    · rw [if_neg h]
      cases k with
      | zero => simp [h]
      | succ k =>
        simp only [Option.some.injEq]
        refine ⟨fun h0 => by omega, fun ⟨_, hj, _⟩ => absurd (hj 0 (by omega)) h⟩

theorem runLength_none (f : Tick → Level) (l : Level) (n p : Nat) :
    runLength f l n p = none ↔ ∀ j < n, f (p + j) = l := by
  induction n generalizing p with
  | zero => simp [runLength]
  | succ n ih =>
    unfold runLength
    by_cases h : f p = l
    · rw [if_pos h, Option.map_eq_none_iff, ih]
      constructor
      · intro hj j hj'
        cases j with
        | zero => exact h
        | succ j => rw [show p + (j + 1) = p + 1 + j by omega]; exact hj j (by omega)
      · intro hj j hj'
        rw [show p + 1 + j = p + (j + 1) by omega]
        exact hj (j + 1) (by omega)
    · rw [if_neg h]
      simp only [reduceCtorEq, false_iff]
      exact fun hj => h (hj 0 (by omega))

/-- A measurement completes with k exactly when the line is at the level for k ticks and then not, with k at most the timeout
plus MEAS_SLACK. -/
theorem duration_some (s : State) (t : Nat) (l : Level) (k : Nat) :
    s.duration t l = some k ↔ k ≤ t + Config.measSlack ∧ (∀ j < k, s.line (s.now + j) = l) ∧ s.line (s.now + k) ≠ l := by
  unfold State.duration
  rw [runLength_some]
  unfold sampleLimit
  constructor <;> rintro ⟨h, h'⟩ <;> exact ⟨by omega, h'⟩

/-- A measurement times out exactly when its first `t + 1 + MEAS_SLACK` samples are at the level. -/
theorem duration_none (s : State) (t : Nat) (l : Level) :
    s.duration t l = none ↔ ∀ j < sampleLimit t, s.line (s.now + j) = l := runLength_none _ _ _ _

/-- The line, and so a duration, does not depend on the log. -/
@[simp] theorem State.serve_duration (s : State) (n t : Nat) (l : Level) : (s.serve n).duration t l = s.duration t l := by
  rw [State.serve_eq]; rfl

/-- The first reset of a span is a listed one and lies in the span. -/
theorem firstReset_mem {e : Inputs} {p r n : Nat} (h : e.firstReset p n = some r) : r ∈ e.resets ∧ p < r ∧ r ≤ p + n := by
  simpa using List.min?_mem h

/-- A span without a reset. -/
theorem firstReset_none {e : Inputs} {p n : Nat} : e.firstReset p n = none ↔ ∀ r ∈ e.resets, p < r → p + n < r := by
  unfold Inputs.firstReset
  rw [List.min?_eq_none_iff, List.filter_eq_nil_iff]
  simp

/-- The span of one tick: no reset. -/
theorem firstReset_one_none (e : Inputs) (p : Nat) : e.firstReset p 1 = none ↔ e.rstAt (p + 1) = false := by
  rw [firstReset_none]
  simp only [Inputs.rstAt, List.contains_eq_mem, decide_eq_false_iff_not]
  constructor
  · intro h hm
    exact Nat.lt_irrefl _ (h _ hm (Nat.lt_succ_self p))
  · intro h r hr h₁
    rcases Nat.lt_or_eq_of_le (Nat.succ_le_of_lt h₁) with h₂ | h₂
    · exact h₂
    · subst h₂; exact absurd hr h

/-- The span of one tick: a reset. -/
theorem firstReset_one_some (e : Inputs) (p : Nat) (h : e.rstAt (p + 1) = true) : e.firstReset p 1 = some (p + 1) := by
  cases hf : e.firstReset p 1 with
  | none => rw [firstReset_one_none, h] at hf; cases hf
  | some r => obtain ⟨-, h₁, h₂⟩ := firstReset_mem hf; rw [Nat.le_antisymm h₂ h₁]

theorem mapNext_next {f : State → State} {r : Result} {t : State} (h : mapNext f r = .next t) :
    ∃ u, r = .next u ∧ t = f u := by
  cases r with
  | next u => exact ⟨u, rfl, by simpa [mapNext] using h.symm⟩
  | fault e => simp [mapNext] at h
  | refused e => simp [mapNext] at h

/-- A host command answered while RUN = 1 does to the log what `exec` of it does at its tick. -/
theorem answer_eq_exec (s : State) (c : BitVec 2) (h : s.run = 1) : .next (s.answer (s.now, c)) = exec (decodeHost c) s := by
  have hc : c = 0 ∨ c = 1 ∨ c = 2 ∨ c = 3 := by revert c; decide
  rcases hc with rfl | rfl | rfl | rfl
  · rfl
  · show Host.Outcome.next s = execRead s
    simp [execRead, h]
  · rfl
  · rfl

end Sys2Proof.Machine
end

