-- ==== Sys2Proof/Laws/Exec.lean ====
section
/-! SUPPORT. What `exec` and the two halves of `step` can do, said once: an inversion lemma for each. -/

namespace Sys2Proof.Machine

variable {s t : State}

/-- READ: accepted or ignored. -/
theorem execRead_cases (h : execRead s = .next t) :
    (s.run = 0 ∧ t = { s with run := 1, pc := 0 }) ∨ (s.run ≠ 0 ∧ t = s) := by
  unfold execRead at h
  by_cases hr : s.run = 0
  · rw [if_pos hr] at h
    exact .inl ⟨hr, by simpa using h.symm⟩
  · rw [if_neg hr] at h
    exact .inr ⟨hr, by simpa using h.symm⟩

/-- MEAS: a completed duration, or Timeout. -/
theorem execMeas_cases {n : Nat} {l : Level} (h : execMeas n l s = .next t) :
    (∃ k, s.duration n l = some k ∧ t = s.measured k) ∨ (s.duration n l = none ∧ t = s.measTimeout n) := by
  unfold execMeas at h
  cases hd : s.duration n l with
  | some k => rw [hd] at h; exact .inl ⟨k, rfl, by simpa using h.symm⟩
  | none => rw [hd] at h; exact .inr ⟨rfl, by simpa using h.symm⟩

/-- PACK: the bit is 0 and nothing is written, or it is 1 and set at an index below 40. -/
theorem execPack_cases {n : Nat} (h : execPack n s = .next t) :
    (s.bitValue n = false ∧ t = s.nextPc) ∨
    (s.bitValue n = true ∧ s.idx.toNat < Config.nBits ∧ t = { s with frame := s.frame.setBit s.idx, pc := s.pc + 1 }) := by
  unfold execPack at h
  cases hb : s.bitValue n with
  | false => simp [hb] at h; exact .inl ⟨rfl, h.symm⟩
  | true =>
    by_cases hi : s.idx.toNat < Config.nBits
    · simp [hb, hi] at h; exact .inr ⟨rfl, hi, h.symm⟩
    · simp [hb, hi] at h

/-- VRFY: equal and on to the next word, or ChecksumMismatch. -/
theorem execVrfy_cases (h : execVrfy s = .next t) :
    (s.checksumEqual = true ∧ t = { s with sum := s.checksum, pc := s.pc + 1 }) ∨
    (s.checksumEqual = false ∧ t = { s with sum := s.checksum }.raise .checksumMismatch) := by
  unfold execVrfy at h
  cases hc : s.checksumEqual with
  | true => simp [hc] at h; exact .inl ⟨rfl, h.symm⟩
  | false => simp [hc] at h; exact .inr ⟨rfl, h.symm⟩

/-- `exec` stops only where PACK would present an index of 40 or more. -/
theorem exec_stops (i : Instr) (s : State) :
    (∃ t, exec i s = .next t) ∨
    (∃ n, i = .pack n ∧ s.bitValue n = true ∧ Config.nBits ≤ s.idx.toNat ∧ exec i s = .refused .frameIndex) := by
  cases i with
  | pack n =>
    show (∃ t, execPack n s = _) ∨ _
    unfold exec execPack
    cases hb : s.bitValue n with
    | false => exact .inl ⟨s.nextPc, by simp⟩
    | true =>
      by_cases hi : s.idx.toNat < Config.nBits
      · exact .inl ⟨_, by simp only [hi, if_true]; rfl⟩
      · exact .inr ⟨n, rfl, hb, by omega, by simp [hb, hi]⟩
  | _ => exact .inl ⟨_, rfl⟩

/-- One micro-operation: a reset at tick r, or `exec` of the decoded word. -/
theorem microStep_cases (h : microStep s = .next t) :
    ∃ i, decodeWord s.fetch = .ok i ∧
      ((∃ r, s.inputs.firstReset s.now (s.ticksOf i) = some r ∧ t = (s.serve (r - 1 - s.now)).resetAt r) ∨
       (s.inputs.firstReset s.now (s.ticksOf i) = none ∧
        ∃ u, exec i (s.serve (s.ticksOf i)) = .next u ∧ t = u.afterOp)) := by
  unfold microStep at h
  cases hd : decodeWord s.fetch with
  | error e => simp [hd] at h
  | ok i =>
    refine ⟨i, rfl, ?_⟩
    simp only [hd] at h
    cases hr : s.inputs.firstReset s.now (s.ticksOf i) with
    | some r => rw [hr] at h; exact .inl ⟨r, rfl, by simpa using h.symm⟩
    | none => rw [hr] at h; exact .inr ⟨rfl, mapNext_next h⟩

/-- One idle tick: a reset, or `exec` of its host command. -/
theorem hostStep_cases (h : hostStep s = .next t) :
    (s.inputs.rstAt s.now = true ∧ t = s.resetAt s.now) ∨
    (s.inputs.rstAt s.now = false ∧
      ∃ u, exec (decodeHost (s.inputs.hcmdAt s.now)) s = .next u ∧ t = u.afterIdle) := by
  unfold hostStep at h
  cases hr : s.inputs.rstAt s.now with
  | true => simp [hr] at h; exact .inl ⟨rfl, h.symm⟩
  | false => simp only [hr] at h; exact .inr ⟨rfl, mapNext_next h⟩

/-- The four host commands, by what they do to the state. -/
theorem exec_host_cases {c : BitVec 2} (h : exec (decodeHost c) s = .next t) :
    t = s ∨ (c = 1 ∧ s.run = 0 ∧ t = { s with run := 1, pc := 0 }) ∨ (c = 2 ∧ t = s.emit (.hresp s.now s.humResponse)) ∨
      (c = 3 ∧ t = s.emit (.hresp s.now s.tempResponse)) := by
  have hc : ∀ c : BitVec 2, c = 0 ∨ c = 1 ∨ c = 2 ∨ c = 3 := by decide
  rcases hc c with rfl | rfl | rfl | rfl
  · exact .inl (Host.Outcome.next.inj (show Host.Outcome.next s = Host.Outcome.next t from h)).symm
  · rcases execRead_cases h with ⟨hr, ht⟩ | ⟨-, ht⟩
    · exact .inr (.inl ⟨rfl, hr, ht⟩)
    · exact .inl ht
  · refine .inr (.inr (.inl ⟨rfl, ?_⟩))
    exact (Host.Outcome.next.inj (show Host.Outcome.next (s.emit (.hresp s.now s.humResponse)) = Host.Outcome.next t from h)).symm
  · refine .inr (.inr (.inr ⟨rfl, ?_⟩))
    exact (Host.Outcome.next.inj (show Host.Outcome.next (s.emit (.hresp s.now s.tempResponse)) = Host.Outcome.next t from h)).symm

/-- An idle tick whose READ is accepted. -/
theorem step_accepts (h₀ : s.run = 0) (h₁ : s.inputs.hcmdAt s.now = 1) (h₂ : s.inputs.rstAt s.now = false) :
    step s = .next ({ s with run := 1, pc := 0 } : State).afterIdle := by
  have hd : decodeHost (s.inputs.hcmdAt s.now) = .read := by rw [h₁]; rfl
  have he : exec .read s = .next { s with run := 1, pc := 0 } := by
    show execRead s = _
    simp [execRead, h₀]
  unfold step hostStep
  rw [if_neg (by simp [h₀]), hd, he, h₂]
  rfl

end Sys2Proof.Machine
end

