-- ==== Sys2Proof/Laws/PerInstr.lean ====
section
/-! SUPPORT. The family EncodingFitsItsRow: a well-formed micro-operation's word is covered by the row of R91 that bears its
mnemonic, and a host command has a code of format H. -/

namespace Sys2Proof.Laws.EncodingFitsItsRow

/-- The encoding of the operation is of its own format, and fits its own row. -/
def Statement (i : Instr) : Prop :=
  i.wellFormed = true →
    match encode i with
    | .host _ => i.isHost = true
    | .micro w => i.isHost = false ∧ ∃ r ∈ opcodeRows, r.mnemonic = i.mnemonic ∧ r.covers w = true

theorem noCall : Statement .noCall := fun _ => rfl

theorem read : Statement .read := fun _ => rfl

theorem hum : Statement .hum := fun _ => rfl

theorem temp : Statement .temp := fun _ => rfl

theorem clrf : Statement .clrf := fun _ => ⟨rfl, ⟨"CLRF", 0x1000, 0xFFFF⟩, by decide, rfl, by decide⟩

theorem dir (d : BitVec 1) : Statement (.dir d) := fun _ =>
  ⟨rfl, ⟨"DIR", 0x2000, 0xFFFE⟩, by decide, rfl, by revert d; decide⟩

theorem lvl (l : Level) : Statement (.lvl l) := fun _ =>
  ⟨rfl, ⟨"LVL", 0x3000, 0xFFFE⟩, by decide, rfl, by revert l; decide⟩

/-- A high part that fills the mask's ones, over a low part of any value. -/
theorem append_covered {k m : Nat} (hi msk : BitVec k) (lo : BitVec m) (h : hi &&& msk = hi) :
    (hi ++ lo) &&& (msk ++ 0#m) = hi ++ 0#m := by
  rw [BitVec.and_append, h, BitVec.and_zero]

theorem dly (n : Nat) : Statement (.dly n) := fun _ =>
  ⟨rfl, ⟨"DLY", 0x4000, 0xF000⟩, by decide, rfl, by
    have h := append_covered (0x4#4) (0xF#4) (BitVec.ofNat 12 n) (by decide)
    exact beq_iff_eq.2 h⟩

theorem meas (t : Nat) (l : Level) : Statement (.meas t l) := fun _ =>
  ⟨rfl, ⟨"MEAS", 0x5000, 0xF000⟩, by decide, rfl, by
    have hl : (0x5#4 ++ l) &&& (0xF#4 ++ 0#1) = 0x5#4 ++ 0#1 := append_covered (0x5#4) (0xF#4) l (by decide)
    have h : ((0x5#4 ++ l) ++ BitVec.ofNat 11 t) &&& ((0xF#4 ++ 0#1) ++ 0#11) = (0x5#4 ++ 0#1) ++ 0#11 := by
      rw [BitVec.and_append, hl, BitVec.and_zero]
    exact beq_iff_eq.2 h⟩

theorem pack (h : Nat) : Statement (.pack h) := fun _ =>
  ⟨rfl, ⟨"PACK", 0x6000, 0xFF80⟩, by decide, rfl, by
    have e := append_covered (0x6#4 ++ 0#5) (0x1FF#9) (BitVec.ofNat 7 h) (by decide)
    exact beq_iff_eq.2 e⟩

theorem loop (a : BitVec 4) (c : BitVec 6) : Statement (.loop a c) := fun _ =>
  ⟨rfl, ⟨"LOOP", 0x7000, 0xFC00⟩, by decide, rfl, by
    have h1 := append_covered (0x7#4 ++ 0#2) (0x3F#6) c (by decide)
    have h : (((0x7#4 ++ 0#2) ++ c) ++ a) &&& ((0x3F#6 ++ 0#6) ++ 0#4) = ((0x7#4 ++ 0#2) ++ 0#6) ++ 0#4 := by
      rw [BitVec.and_append, h1, BitVec.and_zero]
    exact beq_iff_eq.2 h⟩

theorem extr : Statement .extr := fun _ => ⟨rfl, ⟨"EXTR", 0x8000, 0xFFFF⟩, by decide, rfl, by decide⟩

theorem vrfy : Statement .vrfy := fun _ => ⟨rfl, ⟨"VRFY", 0x9000, 0xFFFF⟩, by decide, rfl, by decide⟩

theorem cmt : Statement .cmt := fun _ => ⟨rfl, ⟨"CMT", 0xA000, 0xFFFF⟩, by decide, rfl, by decide⟩

end Sys2Proof.Laws.EncodingFitsItsRow
end

