-- ==== Sys2Proof/Laws/Ports.lean ====
section
/-! SUPPORT. What a port shows at a tick, said once for each way a step can stand to it; and that the visit at which MEAS raises
writes nothing but what error entry writes. -/

namespace Sys2Proof.Machine

variable {α : Type} {p : State → α} {s t : State} {n : Nat} {τ : Tick}

/-- The step lets the tick pass. -/
theorem portAt_passing (h : step s = .next t) (h₁ : s.now ≤ τ) (h₂ : τ < t.now) :
    State.portAt p (n + 1) s τ = some (passingValue p s t τ) := by
  simp [State.portAt, h, Nat.not_lt.mpr h₁, h₂]

/-- The tick is after the step: a step that takes no tick shows nothing (R145). -/
theorem portAt_later (h : step s = .next t) (h₁ : s.now ≤ τ) (h₂ : t.now ≤ τ) :
    State.portAt p (n + 1) s τ = State.portAt p n t τ := by
  simp [State.portAt, h, Nat.not_lt.mpr h₁, Nat.not_lt.mpr h₂]

/-- No reset at the tick: the port shows what the state before the step holds. -/
theorem passingValue_noReset (h : s.inputs.rstAt τ = false) : passingValue p s t τ = p s := by
  simp [passingValue, h]

/-- A step that leaves what the port is connected to alone shows it at every tick it lets pass. -/
theorem passingValue_same (h : p t = p s) : passingValue p s t τ = p s := by
  unfold passingValue; split <;> simp [h]

/-- R196 in the per-tick form of MEAS: the visit that raises consumes its tick and writes OUTCOME, RUN and PC, and nothing else; CNT
keeps what the visits before it counted. -/
theorem measVisit_raising {k : Nat} {l : Level} (h₁ : s.line s.now = l) (h₂ : s.cnt.toNat = k + Config.measSlack) :
    measVisit k l s = .over { s with
      now := s.now + 1, outcome := 1, run := 0, pc := 0,
      log := .ret (s.now + 1) 1 :: .onError (s.now + 1) 1 :: s.log } := by
  simp [measVisit, h₁, h₂]; rfl

end Sys2Proof.Machine
end

