-- ==== Sys2Proof/Tests/Slice0.lean ====
section
/-! SUPPORT. The model's own tests: decoding (B-ENC), the WellFormed smoke test, one step of each operation (expected values from
95_test_vectors.md part B, by the number cited), and a witness for the hypotheses of each statement. -/

namespace Sys2Proof.Tests

open Sys2Proof Sys2Proof.Machine

/-! ### WellFormed -/

theorem test_wf_dly_boundary : (Instr.dly 4095).wellFormed = true ∧ (Instr.dly 4096).wellFormed = false := by decide

theorem test_wf_meas_boundary : (Instr.meas 2047 1).wellFormed = true ∧ (Instr.meas 2048 1).wellFormed = false := by decide

theorem test_wf_pack_boundary : (Instr.pack 127).wellFormed = true ∧ (Instr.pack 128).wellFormed = false := by decide

/-! ### Decoding: the words written bit by bit from R90 and opcode_table.json -/

theorem test_decode_host : decodeHost 0b00#2 = .noCall ∧ decodeHost 0b01#2 = .read ∧ decodeHost 0b10#2 = .hum ∧
    decodeHost 0b11#2 = .temp := by decide

theorem test_decode_clrf : decodeWord 0b0001000000000000#16 = .ok .clrf := by decide

theorem test_decode_dir : decodeWord 0b0010000000000001#16 = .ok (.dir 1) ∧ decodeWord 0b0010000000000000#16 = .ok (.dir 0) := by
  decide

theorem test_decode_lvl : decodeWord 0b0011000000000000#16 = .ok (.lvl 0) ∧ decodeWord 0b0011000000000001#16 = .ok (.lvl 1) := by
  decide

theorem test_decode_dly : decodeWord 0b0100101110111000#16 = .ok (.dly 3000) ∧ decodeWord 0x4FFF#16 = .ok (.dly 4095) := by decide

theorem test_decode_meas : decodeWord 0b0101100001001011#16 = .ok (.meas 75 1) ∧ decodeWord 0x5038#16 = .ok (.meas 56 0) := by
  decide

theorem test_decode_pack : decodeWord 0b0110000000101000#16 = .ok (.pack 40) := by decide

theorem test_decode_loop : decodeWord 0b0111001010001001#16 = .ok (.loop 9 40) ∧ decodeWord 0x73FF#16 = .ok (.loop 15 63) := by decide

theorem test_decode_extr_vrfy_cmt : decodeWord 0b1000000000000000#16 = .ok .extr ∧ decodeWord 0b1001000000000000#16 = .ok .vrfy ∧
    decodeWord 0b1010000000000000#16 = .ok .cmt := by decide

/-- B-ENC 23 and 24. -/
theorem test_decode_no_such_operation : [0x0000#16, 0xB000#16, 0xC123#16, 0xFFFF#16].map decodeWord =
    [.error .noSuchOperation, .error .noSuchOperation, .error .noSuchOperation, .error .noSuchOperation] := by decide

/-- B-ENC 25 to 29. -/
theorem test_decode_must_be_zero :
    ([0x1001#16, 0x2002#16, 0x3002#16, 0x6080#16, 0x7400#16, 0x8001#16, 0x9800#16, 0xA00F#16].map decodeWord).all
      (fun r => r == .error .mustBeZeroBit) = true := by decide

theorem test_decode_table_word : decodeTableWord 8 1 = some .read ∧ decodeTableWord 8 4 = none ∧
    decodeTableWord 16 0x5855 = some (.meas 85 1) ∧ decodeTableWord 16 0 = none := by decide

/-- R95, its two examples. -/
theorem test_assembler_text : assemblerText (.meas 85 0) = "MEAS 85, 0" ∧ assemblerText (.loop 9 40) = "LOOP 9, 40" := by
  decide

/-! ### One step of each operation -/

/-- The outcome is a next state with the property. -/
def holds (r : Result) (p : State → Bool) : Bool :=
  match r with
  | .next t => p t
  | .fault _ => false
  | .refused _ => false

/-- The reset state with a line from tick 100 on, at tick 100. -/
def lineFrom100 (runs : List (Level × Nat)) : State :=
  { State.reset with now := 100, inputs := { lineStart := 100, lineRuns := runs, hcmds := [], resets := [] } }

/-- The frame 02 8C 01 5F with the given fifth byte. -/
def frameA1 (b : Byte) : Memory := [(0, 0x02), (1, 0x8C), (2, 0x01), (3, 0x5F), (4, b)]

theorem frameA1_wf : (frameA1 0xEE).wf = true := by decide

/-- R120, corner case. -/
theorem test_read_accepted_then_ignored :
    holds (exec .read State.reset) (fun t => t.run == 1 && t.pc == 0 && holds (exec .read t) (fun u => u == t)) = true := by decide

/-- B-HOST 9. -/
theorem test_hum_response :
    holds (exec .hum { State.reset with hum := 652, now := 6998 }) (fun t => t.hresp 6998 == 0x028C && t.hresp 6997 == 0) = true := by
  decide

/-- B-HOST 12. -/
theorem test_temp_response :
    holds (exec .temp { State.reset with tneg := 1, tmag := 101, now := 9 }) (fun t => t.hresp 9 == 0x8065) = true := by decide

/-- B-PACK 1. -/
theorem test_clrf : holds (exec .clrf { State.reset with frame := frameA1 0xEE, idx := 40 })
    (fun t => t.frameBits == 0 && t.idx == 0 && t.frame == []) = true := by decide

/-- B-DRIVE 1 and 6. -/
theorem test_dir : holds (exec (.dir 1) State.reset) (fun t => t.drive == some 1) = true ∧
    holds (exec (.dir 0) { State.reset with dir := 1 }) (fun t => t.drive == none && t.lvl == 1) = true := by decide

/-- B-DRIVE 2 and 8. -/
theorem test_lvl : holds (exec (.lvl 0) { State.reset with dir := 1 }) (fun t => t.drive == some 0) = true ∧
    holds (exec (.lvl 0) State.reset) (fun t => t.drive == none && t.lvl == 0) = true := by decide

/-- B-DRIVE 3 and 7. -/
theorem test_dly : holds (exec (.dly 3000) { State.reset with now := 1 }) (fun t => t.now == 3001) = true ∧
    holds (exec (.dly 0) { State.reset with now := 50 }) (fun t => t.now == 50 && t.pc == 1) = true := by decide

/-- B-MEAS 3 and 4: a duration equal to the timeout completes, one more times out. -/
theorem test_meas_boundary :
    holds (exec (.meas 85 0) (lineFrom100 [(0, 85), (1, 5)])) (fun t => t.d == 85 && t.now == 185 && t.pc == 1) = true ∧
    holds (exec (.meas 85 0) (lineFrom100 [(0, 86), (1, 5)]))
      (fun t => t.d == 0 && t.cnt == 0 && t.now == 186 && t.outcome == 1 && t.errKind 186 == 1 && t.doneCode 186 == 1) = true := by decide

/-- B-MEAS 15 and 2: a glitch ends a measurement; the other level gives 0. -/
theorem test_meas_glitch_and_zero :
    holds (exec (.meas 75 1) (lineFrom100 [(1, 10), (0, 1), (1, 60), (0, 3)])) (fun t => t.d == 10 && t.now == 110) = true ∧
    holds (exec (.meas 85 0) (lineFrom100 [(1, 5)])) (fun t => t.d == 0 && t.now == 100) = true := by decide

/-- B-PACK 9 and 12. -/
theorem test_pack_sets :
    holds (exec (.pack 40) { State.reset with idx := 16, d := 75 }) (fun t => t.frameBits == 0x0000800000#40) = true ∧
    holds (exec (.pack 40) { State.reset with idx := 39, d := 70 }) (fun t => t.frameBits == 0x0000000001#40) = true := by decide

/-- B-PACK 7 and 15. -/
theorem test_pack_threshold_and_or :
    holds (exec (.pack 40) { State.reset with idx := 8, d := 40, frame := [(0, 2)] }) (fun t => t.frame == [(0, 2)]) = true ∧
    holds (exec (.pack 40) { State.reset with idx := 12, d := 70, frame := [(0, 0x02), (1, 0x80)] })
      (fun t => t.frame == [(0, 0x02), (1, 0x88)]) = true := by decide

/-- B-LOOP 2, 3 and 5. -/
theorem test_loop :
    holds (exec (.loop 9 40) { State.reset with idx := 38, pc := 12 }) (fun t => t.idx == 39 && t.pc == 9) = true ∧
    holds (exec (.loop 9 40) { State.reset with idx := 39, pc := 12 }) (fun t => t.idx == 40 && t.pc == 13) = true ∧
    holds (exec (.loop 9 40) { State.reset with idx := 63, pc := 12 }) (fun t => t.idx == 0 && t.pc == 9) = true := by decide

/-- B-EXTR 1 and 9. -/
theorem test_extr :
    holds (exec .extr { State.reset with frame := frameA1 0xEE }) (fun t => t.th == 652 && t.tn == 0 && t.tm == 351) = true ∧
    holds (exec .extr { State.reset with frame := [(0, 0x12), (1, 0x34), (2, 0xD6), (3, 0x78)] })
      (fun t => t.th == 4660 && t.tn == 1 && t.tm == 22136) = true := by decide

/-- B-VRFY 4 and 6: carries are dropped. -/
theorem test_vrfy_passes :
    holds (exec .vrfy { State.reset with pc := 14, frame := [(0, 0xFF), (1, 0xFF), (2, 0xFF), (3, 0xFF), (4, 0xFC)] })
      (fun t => t.sum == 0xFC && t.pc == 15 && t.log == []) = true ∧
    holds (exec .vrfy { State.reset with pc := 14, frame := [(0, 0x80), (1, 0x80)] }) (fun t => t.sum == 0 && t.pc == 15) = true := by
  decide

/-- B-CMT 5: the sum is in S, the outcome is 2, both events are at the tick. -/
theorem test_vrfy_mismatch :
    holds (exec .vrfy { State.reset with pc := 14, run := 1, now := 7040, hum := 652, frame := frameA1 0xEF })
      (fun t => t.sum == 0xEE && t.outcome == 2 && t.run == 0 && t.pc == 0 && t.hum == 652 &&
        t.log == [.ret 7040 2, .onError 7040 2]) = true := by decide

/-- B-CMT 2. -/
theorem test_cmt :
    holds (exec .cmt { State.reset with tn := 1, tm := 101, hum := 652, tmag := 351, outcome := 2, run := 1, now := 6696 })
      (fun t => t.hum == 0 && t.tneg == 1 && t.tmag == 101 && t.outcome == 0 && t.run == 0 && t.log == [.ret 6696 0]) = true := by
  decide

/-- R87: NONE. -/
theorem test_none : holds (exec .noCall { State.reset with hum := 7 }) (fun t => t == { State.reset with hum := 7 }) = true := by
  decide

/-! ### The step -/

/-- B-HOST 3: READ at tick 0 makes word 0 execute at tick 1. -/
theorem test_step_read : holds (step (State.reset.withFetchWord 8 1)) (fun t => t.run == 1 && t.pc == 0 && t.now == 1) = true := by
  decide

/-- B-HOST 4 and 5: READ and HUM during the wake pulse. -/
theorem test_step_answers_during_delay :
    holds (step { State.reset with
      run := 1, pc := 3, now := 1,
      inputs := { lineStart := 0, lineRuns := [], hcmds := [(2, 1), (100, 2)], resets := [] } })
      (fun t => t.now == 3001 && t.pc == 4 && t.run == 1 && t.log == [.hresp 100 0]) = true := by decide

/-- B-RESET 3: a reset in the wake pulse. -/
theorem test_step_reset_in_wake_pulse :
    holds (step { State.reset with
      run := 1, pc := 3, now := 1, dir := 1, lvl := 0,
      inputs := { lineStart := 0, lineRuns := [], hcmds := [], resets := [1500] } })
      (fun t => t.now == 1501 && t.run == 0 && t.drive == none && t.lvl == 1 && t.log == []) = true := by decide

/-- B-HOST 7: the READ of the tick of CMT is ignored, and the next tick is idle. -/
theorem test_step_cmt_tick :
    holds (step { State.reset with
      run := 1, pc := 15, now := 6997,
      inputs := { lineStart := 0, lineRuns := [], hcmds := [(6997, 1)], resets := [] } })
      (fun t => t.now == 6998 && t.run == 0 && t.doneCode 6997 == 0 && t.done 6997) = true := by decide

/-- B-DRIVE 1 to 6 and the text after them: at tick 1 the pin drives 0, and the old level is on it at no tick. -/
theorem test_drive_by_tick :
    let s := { State.reset with inputs := { lineStart := 3026, lineRuns := [(0, 5), (1, 1)], hcmds := [(0, 1)], resets := [] } }
    [0, 1, 3000, 3001, 3025, 3026, 3030].map (s.driveAt 9) =
      [some none, some (some 0), some (some 0), some (some 1), some (some 1), some none, some none] ∧
    [0, 1, 3000, 3001, 3025, 3026].map (s.lineOeAt 9) = [some 0, some 1, some 1, some 1, some 1, some 0] ∧
    [0, 1, 3000, 3001, 3025, 3026].map (s.lineOAt 9) = [some 1, some 0, some 0, some 1, some 1, some 1] := by decide

/-- B-RESET 3: from the tick of the reset the pin is an input. -/
theorem test_drive_at_reset :
    let s := { State.reset with
      run := 1, pc := 3, now := 1, dir := 1, lvl := 0,
      inputs := { lineStart := 0, lineRuns := [], hcmds := [], resets := [1500] } }
    [1, 1499, 1500, 1501].map (s.driveAt 2) = [some (some 0), some (some 0), some none, some none] ∧
    [1499, 1500].map (s.busyAt 2) = [some 1, some 0] := by decide

/-- R93: a word that spells no instruction is refused. -/
theorem test_step_invalid_word :
    (match step { State.reset with run := 1, rom := microprogram.set 0 0#16 } with
      | .next _ => false
      | .fault _ => false
      | .refused e => e == .invalidWord .noSuchOperation) = true := by decide

/-! ### Witnesses: the hypotheses of each statement, met together -/

/-- A state with the microprogram's registers after reset meets the invariant. -/
theorem reset_inv : State.reset.Inv :=
  ⟨rfl, rfl, fun _ => rfl, by decide, by decide, rfl, rfl, by decide, by decide⟩

/-- A running state that meets the invariant. -/
def running : State := { State.reset with run := 1 }

theorem running_inv : running.Inv := ⟨rfl, rfl, fun _ => rfl, by decide, by decide, rfl, rfl, by decide, by decide⟩

/-- An idle state whose next command is READ, with the given line from its first sample on. -/
def aboutToRead (runs : List (Level × Nat)) : State :=
  { State.reset with inputs := { lineStart := 3026, lineRuns := runs, hcmds := [(0, 1)], resets := [] } }

theorem witness_HostCodesAndNone : ∀ e ∈ State.reset.log, e.responseAt State.reset.now = none := by decide

theorem witness_Read_idle : State.reset.run = 0 ∧ running.run = 1 := by decide

/-- The READ of tick 0 and the HUM of tick 1, with a reading. -/
def readThenHum : State :=
  { State.reset with hum := 652, inputs := { lineStart := 0, lineRuns := [], hcmds := [(0, 1), (1, 2)], resets := [] } }

theorem witness_Read_step : readThenHum.run = 0 ∧ readThenHum.inputs.hcmdAt readThenHum.now = 1 ∧
    readThenHum.inputs.rstAt readThenHum.now = false ∧ readThenHum.inputs.rstAt (readThenHum.now + 1) = false ∧
    readThenHum.inputs.hcmds.Pairwise (fun c c' => c.1 < c'.1) ∧
    ∃ t, step readThenHum = .next t ∧ t.log = [.hresp 1 652] :=
  ⟨rfl, rfl, rfl, rfl, by decide, _, rfl, rfl⟩

theorem witness_Dly : 4095 < 4096 ∧ 0 < 4096 := by decide

/-- Run length equal to the timeout. -/
theorem witness_Meas_completes : let s := lineFrom100 [(0, 3), (1, 1)]
    3 < 2048 ∧ 3 ≤ 3 + Config.measSlack ∧ (∀ j < 3, s.line (s.now + j) = 0) ∧ s.line (s.now + 3) ≠ 0 := by decide

/-- One sample more than the timeout. -/
theorem witness_Meas_times_out : let s := lineFrom100 [(0, 4), (1, 1)]
    3 < 2048 ∧ ∀ j < 3 + 1 + Config.measSlack, s.line (s.now + j) = 0 := by decide

theorem witness_MeasOther : (lineFrom100 [(1, 1)]).line (lineFrom100 [(1, 1)]).now ≠ 0 := by decide

/-- A chain of three, the first of duration 0. -/
theorem witness_Chain : let s := { lineFrom100 [(0, 0), (1, 1), (0, 2), (1, 1)] with run := 1 }
    s.run = 1 ∧ [0, 1, 2] ≠ [] ∧ List.Forall₂ (fun a t => a ≤ t ∧ t < 2048) [0, 1, 2] [0, 1, 2] ∧
    (∀ a ∈ [0, 1, 2].tail, 1 ≤ a) ∧ s.follows s.now (alternating [0, 1, 2] 0) ∧
    s.line (s.now + [0, 1, 2].sum) ≠ (if [0, 1, 2].length % 2 = 1 then 0 else 1 - 0) := by
  refine ⟨rfl, by decide, by decide, by decide, ?_, by decide⟩
  unfold State.follows
  decide

theorem witness_Chain_next : ∃ t u, exec (.meas 1 0) { lineFrom100 [(0, 1), (1, 1), (0, 1)] with run := 1 } = .next t ∧ t.run = 1 ∧
    exec (.meas 1 (1 - 0)) t = .next u ∧ u.run = 1 := ⟨_, _, rfl, rfl, rfl, rfl⟩

theorem witness_MeasPerTick : 2047 < 2048 := by decide

theorem witness_Pack_zero : let s := { State.reset with d := 127 }
    127 < 128 ∧ s.d.toNat ≤ 127 := by decide

theorem witness_Pack_one : let s := { State.reset with d := 41, idx := 39 }
    40 < 128 ∧ 40 < s.d.toNat ∧ s.idx.toNat < 40 := by decide

theorem witness_Index_stops : let s := { State.reset with d := 41, idx := 40 }
    40 ≤ s.idx.toNat ∧ 40 < s.d.toNat := by decide

theorem witness_Index_only : ∀ t, exec (.pack 40) { State.reset with d := 41, idx := 63 } ≠ .next t := by
  intro t h
  have hb : execPack 40 { State.reset with d := 41, idx := 63 } = .refused .frameIndex := rfl
  rw [show exec (.pack 40) { State.reset with d := 41, idx := 63 } = _ from hb] at h
  cases h

/-- Timeout. -/
theorem witness_ErrorEntry_timeout : ∃ t, exec (.meas 3 0) (lineFrom100 [(0, 4)]) = .next t ∧
    errorCount (lineFrom100 [(0, 4)]).log < errorCount t.log := ⟨_, rfl, by decide⟩

/-- The premises on the samples and on the sum. -/
theorem witness_ErrorEntry_three : let s := lineFrom100 [(0, 4)]; let u := { State.reset with frame := frameA1 0xEF }
    (∀ j < 3 + 1 + Config.measSlack, s.line (s.now + j) = 0) ∧
    ((u.byte 0).toNat + (u.byte 1).toNat + (u.byte 2).toNat + (u.byte 3).toNat) % 256 ≠ (u.byte 4).toNat := by decide

/-- ChecksumMismatch. -/
theorem witness_ErrorEntry_mismatch : ∃ t, exec .vrfy { State.reset with frame := frameA1 0xEF } = .next t ∧
    errorCount State.reset.log < errorCount t.log := ⟨_, rfl, by decide⟩

/-- For the statements about every `exec i s = next t`: a zero-time, a waiting and a measuring operation. -/
theorem witness_exec_next : (∃ t, exec (.loop 9 40) State.reset = .next t) ∧ (∃ t, exec (.dly 4095) State.reset = .next t) ∧
    (∃ t, exec (.meas 3 0) (lineFrom100 [(0, 3), (1, 1)]) = .next t) ∧ (∃ t, exec .clrf State.reset = .next t) ∧
    (∃ t, exec (.pack 40) { State.reset with d := 40 } = .next t) :=
  ⟨⟨_, rfl⟩, ⟨_, rfl⟩, ⟨_, rfl⟩, ⟨_, rfl⟩, ⟨_, rfl⟩⟩

/-- Two states that differ outside the read set of PACK. -/
theorem witness_ReadSets : let s₁ := { State.reset with d := 41 }; let s₂ := { State.reset with d := 41, hum := 5 }
    (∃ t, exec (.pack 40) s₁ = .next t) ∧ (∃ t, exec (.pack 40) s₂ = .next t) ∧ s₁.now = s₂.now ∧ s₁.inputs = s₂.inputs ∧
    s₁.log = s₂.log ∧ ∀ r ∈ readSet s₁ (.pack 40), s₁.reg r = s₂.reg r :=
  ⟨⟨_, rfl⟩, ⟨_, rfl⟩, rfl, rfl, rfl, by decide⟩

theorem witness_Run_rises : ∃ t, step (aboutToRead []) = .next t ∧ (aboutToRead []).run = 0 ∧ t.run = 1 :=
  ⟨_, rfl, rfl, rfl⟩

/-- A state about to execute CMT with a new reading. -/
def committing : State := { State.reset with run := 1, pc := 15, th := 652 }

theorem witness_Cmt_step : committing.run = 1 ∧ decodeWord committing.fetch = .ok .cmt := by decide

theorem witness_Run_falls : ∃ t, step committing = .next t ∧ committing.run = 1 ∧ t.run = 0 := ⟨_, rfl, rfl, rfl⟩

theorem witness_OnlyCmt_commit : ∃ t, step committing = .next t ∧
    ¬ (t.hum = committing.hum ∧ t.tneg = committing.tneg ∧ t.tmag = committing.tmag) := ⟨_, rfl, by decide⟩

/-- An idle state with a reading, at a tick with a reset. -/
def resetting : State :=
  { State.reset with hum := 652, inputs := { lineStart := 0, lineRuns := [], hcmds := [], resets := [0] } }

theorem witness_OnlyCmt_reset : ∃ t, step resetting = .next t ∧
    ¬ (t.hum = resetting.hum ∧ t.tneg = resetting.tneg ∧ t.tmag = resetting.tmag) := ⟨_, rfl, by decide⟩

theorem witness_risingCommands : [(0, 1#2), (1, 2#2)].Pairwise (fun c c' : Tick × BitVec 2 => c.1 < c'.1) := by decide

theorem witness_EveryStepKeeps : ∃ t, running.Inv ∧ step running = .next t := ⟨_, running_inv, rfl⟩

theorem witness_NoStepIsRefused : State.reset.Inv ∧ running.Inv := ⟨reset_inv, running_inv⟩

theorem witness_StepRuns_micro : running.run = 1 ∧ decodeWord running.fetch = .ok .clrf ∧
    running.inputs.firstReset running.now (running.ticksOf .clrf) = none := by decide

theorem witness_StepRuns_host : (aboutToRead []).run = 0 ∧ decode (.host ((aboutToRead []).inputs.hcmdAt 0)) = .ok .read ∧
    (aboutToRead []).inputs.rstAt 0 = false := by decide

theorem witness_APlacedWord : decodeTableWord 16 0x4000 = some (.dly 0) ∧ (Instr.dly 0).isHost = false ∧
    decodeTableWord 8 2 = some .hum ∧ Instr.hum.isHost = true := by decide

/-- A running state in the wake pulse, with HUM and TEMP at the first and at the last of its ticks. -/
def waiting : State :=
  { State.reset with
      run := 1, pc := 3, now := 1, hum := 5, tmag := 6,
      inputs := { lineStart := 0, lineRuns := [], hcmds := [(2, 2), (3001, 3)], resets := [] } }

theorem witness_CommandsDuring : ∃ u, waiting.run = 1 ∧ decodeWord waiting.fetch = .ok (.dly 3000) ∧
    waiting.inputs.firstReset waiting.now (waiting.ticksOf (.dly 3000)) = none ∧ step waiting = .next u ∧
    Event.hresp 2 5 ∈ u.log ∧ Event.hresp 3001 6 ∈ u.log := ⟨_, rfl, rfl, rfl, rfl, by decide, by decide⟩

theorem witness_ResetDrops_idle : resetting.run = 0 ∧ resetting.inputs.rstAt resetting.now = true := by decide

/-- The reset stands at the tick at which word 0 would execute, and the HUM of that tick is not answered. -/
theorem witness_ResetDrops_accepting :
    let s := { readThenHum with inputs := { readThenHum.inputs with resets := [1] } }
    s.run = 0 ∧ s.inputs.hcmdAt s.now = 1 ∧ s.inputs.rstAt s.now = false ∧ s.inputs.rstAt (s.now + 1) = true ∧
    ∃ t, step s = .next t ∧ t.hum = 0 ∧ t.log = [] := ⟨rfl, rfl, rfl, rfl, _, rfl, rfl, rfl⟩

/-- The reset stands at the last tick of the delay. -/
theorem witness_ResetDrops_running :
    let s := { waiting with inputs := { lineStart := 0, lineRuns := [], hcmds := [], resets := [3001] } }
    s.run = 1 ∧ decodeWord s.fetch = .ok (.dly 3000) ∧ 3001 ∈ s.inputs.resets ∧ s.now < 3001 ∧
    3001 ≤ s.now + s.ticksOf (.dly 3000) ∧ ∀ r' ∈ s.inputs.resets, s.now < r' → 3001 ≤ r' := by decide

theorem witness_EveryReadEnds : running.Inv ∧ running.run = 1 ∧ ∀ r ∈ running.inputs.resets, r ≤ running.now :=
  ⟨running_inv, rfl, by decide⟩

theorem witness_Run_idle : let s := aboutToRead []
    s.run = 0 ∧ s.inputs.rstAt s.now = false ∧ s.inputs.rstAt (s.now + 1) = false := by decide

theorem witness_Run_running : ∃ t, committing.run = 1 ∧ decodeWord committing.fetch = .ok .cmt ∧
    committing.inputs.firstReset committing.now (committing.ticksOf .cmt) = none ∧ step committing = .next t ∧ t.run = 0 ∧
    t.inputs.rstAt t.now = false := ⟨_, rfl, rfl, rfl, rfl, rfl, rfl⟩

theorem witness_AboutToRead : (aboutToRead []).AboutToRead := ⟨rfl, rfl, rfl, by decide⟩

/-- The shortest transmission: a first acknowledgement of 0 ticks and 1 tick for all else. -/
theorem witness_Complete_ok : let low := fun _ => 1; let high := fun _ => 1
    let s := aboutToRead (transmission 0 1 low high ++ [(0, 1)])
    s.AboutToRead ∧ Accepted 0 1 low high ∧ s.follows (s.now + 3026) (transmission 0 1 low high) ∧
    s.line (s.now + 3026 + runsLength (transmission 0 1 low high)) = 0 ∧
    (∀ i < Config.nBits, (0#40).getLsbD (39 - i) = decide (Config.thBit < high i)) ∧
    (0#40).extractLsb' 32 8 + (0#40).extractLsb' 24 8 + (0#40).extractLsb' 16 8 + (0#40).extractLsb' 8 8 =
      (0#40).extractLsb' 0 8 := by
  refine ⟨⟨rfl, rfl, rfl, by decide⟩, ⟨by decide, by decide, by decide⟩, ?_, by decide +kernel, by decide, by decide⟩
  unfold State.follows
  decide +kernel

/-- The same with a 1 in the last bit, decided at the threshold: the checksum is wrong. -/
theorem witness_Complete_mismatch : let low := fun _ => 1; let high := fun i => if i = 39 then 41 else 1
    let s := aboutToRead (transmission 85 85 low high ++ [(0, 1)])
    s.AboutToRead ∧ Accepted 85 85 low high ∧ s.follows (s.now + 3026) (transmission 85 85 low high) ∧
    s.line (s.now + 3026 + runsLength (transmission 85 85 low high)) = 0 ∧
    (∀ i < Config.nBits, (1#40).getLsbD (39 - i) = decide (Config.thBit < high i)) ∧
    (1#40).extractLsb' 32 8 + (1#40).extractLsb' 24 8 + (1#40).extractLsb' 16 8 + (1#40).extractLsb' 8 8 ≠
      (1#40).extractLsb' 0 8 := by
  refine ⟨⟨rfl, rfl, rfl, by decide⟩, ⟨by decide, by decide, by decide⟩, ?_, by decide +kernel, by decide, by decide⟩
  unfold State.follows
  decide +kernel

/-- In the loop, at PACK, with one bit set and the rest unreached. -/
theorem witness_Unreached : let s := { State.reset with run := 1, pc := 11, idx := 1, d := 70, frame := [(0, 0x80)] }
    s.Inv ∧ s.UnreachedBitsZero ∧ ∃ t, step s = .next t :=
  ⟨⟨rfl, rfl, by decide, by decide, by decide, rfl, rfl, by decide, by decide⟩,
    fun _ => ⟨by decide, fun _ => by decide, by decide⟩, ⟨_, rfl⟩⟩

/-- B-VRFY 1 and 7: two orders of the same bytes. -/
theorem witness_Verdict : let s₁ := { State.reset with frame := frameA1 0xEE }
    let s₂ := { State.reset with frame := [(0, 0x8C), (1, 0x02), (2, 0x5F), (3, 0x01), (4, 0xEE)] }
    (∃ t, exec .vrfy s₁ = .next t) ∧ (∃ t, exec .vrfy s₂ = .next t) ∧
    [s₁.byte 0, s₁.byte 1, s₁.byte 2, s₁.byte 3].Perm [s₂.byte 0, s₂.byte 1, s₂.byte 2, s₂.byte 3] ∧ s₁.byte 4 = s₂.byte 4 :=
  ⟨⟨_, rfl⟩, ⟨_, rfl⟩, by decide, by decide⟩

/-- B-VRFY 1, two frames of one sum. -/
theorem witness_Verdict_sum : let s := { State.reset with frame := frameA1 0xEE }
    let s' := { State.reset with frame := [(0, 0xEE), (4, 0xEE)] }
    ((s.byte 0).toNat + (s.byte 1).toNat + (s.byte 2).toNat + (s.byte 3).toNat) % 256 =
      ((s'.byte 0).toNat + (s'.byte 1).toNat + (s'.byte 2).toNat + (s'.byte 3).toNat) % 256 ∧ s.byte 4 = s'.byte 4 := by decide

/-- B-VRFY 9: the top and the bottom bit of the frame. -/
theorem witness_SingleBit : let s₁ := { State.reset with frame := frameA1 0xEE }
    let s₂ := { State.reset with frame := frameA1 0xEF }
    let s₃ := { State.reset with frame := [(0, 0x82), (1, 0x8C), (2, 0x01), (3, 0x5F), (4, 0xEE)] }
    s₁.checksum = s₁.byte 4 ∧ s₂.frameBits = s₁.frameBits ^^^ (1#40 <<< 0) ∧ s₃.frameBits = s₁.frameBits ^^^ (1#40 <<< 39) := by
  decide

theorem witness_TwoBits : let s₁ := { State.reset with frame := [(1, 0x01), (4, 0x01)] }
    let s₂ := { State.reset with frame := [(0, 0x01), (4, 0x01)] }
    s₁.checksum = s₁.byte 4 ∧ (s₁.byte 0).getLsbD 0 = false ∧ (s₁.byte 1).getLsbD 0 = true ∧
    s₂.frameBits = s₁.frameBits ^^^ (1#40 <<< 32) ^^^ (1#40 <<< 24) := by decide

theorem witness_EveryMatching : { State.reset with frame := frameA1 0xEE }.checksum =
    { State.reset with frame := frameA1 0xEE }.byte 4 := by decide

theorem witness_MatchAndMask : (⟨"LOOP", 0x7000, 0xFC00⟩ : OpcodeRow) ∈ opcodeRows ∧
    (⟨"LOOP", 0x7000, 0xFC00⟩ : OpcodeRow).covers 0x73FF = true := by decide

theorem witness_InvalidWord : let s := { running with rom := microprogram.set 0 0x1001#16 }
    s.run = 1 ∧ decodeWord s.fetch = .error .mustBeZeroBit := by decide

theorem witness_Encode : (Instr.dly 4095).wellFormed = true ∧ (Instr.meas 2047 1).wellFormed = true ∧
    (Instr.pack 127).wellFormed = true ∧ decode (.micro 0x73FF) = .ok (.loop 15 63) := by decide

theorem witness_Readings : State.reset.tneg = 0 ∧ { State.reset with tneg := 1 }.tneg = 1 := by decide

end Sys2Proof.Tests
end

section
/-! Proofs of the statements of 00_scope.md (R8: the sample index and the frame number; R10: the ticks of an operation),
after the lemmas they rest on. -/

namespace Sys2Proof.Machine

/-! ### The frame number, bit by bit (R8, R63) -/

/-- Bit `7 − (i mod 8)` is the only one of the mask of sample index `i`. -/
theorem frameMask_getLsbD (i : BitVec 6) (b : Nat) : (frameMask i).getLsbD b = decide (b = 7 - i.toNat % 8) := by
  have hmask : ∀ r < 8, ∀ b < 8, (0x80#8 >>> r).getLsbD b = decide (b = 7 - r) := by decide
  by_cases hb : b < 8
  · exact hmask _ (Nat.mod_lt _ (by decide)) b hb
  · rw [BitVec.getLsbD_of_ge _ _ (by omega)]
    exact (decide_eq_false (by omega)).symm

/-- Sample index `j` is bit `7 − (j mod 8)` of byte `j div 8`. -/
theorem State.frameBits_getLsbD (s : State) {j : Nat} (hj : j < 40) :
    s.frameBits.getLsbD (39 - j) = (s.byte (j / 8)).getLsbD (7 - j % 8) := by
  unfold State.frameBits
  simp only [BitVec.getLsbD_append]
  obtain h | h | h | h | h : j / 8 = 0 ∨ j / 8 = 1 ∨ j / 8 = 2 ∨ j / 8 = 3 ∨ j / 8 = 4 := by omega
  · rw [h, if_neg (by omega), if_neg (by omega), if_neg (by omega), if_neg (by omega)]; congr 1; omega
  · rw [h, if_neg (by omega), if_neg (by omega), if_neg (by omega), if_pos (by omega)]; congr 1; omega
  · rw [h, if_neg (by omega), if_neg (by omega), if_pos (by omega)]; congr 1; omega
  · rw [h, if_neg (by omega), if_pos (by omega)]; congr 1; omega
  · rw [h, if_pos (by omega)]; congr 1; omega

/-- FrameSetBit in the byte and bit that hold sample index `j`: only index `j` itself sets it. -/
theorem Memory.setBit_getLsbD (m : Memory) (i : BitVec 6) (j : Nat) :
    ((m.setBit i).read (j / 8)).getLsbD (7 - j % 8) =
      ((m.read (j / 8)).getLsbD (7 - j % 8) || decide (j = i.toNat)) := by
  rw [Memory.read_setBit]
  by_cases ha : j / 8 = frameAddr i
  · have hbit : (7 - j % 8 = 7 - i.toNat % 8) ↔ j = i.toNat := by unfold frameAddr at ha; omega
    rw [if_pos ha, ← ha, BitVec.getLsbD_or, frameMask_getLsbD, decide_eq_decide.2 hbit]
  · have hne : j ≠ i.toNat := fun h => ha (h ▸ rfl)
    rw [if_neg ha, decide_eq_false hne, Bool.or_false]

/-- PACK of a 1 at an index of the frame. -/
theorem exec_pack_one {h : Nat} {s : State} (hi : s.idx.toNat < 40) (hd : h < s.d.toNat) :
    exec (.pack h) s = .next { s with frame := s.frame.setBit s.idx, pc := s.pc + 1 } := by
  show execPack h s = _
  simp [execPack, State.bitValue, Config.nBits, hi, hd]

/-- Settles O15: PACK of a 1 is FrameSetBit, which reaches the one bit of the frame number that IDX names. -/
theorem sampleIndexIsBitOfTheFrame : Obligations.SampleIndexIsBitOfTheFrame := by
  intro h s hi hd
  refine ⟨_, exec_pack_one hi hd, fun j hj => ?_⟩
  rw [State.frameBits_getLsbD _ hj, State.frameBits_getLsbD _ hj]
  exact Memory.setBit_getLsbD s.frame s.idx j

/-! ### The ticks an operation takes (R10, R112) -/

@[simp] theorem errorCount_cons_ret (p : Tick) (c : BitVec 2) (log : List Event) :
    errorCount (.ret p c :: log) = errorCount log := rfl

@[simp] theorem errorCount_cons_onError (p : Tick) (c : BitVec 2) (log : List Event) :
    errorCount (.onError p c :: log) = errorCount log + 1 :=
  List.countP_cons_of_pos rfl

@[simp] theorem errorCount_cons_hresp (p : Tick) (v : Word) (log : List Event) :
    errorCount (.hresp p v :: log) = errorCount log := rfl

variable {i : Instr} {s t : State}

/-- `exec` advances `now` by the ticks the step reckons with. -/
theorem exec_now (h : exec i s = .next t) : t.now = s.now + s.ticksOf i := by
  cases i with
  | read => rcases execRead_cases h with ⟨-, rfl⟩ | ⟨-, rfl⟩ <;> rfl
  | meas n l => rcases execMeas_cases h with ⟨k, hk, rfl⟩ | ⟨hk, rfl⟩ <;> simp [State.ticksOf, hk]
  | pack n => rcases execPack_cases h with ⟨-, rfl⟩ | ⟨-, -, rfl⟩ <;> rfl
  | vrfy => rcases execVrfy_cases h with ⟨-, rfl⟩ | ⟨-, rfl⟩ <;> rfl
  | _ => cases h; rfl

/-- Only DLY and MEAS are timed. -/
theorem State.ticksOf_of_untimed (s : State) (hd : ∀ n, i ≠ .dly n) (hm : ∀ n l, i ≠ .meas n l) : s.ticksOf i = 0 := by
  cases i with
  | dly n => exact absurd rfl (hd n)
  | meas n l => exact absurd rfl (hm n l)
  | _ => rfl

/-- A completed MEAS raises nothing and lasts at most its timeout; a well-formed one leaves its ticks in D. -/
theorem measured_ticks {n k : Nat} {l : Level} (h : s.duration n l = some k) :
    errorCount (s.measured k).log = errorCount s.log ∧ (s.measured k).now ≤ s.now + n + Config.measSlack ∧
      (n < 2048 → (s.measured k).now = s.now + (s.measured k).d.toNat) := by
  obtain ⟨hk, -, -⟩ := (duration_some s n l k).1 h
  rw [State.measured_now]
  refine ⟨rfl, ?_, fun hn => ?_⟩
  · rw [Nat.add_assoc]
    exact Nat.add_le_add_left hk _
  · have hfits : k < 2 ^ 11 := by unfold Config.measSlack at hk; omega
    rw [State.measured_d, BitVec.toNat_ofNat, Nat.mod_eq_of_lt hfits]

/-- A timed-out MEAS raises once, after its `t + 1 + MEAS_SLACK` samples. -/
theorem measTimeout_ticks (s : State) (n : Nat) :
    errorCount (s.measTimeout n).log = errorCount s.log + 1 ∧
      (s.measTimeout n).now = s.now + (n + 1 + Config.measSlack) :=
  ⟨by simp, rfl⟩

/-- Settles O23: the ticks are those of `exec_now`, and MEAS completes or times out. -/
theorem everyOperationTakesItsTicks : Obligations.EveryOperationTakesItsTicks := by
  intro i s t h
  refine ⟨?_, ?_, fun hd hm => ?_, exec_now h⟩
  · rintro n rfl
    exact exec_now h
  · rintro n l rfl
    rcases execMeas_cases h with ⟨k, hk, rfl⟩ | ⟨-, rfl⟩
    · exact .inl (measured_ticks hk)
    · obtain ⟨herr, hnow⟩ := measTimeout_ticks s n
      exact .inr ⟨by omega, hnow⟩
  · rw [exec_now h, s.ticksOf_of_untimed hd hm, Nat.add_zero]

end Sys2Proof.Machine
end

section
/-! Proofs of the statements of 10_state.md (R38: reset; R22: RUN; R39: what each operation reads and writes), after the lemmas
they rest on. -/

namespace Sys2Proof.Machine

variable {i : Instr} {s t s₁ s₂ t₁ t₂ : State} {r : Reg}

/-! ### What an operation writes (R39) -/

@[simp] theorem State.reg_emit (s : State) (e : Event) (r : Reg) : (s.emit e).reg r = s.reg r := by cases r <;> rfl

@[simp] theorem State.reg_pass (s : State) (n : Nat) (r : Reg) : (s.pass n).reg r = s.reg r := by cases r <;> rfl

theorem State.reg_nextPc (s : State) (hr : r ≠ .pc) : s.nextPc.reg r = s.reg r := by
  cases r with
  | pc => exact absurd rfl hr
  | _ => rfl

/-- Error entry writes OUTCOME, RUN and PC alone (R196). -/
theorem State.reg_raise (s : State) (o : Outcome) (hr : r ∉ [.outcome, .run, .pc]) : (s.raise o).reg r = s.reg r := by
  cases r with
  | outcome | run | pc => simp at hr
  | _ => rfl

theorem mem_indexedByte {a : Fin 5} : .f a ∈ s.indexedByte ↔ a.val = frameAddr s.idx := by
  unfold State.indexedByte
  split
  · simp [Fin.ext_iff]
  · simp only [List.not_mem_nil, false_iff]
    omega

/-- PACK of a 1 writes PC and the byte that IDX addresses. -/
theorem reg_pack_one (hr : r ∉ .pc :: s.indexedByte) :
    { s with frame := s.frame.setBit s.idx, pc := s.pc + 1 }.reg r = s.reg r := by
  rw [List.mem_cons, not_or] at hr
  obtain ⟨hpc, hbyte⟩ := hr
  cases r with
  | pc => exact absurd rfl hpc
  | f a =>
    have ha : a.val ≠ frameAddr s.idx := fun ha => hbyte (mem_indexedByte.2 ha)
    simp [State.reg, State.byte, Memory.read_setBit, ha]
  | _ => rfl

/-- A register outside the row's column "writes" keeps its value. -/
theorem exec_reg_of_notMem_writeSet (h : exec i s = .next t) (hr : r ∉ writeSet s i) : t.reg r = s.reg r := by
  cases i with
  | noCall => cases h; rfl
  | hum | temp => cases h; exact s.reg_emit _ r
  | read =>
    rcases execRead_cases h with ⟨-, rfl⟩ | ⟨-, rfl⟩
    · cases r with
      | run | pc => simp [writeSet] at hr
      | _ => rfl
    · rfl
  | clrf =>
    cases h
    cases r with
    | f a => fin_cases a <;> simp [writeSet] at hr
    | idx | pc => simp [writeSet] at hr
    | _ => rfl
  | meas n l =>
    rcases execMeas_cases h with ⟨k, -, rfl⟩ | ⟨-, rfl⟩
    · cases r with
      | d | cnt | pc => simp [writeSet] at hr
      | _ => rfl
    · rw [State.measTimeout, State.reg_raise _ _ (by simp_all [writeSet]), State.reg_pass]
  | pack n =>
    rcases execPack_cases h with ⟨-, rfl⟩ | ⟨-, -, rfl⟩
    · exact s.reg_nextPc (List.ne_of_not_mem_cons hr)
    · exact reg_pack_one hr
  | vrfy =>
    have hsum : { s with sum := s.checksum }.reg r = s.reg r := by
      cases r with
      | sum => simp [writeSet] at hr
      | _ => rfl
    rcases execVrfy_cases h with ⟨-, rfl⟩ | ⟨-, rfl⟩
    · exact (State.reg_nextPc { s with sum := s.checksum } (by simp_all [writeSet])).trans hsum
    · rw [State.reg_raise _ _ (by simp_all [writeSet]), hsum]
  | dir _ | lvl _ | dly _ | loop _ _ | extr | cmt =>
    cases h
    cases r <;> simp_all [writeSet, State.reg, State.byte]

/-- No operation writes the microprogram or what the environment presents. -/
theorem exec_rom_inputs (h : exec i s = .next t) : t.rom = s.rom ∧ t.inputs = s.inputs := by
  cases i with
  | read => rcases execRead_cases h with ⟨-, rfl⟩ | ⟨-, rfl⟩ <;> exact ⟨rfl, rfl⟩
  | meas n l => rcases execMeas_cases h with ⟨k, -, rfl⟩ | ⟨-, rfl⟩ <;> exact ⟨rfl, rfl⟩
  | pack n => rcases execPack_cases h with ⟨-, rfl⟩ | ⟨-, -, rfl⟩ <;> exact ⟨rfl, rfl⟩
  | vrfy => rcases execVrfy_cases h with ⟨-, rfl⟩ | ⟨-, rfl⟩ <;> exact ⟨rfl, rfl⟩
  | _ => cases h; exact ⟨rfl, rfl⟩

/-! ### What an operation reads (R39) -/

/-- FrameSetBit at one index gives equal bytes where the old bytes are equal. -/
theorem Memory.read_setBit_congr {m₁ m₂ : Memory} (i : BitVec 6) {a : Nat} (h : m₁.read a = m₂.read a) :
    (m₁.setBit i).read a = (m₂.setBit i).read a := by
  rw [Memory.read_setBit, Memory.read_setBit]
  split
  · next ha => rw [← ha, h]
  · exact h

/-- The sum is a function of F[0] … F[3] (R181). -/
theorem State.checksum_congr (hf₀ : s₁.byte 0 = s₂.byte 0) (hf₁ : s₁.byte 1 = s₂.byte 1) (hf₂ : s₁.byte 2 = s₂.byte 2)
    (hf₃ : s₁.byte 3 = s₂.byte 3) : s₁.checksum = s₂.checksum := by
  unfold State.checksum
  rw [hf₀, hf₁, hf₂, hf₃]

/-- Two runs of one operation put out the same events and leave each register of the write set with one value in both or
unchanged in both. -/
def SameEffect (i : Instr) (s₁ s₂ t₁ t₂ : State) : Prop :=
  t₁.log = t₂.log ∧ ∀ r ∈ writeSet s₁ i, t₁.reg r = t₂.reg r ∨ (t₁.reg r = s₁.reg r ∧ t₂.reg r = s₂.reg r)

section sameReads

variable (hnow : s₁.now = s₂.now) (hin : s₁.inputs = s₂.inputs) (hlog : s₁.log = s₂.log)

include hnow hin in
/-- A duration is a function of `now` and the line. -/
theorem State.duration_congr (n : Nat) (l : Level) : s₁.duration n l = s₂.duration n l := by
  have hline : s₁.line = s₂.line := by unfold State.line; rw [hin]
  unfold State.duration
  rw [hline, hnow]

include hnow hin in
theorem State.ticksOf_congr (i : Instr) : s₁.ticksOf i = s₂.ticksOf i := by
  cases i with
  | meas n l => simp only [State.ticksOf, State.duration_congr hnow hin]
  | _ => rfl

include hlog in
theorem read_sameEffect (hread : ∀ r ∈ readSet s₁ .read, s₁.reg r = s₂.reg r) (h₁ : execRead s₁ = .next t₁)
    (h₂ : execRead s₂ = .next t₂) : SameEffect .read s₁ s₂ t₁ t₂ := by
  have hrun : s₁.run = s₂.run := by simpa [readSet, State.reg, BitVec.toNat_inj] using hread
  rcases execRead_cases h₁ with ⟨hr, rfl⟩ | ⟨hr, rfl⟩ <;> rcases execRead_cases h₂ with ⟨hr', rfl⟩ | ⟨hr', rfl⟩
  · exact ⟨hlog, by simp [writeSet, State.reg]⟩
  · exact absurd (hrun ▸ hr) hr'
  · exact absurd (hrun ▸ hr') hr
  · exact ⟨hlog, fun r _ => .inr ⟨rfl, rfl⟩⟩

include hnow hin hlog in
theorem meas_sameEffect {n : Nat} {l : Level} (hread : ∀ r ∈ readSet s₁ (.meas n l), s₁.reg r = s₂.reg r)
    (h₁ : execMeas n l s₁ = .next t₁) (h₂ : execMeas n l s₂ = .next t₂) : SameEffect (.meas n l) s₁ s₂ t₁ t₂ := by
  have hpc : s₁.pc = s₂.pc := by simpa [readSet, State.reg, BitVec.toNat_inj] using hread
  have hdur := State.duration_congr hnow hin n l
  rcases execMeas_cases h₁ with ⟨k, hk, rfl⟩ | ⟨hk, rfl⟩ <;> rcases execMeas_cases h₂ with ⟨k', hk', rfl⟩ | ⟨hk', rfl⟩
  · obtain rfl : k = k' := Option.some.inj (hk.symm.trans (hdur.trans hk'))
    exact ⟨hlog, by simp [writeSet, State.reg, hpc]⟩
  · rw [hdur, hk'] at hk; cases hk
  · rw [hdur, hk'] at hk; cases hk
  · exact ⟨by simp [hlog, hnow], by simp [writeSet, State.reg]⟩

include hlog in
theorem pack_sameEffect {n : Nat} (hread : ∀ r ∈ readSet s₁ (.pack n), s₁.reg r = s₂.reg r)
    (h₁ : execPack n s₁ = .next t₁) (h₂ : execPack n s₂ = .next t₂) : SameEffect (.pack n) s₁ s₂ t₁ t₂ := by
  obtain ⟨hpc, hd, hidx, hbyte⟩ : s₁.pc = s₂.pc ∧ s₁.d = s₂.d ∧ s₁.idx = s₂.idx ∧
      ∀ r ∈ s₁.indexedByte, s₁.reg r = s₂.reg r := by
    simpa [readSet, State.reg, BitVec.toNat_inj] using hread
  have hbit : s₁.bitValue n = s₂.bitValue n := by unfold State.bitValue; rw [hd]
  rcases execPack_cases h₁ with ⟨hb, rfl⟩ | ⟨hb, -, rfl⟩ <;> rcases execPack_cases h₂ with ⟨hb', rfl⟩ | ⟨hb', -, rfl⟩
  · refine ⟨hlog, fun r _ => ?_⟩
    by_cases hr : r = .pc
    · subst hr; exact .inl (by simp [State.reg, hpc])
    · exact .inr ⟨s₁.reg_nextPc hr, s₂.reg_nextPc hr⟩
  · rw [hbit, hb'] at hb; cases hb
  · rw [hbit, hb'] at hb; cases hb
  · refine ⟨hlog, List.forall_mem_cons.2 ⟨.inl (by simp [State.reg, hpc]), fun r hr => .inl ?_⟩⟩
    cases r with
    | f a =>
      have hold : s₁.byte a = s₂.byte a := BitVec.eq_of_toNat_eq (hbyte _ hr)
      show BitVec.toNat ((s₁.frame.setBit s₁.idx).read a) = BitVec.toNat ((s₂.frame.setBit s₂.idx).read a)
      rw [hidx, Memory.read_setBit_congr s₂.idx hold]
    | _ => simp [State.indexedByte] at hr

include hnow hlog in
theorem vrfy_sameEffect (hread : ∀ r ∈ readSet s₁ .vrfy, s₁.reg r = s₂.reg r) (h₁ : execVrfy s₁ = .next t₁)
    (h₂ : execVrfy s₂ = .next t₂) : SameEffect .vrfy s₁ s₂ t₁ t₂ := by
  obtain ⟨hpc, hf₀, hf₁, hf₂, hf₃, hf₄⟩ : s₁.pc = s₂.pc ∧ s₁.byte 0 = s₂.byte 0 ∧ s₁.byte 1 = s₂.byte 1 ∧
      s₁.byte 2 = s₂.byte 2 ∧ s₁.byte 3 = s₂.byte 3 ∧ s₁.byte 4 = s₂.byte 4 := by
    simpa [readSet, State.reg, BitVec.toNat_inj] using hread
  have hsum := State.checksum_congr hf₀ hf₁ hf₂ hf₃
  have heq : s₁.checksumEqual = s₂.checksumEqual := by unfold State.checksumEqual; rw [hsum, hf₄]
  rcases execVrfy_cases h₁ with ⟨hc, rfl⟩ | ⟨hc, rfl⟩ <;> rcases execVrfy_cases h₂ with ⟨hc', rfl⟩ | ⟨hc', rfl⟩
  · exact ⟨hlog, by simp [writeSet, State.reg, hpc, hsum]⟩
  · rw [heq, hc'] at hc; cases hc
  · rw [heq, hc'] at hc; cases hc
  · exact ⟨by simp [hlog, hnow], by simp [writeSet, State.reg, hsum]⟩

include hnow hin hlog in
/-- What an operation puts out and writes is a function of what its row reads. -/
theorem exec_sameEffect (hread : ∀ r ∈ readSet s₁ i, s₁.reg r = s₂.reg r) (h₁ : exec i s₁ = .next t₁)
    (h₂ : exec i s₂ = .next t₂) : SameEffect i s₁ s₂ t₁ t₂ := by
  cases i with
  | read => exact read_sameEffect hlog hread h₁ h₂
  | meas n l => exact meas_sameEffect hnow hin hlog hread h₁ h₂
  | pack n => exact pack_sameEffect hlog hread h₁ h₂
  | vrfy => exact vrfy_sameEffect hnow hlog hread h₁ h₂
  | noCall =>
    cases h₁; cases h₂
    exact ⟨hlog, by simp [writeSet]⟩
  | hum =>
    cases h₁; cases h₂
    have hhum : s₁.hum = s₂.hum := by simpa [readSet, State.reg, BitVec.toNat_inj] using hread
    exact ⟨by simp [State.humResponse, hnow, hhum, hlog], by simp [writeSet]⟩
  | temp =>
    cases h₁; cases h₂
    obtain ⟨htneg, htmag⟩ : s₁.tneg = s₂.tneg ∧ s₁.tmag = s₂.tmag := by
      simpa [readSet, State.reg, BitVec.toNat_inj] using hread
    exact ⟨by simp [State.tempResponse, hnow, htneg, htmag, hlog], by simp [writeSet]⟩
  | clrf | dir _ | lvl _ | dly _ =>
    cases h₁; cases h₂
    have hpc : s₁.pc = s₂.pc := by simpa [readSet, State.reg, BitVec.toNat_inj] using hread
    exact ⟨hlog, by simp [writeSet, State.reg, State.byte, hpc]⟩
  | loop a c =>
    cases h₁; cases h₂
    obtain ⟨hpc, hidx⟩ : s₁.pc = s₂.pc ∧ s₁.idx = s₂.idx := by
      simpa [readSet, State.reg, BitVec.toNat_inj] using hread
    exact ⟨hlog, by simp [writeSet, State.reg, hpc, hidx]⟩
  | extr =>
    cases h₁; cases h₂
    obtain ⟨hpc, hf₀, hf₁, hf₂, hf₃⟩ : s₁.pc = s₂.pc ∧ s₁.byte 0 = s₂.byte 0 ∧ s₁.byte 1 = s₂.byte 1 ∧
        s₁.byte 2 = s₂.byte 2 ∧ s₁.byte 3 = s₂.byte 3 := by
      simpa [readSet, State.reg, BitVec.toNat_inj] using hread
    exact ⟨hlog, by
      simp [writeSet, State.reg, State.humField, State.signField, State.magField, hpc, hf₀, hf₁, hf₂, hf₃]⟩
  | cmt =>
    cases h₁; cases h₂
    obtain ⟨hth, htn, htm⟩ : s₁.th = s₂.th ∧ s₁.tn = s₂.tn ∧ s₁.tm = s₂.tm := by
      simpa [readSet, State.reg, BitVec.toNat_inj] using hread
    exact ⟨by simp [hnow, hlog], by simp [writeSet, State.reg, hth, htn, htm]⟩

end sameReads

/-- Settles O24: the writes operation by operation, and the reads by comparing two runs; `now` by `exec_now`. -/
theorem operationsKeepToTheirReadAndWriteSets : Obligations.OperationsKeepToTheirReadAndWriteSets := by
  refine ⟨fun i s t h => ⟨fun r => exec_reg_of_notMem_writeSet h, exec_rom_inputs h⟩, ?_⟩
  intro i s₁ s₂ t₁ t₂ h₁ h₂ hnow hin hlog hread
  obtain ⟨hlog', hwrite⟩ := exec_sameEffect hnow hin hlog hread h₁ h₂
  exact ⟨hlog', by rw [exec_now h₁, exec_now h₂, hnow, State.ticksOf_congr hnow hin], hwrite⟩

/-! ### RUN (R22) -/

theorem State.answer_errorCount (s : State) (c : Tick × BitVec 2) :
    errorCount (s.answer c).log = errorCount s.log := by
  unfold State.answer
  split <;> rfl

theorem foldl_answer_errorCount (cs : List (Tick × BitVec 2)) (s : State) :
    errorCount (cs.foldl State.answer s).log = errorCount s.log := by
  induction cs generalizing s with
  | nil => rfl
  | cons c cs ih => rw [List.foldl_cons, ih, State.answer_errorCount]

/-- What the host is answered during an operation is no error. -/
@[simp] theorem State.serve_errorCount (s : State) (n : Nat) : errorCount (s.serve n).log = errorCount s.log :=
  foldl_answer_errorCount _ s

/-- With no reset at the next tick, the end of an idle tick leaves RUN alone. -/
theorem State.afterIdle_run (h : s.inputs.rstAt (s.now + 1) = false) : s.afterIdle.run = s.run := by
  unfold State.afterIdle
  rw [(firstReset_one_none _ _).2 h]
  split <;> simp

/-- Every host command has a next state. -/
theorem exec_decodeHost_next (c : BitVec 2) (s : State) : ∃ t, exec (decodeHost c) s = .next t := by
  have hhost : ∀ c : BitVec 2, (decodeHost c).isHost = true := by decide
  rcases exec_stops (decodeHost c) s with h | ⟨n, hn, -⟩
  · exact h
  · have hpack := hhost c
    rw [hn] at hpack
    cases hpack

/-- A host command other than READ leaves RUN, `now` and the inputs alone. -/
theorem exec_decodeHost_of_ne_read {c : BitVec 2} (hc : c ≠ 1) (h : exec (decodeHost c) s = .next t) :
    t.run = s.run ∧ t.now = s.now ∧ t.inputs = s.inputs := by
  rcases exec_host_cases h with rfl | ⟨h1, -, -⟩ | ⟨-, rfl⟩ | ⟨-, rfl⟩
  · exact ⟨rfl, rfl, rfl⟩
  · exact absurd h1 hc
  · exact ⟨rfl, rfl, rfl⟩
  · exact ⟨rfl, rfl, rfl⟩

/-- An idle tick with no reset about it ends with RUN = 1 exactly if its command is READ. -/
theorem step_idle_run (hs : s.run = 0) (h₀ : s.inputs.rstAt s.now = false) (h₁ : s.inputs.rstAt (s.now + 1) = false) :
    ∃ t, step s = .next t ∧ (t.run = 1 ↔ s.inputs.hcmdAt s.now = 1) := by
  by_cases hc : s.inputs.hcmdAt s.now = 1
  · exact ⟨_, step_accepts hs hc h₀, iff_of_true (State.afterIdle_run h₁) hc⟩
  · obtain ⟨u, hu⟩ := exec_decodeHost_next (s.inputs.hcmdAt s.now) s
    obtain ⟨hrun, hnow, hin⟩ := exec_decodeHost_of_ne_read hc hu
    refine ⟨u.afterIdle, ?_, iff_of_false ?_ hc⟩
    · unfold step hostStep
      rw [if_neg (by simp [hs]), h₀, hu]
      rfl
    · rw [State.afterIdle_run (by rw [hnow, hin, h₁]), hrun, hs]
      decide

/-- While RUN = 1, `exec` clears RUN exactly when it commits or raises. -/
theorem exec_run (hs : s.run = 1) (h : exec i s = .next t) :
    t.run = 0 ↔ i = .cmt ∨ errorCount s.log < errorCount t.log := by
  cases i with
  | read =>
    rcases execRead_cases h with ⟨h₀, -⟩ | ⟨-, rfl⟩
    · rw [hs] at h₀; cases h₀
    · simp [hs]
  | meas n l => rcases execMeas_cases h with ⟨k, -, rfl⟩ | ⟨-, rfl⟩ <;> simp [hs]
  | pack n => rcases execPack_cases h with ⟨-, rfl⟩ | ⟨-, -, rfl⟩ <;> simp [hs]
  | vrfy => rcases execVrfy_cases h with ⟨-, rfl⟩ | ⟨-, rfl⟩ <;> simp [hs]
  | cmt => cases h; simp
  | _ => cases h; simp [hs]

/-- A running step with no reset in its ticks ends with RUN = 0 exactly if its operation commits or raises. -/
theorem step_running_run (hs : s.run = 1) (hi : decodeWord s.fetch = .ok i)
    (hr : s.inputs.firstReset s.now (s.ticksOf i) = none) (h : step s = .next t) :
    t.run = 0 ↔ i = .cmt ∨ errorCount s.log < errorCount t.log := by
  unfold step at h
  rw [if_pos hs] at h
  obtain ⟨j, hj, hstep⟩ := microStep_cases h
  obtain rfl : i = j := Except.ok.inj (hi.symm.trans hj)
  rcases hstep with ⟨r, hr', -⟩ | ⟨-, u, hu, rfl⟩
  · rw [hr] at hr'; cases hr'
  · simpa using exec_run (by simpa using hs) hu

/-- READ leaves RUN = 1, and RUN alone decides whether it is accepted (R120). -/
theorem exec_read_run (s : State) :
    ∃ t, exec .read s = .next t ∧ t.run = 1 ∧ (s.run = 0 → t = { s with run := 1, pc := 0 }) ∧ (s.run = 1 → t = s) := by
  refine ⟨_, rfl, ?_, fun h => if_pos h, fun h => if_neg (by simp [h])⟩
  split
  · rfl
  · next h => exact (BitVec.eq_zero_or_eq_one s.run).resolve_left h

/-- Settles O28: the idle step, the running step, and READ by itself. -/
theorem runIsOneFromReadToCompletion : Obligations.RunIsOneFromReadToCompletion :=
  ⟨fun _ => step_idle_run, fun _ _ _ => step_running_run, exec_read_run, fun _ => rfl⟩

/-! ### Reset (R20, R38) -/

/-- Settles O1: register by register. -/
theorem resetValues : Obligations.ResetValues :=
  ⟨fun r => by cases r <;> rfl, rfl⟩

end Sys2Proof.Machine
end

section
/-! Proofs of the statements of 30_encoding.md (R85: the frame; R87: format H; R91 and R93: format U; R97: pseudo-instructions),
after the lemmas they rest on. -/

namespace Sys2Proof.Machine

variable {r r' : OpcodeRow} {w : Word} {s : State}

/-! ### A frame whose checksum matches (R85) -/

/-- VRFY of a matching frame goes on to the next word. -/
theorem exec_vrfy_of_match (h : s.checksum = s.byte 4) :
    exec .vrfy s = .next { s with sum := s.checksum, pc := s.pc + 1 } := by
  show execVrfy s = _
  simp [execVrfy, State.checksumEqual, h]

/-- Bytes 0 and 1 are the humidity field (R83). -/
theorem State.humField_eq_extract (s : State) : s.humField = s.frameBits.extractLsb' 24 16 := by
  unfold State.humField State.frameBits
  rw [BitVec.extractLsb'_append_eq_of_le (by decide), BitVec.extractLsb'_append_eq_of_le (by decide),
    BitVec.extractLsb'_append_eq_of_le (by decide), BitVec.extractLsb'_eq_self]

/-- Sign flag and magnitude side by side are bytes 2 and 3 (R83). -/
theorem State.signField_append_magField (s : State) : s.signField ++ s.magField = s.byte 2 ++ s.byte 3 := by
  have hbyte : s.signField ++ (s.byte 2).extractLsb' 0 7 = s.byte 2 :=
    (BitVec.extractLsb'_append_extractLsb'_eq_extractLsb' (start₁ := 0) (len₁ := 7) rfl).trans BitVec.extractLsb'_eq_self
  conv_rhs => rw [← hbyte, BitVec.append_assoc, BitVec.cast_eq]
  rfl

theorem State.bytes_two_three_eq_extract (s : State) : s.byte 2 ++ s.byte 3 = s.frameBits.extractLsb' 8 16 := by
  unfold State.frameBits
  rw [BitVec.extractLsb'_append_eq_of_le (by decide), BitVec.append_assoc (x₂ := s.byte 2), BitVec.cast_eq,
    BitVec.extractLsb'_append_eq_right]

/-- Settles O49: VRFY compares the frame's own bytes, which EXTR leaves alone, and CMT commits what EXTR took from them. -/
theorem everyMatchingFrameIsCommitted : Obligations.EveryMatchingFrameIsCommitted := by
  intro s hmatch
  exact ⟨_, _, _, rfl, exec_vrfy_of_match hmatch, rfl, rfl, s.humField_eq_extract,
    s.signField_append_magField.trans s.bytes_two_three_eq_extract⟩

/-! ### The table of R91 -/

/-- OP is the high hexadecimal digit (R89). -/
theorem opField_toNat (w : Word) : (opField w).toNat = w.toNat / 4096 := by
  unfold opField
  rw [BitVec.extractLsb'_toNat, Nat.shiftRight_eq_div_pow]
  exact Nat.mod_eq_of_lt (by have := w.isLt; omega)

/-- Every mask covers OP, so a word that a row covers has the row's OP. -/
theorem opField_eq_of_covers (hr : r ∈ opcodeRows) (h : r.covers w = true) : opField w = opField r.pattern := by
  have hmask : ∀ r ∈ opcodeRows, opField r.mask = BitVec.allOnes 4 := by decide
  have hand : w &&& r.mask = r.pattern := beq_iff_eq.1 h
  rw [← hand]
  unfold opField at hmask ⊢
  rw [BitVec.extractLsb'_and, hmask r hr, BitVec.and_allOnes]

/-- OP differs in every row (R91). -/
theorem row_eq_of_opField (hr : r ∈ opcodeRows) (hr' : r' ∈ opcodeRows) (h : opField r.pattern = opField r'.pattern) :
    r = r' := by
  have hrows : ∀ r ∈ opcodeRows, ∀ r' ∈ opcodeRows, opField r.pattern = opField r'.pattern → r = r' := by decide
  exact hrows r hr r' hr' h

/-- The mnemonic differs in every row too. -/
theorem row_eq_of_mnemonic (hr : r ∈ opcodeRows) (hr' : r' ∈ opcodeRows) (h : r.mnemonic = r'.mnemonic) : r = r' := by
  have hrows : ∀ r ∈ opcodeRows, ∀ r' ∈ opcodeRows, r.mnemonic = r'.mnemonic → r = r' := by decide
  exact hrows r hr r' hr' h

/-- No word matches two rows. -/
theorem row_eq_of_covers (hr : r ∈ opcodeRows) (hr' : r' ∈ opcodeRows) (h : r.covers w = true) (h' : r'.covers w = true) :
    r = r' :=
  row_eq_of_opField hr hr' ((opField_eq_of_covers hr h).symm.trans (opField_eq_of_covers hr' h'))

/-- The pattern of a row is OP over zeros. -/
theorem pattern_getLsbD_of_lt (hr : r ∈ opcodeRows) : ∀ b < 12, r.pattern.getLsbD b = false := by
  have hrows : ∀ r ∈ opcodeRows, ∀ b < 12, r.pattern.getLsbD b = false := by decide
  exact hrows r hr

/-- A row whose mask is OP and the top `k` bits of N covers a word of its OP exactly when those `k` bits are zero. -/
theorem covers_iff_of_opField {j k : Nat} (hr : r ∈ opcodeRows) (hjk : j + k = 12) (hmask : r.mask = BitVec.allOnes 16 <<< j)
    (hop : opField w = opField r.pattern) : r.covers w = true ↔ w.extractLsb' j k = 0 := by
  have hmaskbit : ∀ b < 16, r.mask.getLsbD b = decide (j ≤ b) := fun b hb => by
    rw [hmask, BitVec.getLsbD_shiftLeft, BitVec.getLsbD_allOnes, Bool.eq_iff_iff]
    simp only [Bool.and_eq_true, Bool.not_eq_true', decide_eq_true_eq, decide_eq_false_iff_not]
    omega
  have hpat := pattern_getLsbD_of_lt hr
  have hhigh : ∀ b < 4, w.getLsbD (12 + b) = r.pattern.getLsbD (12 + b) := fun b hb => by
    simpa [opField, hb] using congrArg (BitVec.getLsbD · b) hop
  show (w &&& r.mask == r.pattern) = true ↔ _
  rw [beq_iff_eq]
  constructor
  · intro h
    refine BitVec.eq_of_getLsbD_eq fun b hb => ?_
    have hbit := congrArg (BitVec.getLsbD · (j + b)) h
    simp only [BitVec.getLsbD_and, hmaskbit _ (show j + b < 16 by omega), hpat _ (show j + b < 12 by omega)] at hbit
    simpa [hb] using hbit
  · intro h
    refine BitVec.eq_of_getLsbD_eq fun b hb => ?_
    rw [BitVec.getLsbD_and, hmaskbit b hb]
    by_cases h12 : b < 12
    · rw [hpat b h12]
      by_cases hj : j ≤ b
      · have hbit := congrArg (BitVec.getLsbD · (b - j)) h
        rw [BitVec.getLsbD_extractLsb', Nat.add_sub_cancel' hj, decide_eq_true (show b - j < k by omega)] at hbit
        simpa [hj] using hbit
      · simp [hj]
    · have hbit := hhigh (b - 12) (by omega)
      rw [Nat.add_sub_cancel' (Nat.le_of_not_lt h12)] at hbit
      simp [hbit, show j ≤ b by omega]

/-- What the decoder makes of a word of the row's OP: the row's operation if the row covers it. -/
theorem ifZero_eq_if_covers (j : Nat) {k : Nat} (hr : r ∈ opcodeRows) (hjk : j + k = 12)
    (hmask : r.mask = BitVec.allOnes 16 <<< j) (hop : opField w = opField r.pattern) (i : Instr) :
    ifZero (w.extractLsb' j k) i = if r.covers w then .ok i else .error .mustBeZeroBit := by
  unfold ifZero
  simp only [covers_iff_of_opField hr hjk hmask hop]

/-- With no unnamed bit, nothing is to be zero. -/
theorem ifZero_of_width_zero (u : BitVec 0) (i : Instr) : ifZero u i = .ok i := if_pos (BitVec.eq_nil u)

/-- A word of a row's OP is the row's operation if the row covers it, and else has a must-be-zero bit set. -/
theorem decodeWord_of_opField (hr : r ∈ opcodeRows) (hop : opField w = opField r.pattern) :
    ∃ i, i.mnemonic = r.mnemonic ∧ decodeWord w = if r.covers w then .ok i else .error .mustBeZeroBit := by
  unfold decodeWord
  rw [hop]
  have hrow := hr
  simp only [opcodeRows, List.mem_cons, List.not_mem_nil, or_false] at hrow
  rcases hrow with rfl | rfl | rfl | rfl | rfl | rfl | rfl | rfl | rfl | rfl
  · exact ⟨.clrf, rfl, ifZero_eq_if_covers 0 hr rfl rfl hop _⟩
  · exact ⟨.dir _, rfl, ifZero_eq_if_covers 1 hr rfl rfl hop _⟩
  · exact ⟨.lvl _, rfl, ifZero_eq_if_covers 1 hr rfl rfl hop _⟩
  · exact ⟨.dly _, rfl, (ifZero_of_width_zero _ _).symm.trans (ifZero_eq_if_covers 12 hr rfl rfl hop _)⟩
  · exact ⟨.meas _ _, rfl, (ifZero_of_width_zero _ _).symm.trans (ifZero_eq_if_covers 12 hr rfl rfl hop _)⟩
  · exact ⟨.pack _, rfl, ifZero_eq_if_covers 7 hr rfl rfl hop _⟩
  · exact ⟨.loop _ _, rfl, ifZero_eq_if_covers 10 hr rfl rfl hop _⟩
  · exact ⟨.extr, rfl, ifZero_eq_if_covers 0 hr rfl rfl hop _⟩
  · exact ⟨.vrfy, rfl, ifZero_eq_if_covers 0 hr rfl rfl hop _⟩
  · exact ⟨.cmt, rfl, ifZero_eq_if_covers 0 hr rfl rfl hop _⟩

/-- OP is 1 … 0xA exactly when it is the OP of a row (R91). -/
theorem exists_row_of_opField_iff (w : Word) :
    (∃ r ∈ opcodeRows, opField w = opField r.pattern) ↔ 1 ≤ w.toNat / 4096 ∧ w.toNat / 4096 ≤ 0xA := by
  have hops : ∀ op : BitVec 4, (∃ r ∈ opcodeRows, op = opField r.pattern) ↔ 1 ≤ op.toNat ∧ op.toNat ≤ 0xA := by decide
  rw [hops, opField_toNat]

/-- A word whose OP is no row's is no operation (R93). -/
theorem decodeWord_of_undefined_opField (h : ¬ (1 ≤ w.toNat / 4096 ∧ w.toNat / 4096 ≤ 0xA)) :
    decodeWord w = .error .noSuchOperation := by
  rw [← opField_toNat] at h
  unfold decodeWord
  split
  case h_11 => rfl
  all_goals omega

/-- The decoder in terms of the table: OP is undefined, or it is a row's and that row decides. -/
theorem decodeWord_cases (w : Word) :
    (¬ (1 ≤ w.toNat / 4096 ∧ w.toNat / 4096 ≤ 0xA) ∧ decodeWord w = .error .noSuchOperation) ∨
    (1 ≤ w.toNat / 4096 ∧ w.toNat / 4096 ≤ 0xA ∧ ∃ r ∈ opcodeRows, opField w = opField r.pattern ∧
      ((r.covers w = true ∧ ∃ i, decodeWord w = .ok i ∧ i.mnemonic = r.mnemonic) ∨
        (r.covers w = false ∧ decodeWord w = .error .mustBeZeroBit))) := by
  by_cases hop : 1 ≤ w.toNat / 4096 ∧ w.toNat / 4096 ≤ 0xA
  · obtain ⟨r, hr, hrow⟩ := (exists_row_of_opField_iff w).2 hop
    obtain ⟨i, hi, hdec⟩ := decodeWord_of_opField hr hrow
    refine .inr ⟨hop.1, hop.2, r, hr, hrow, ?_⟩
    cases hc : r.covers w with
    | true => exact .inl ⟨rfl, i, by simpa [hc] using hdec, hi⟩
    | false => exact .inr ⟨rfl, by simpa [hc] using hdec⟩
  · exact .inl ⟨hop, decodeWord_of_undefined_opField hop⟩

/-- R91: match and mask of a row say when a word is the row's operation. -/
theorem covers_iff_decodes (w : Word) (hr : r ∈ opcodeRows) :
    r.covers w = true ↔ ∃ i, decodeWord w = .ok i ∧ i.mnemonic = r.mnemonic := by
  constructor
  · intro hc
    obtain ⟨i, hi, hdec⟩ := decodeWord_of_opField hr (opField_eq_of_covers hr hc)
    exact ⟨i, by simpa [hc] using hdec, hi⟩
  · rintro ⟨i, hdec, hi⟩
    rcases decodeWord_cases w with ⟨-, herr⟩ | ⟨-, -, r', hr', -, ⟨hc', i', hdec', hi'⟩ | ⟨-, herr⟩⟩
    · rw [hdec] at herr; cases herr
    · obtain rfl : i = i' := Except.ok.inj (hdec.symm.trans hdec')
      obtain rfl : r = r' := row_eq_of_mnemonic hr hr' (hi.symm.trans hi')
      exact hc'
    · rw [hdec] at herr; cases herr

/-- Settles O50: the decoder follows the rows, and OP tells them apart. -/
theorem decodingFollowsMatchAndMask : Obligations.DecodingFollowsMatchAndMask :=
  ⟨fun w _ => covers_iff_decodes w, fun _ _ _ => row_eq_of_covers⟩

/-! ### Words that spell no instruction (R93) -/

theorem decodeWord_noSuchOperation_iff (w : Word) :
    decodeWord w = .error .noSuchOperation ↔ w.toNat / 4096 = 0 ∨ 0xB ≤ w.toNat / 4096 := by
  rcases decodeWord_cases w with ⟨hop, hdec⟩ | ⟨hlo, hhi, r, -, -, ⟨-, i, hdec, -⟩ | ⟨-, hdec⟩⟩
  · exact iff_of_true hdec (by omega)
  · exact iff_of_false (by simp [hdec]) (by omega)
  · exact iff_of_false (by simp [hdec]) (by omega)

theorem decodeWord_mustBeZeroBit_iff (w : Word) :
    decodeWord w = .error .mustBeZeroBit ↔
      1 ≤ w.toNat / 4096 ∧ w.toNat / 4096 ≤ 0xA ∧ ∀ r ∈ opcodeRows, r.covers w = false := by
  rcases decodeWord_cases w with ⟨hop, hdec⟩ | ⟨hlo, hhi, r, hr, hrow, ⟨hc, i, hdec, -⟩ | ⟨hc, hdec⟩⟩
  · exact iff_of_false (by simp [hdec]) (by omega)
  · exact iff_of_false (by simp [hdec]) fun ⟨_, _, hnone⟩ => by simp [hnone r hr] at hc
  · refine iff_of_true hdec ⟨hlo, hhi, fun r' hr' => Bool.eq_false_iff.2 fun hc' => ?_⟩
    obtain rfl : r = r' := row_eq_of_opField hr hr' (hrow.symm.trans (opField_eq_of_covers hr' hc'))
    simp [hc'] at hc

/-- A running block refuses such a word. -/
theorem step_of_invalid_word {e : Reject} (hrun : s.run = 1) (hdec : decodeWord s.fetch = .error e) :
    step s = .refused (.invalidWord e) := by
  unfold step microStep
  rw [if_pos hrun, hdec]

/-- The microprogram holds no such word. -/
theorem microprogram_decodes (a : Nat) (ha : a < 16) : ∃ i, decodeWord microprogram[a] = .ok i := by
  have hall : ∀ a : Fin 16, (decodeWord (microprogram.get a)).isOk = true := by decide
  have hok : (decodeWord microprogram[a]).isOk = true := hall ⟨a, ha⟩
  cases hdec : decodeWord microprogram[a] with
  | ok i => exact ⟨i, rfl⟩
  | error e => rw [hdec] at hok; cases hok

/-- Settles O51: each rejection by the row of the word's OP, the refusal by the step, the microprogram word by word. -/
theorem invalidWordsAreRejected : Obligations.InvalidWordsAreRejected :=
  ⟨decodeWord_noSuchOperation_iff, decodeWord_mustBeZeroBit_iff, fun _ _ => step_of_invalid_word, microprogram_decodes⟩

/-! ### Format H (R87) -/

/-- With no response in the log for a tick, `hresp` is 0 at it. -/
theorem State.hresp_of_no_response {p : Tick} (h : ∀ e ∈ s.log, e.responseAt p = none) : s.hresp p = 0 := by
  unfold State.hresp
  rw [List.findSome?_eq_none_iff.2 h]
  rfl

/-- Settles O2: NONE is the identity, and `hresp` is read from the log. -/
theorem hostCodesAndNone : Obligations.HostCodesAndNone :=
  ⟨rfl, rfl, rfl, rfl, fun _ => ⟨rfl, State.hresp_of_no_response⟩⟩

/-! ### The pseudo-instructions (R97) -/

/-- Settles O55: word by word. -/
theorem theMicroprogramInPseudoInstructions : Obligations.TheMicroprogramInPseudoInstructions :=
  ⟨by decide, rfl⟩

end Sys2Proof.Machine
end

section
/-! Proofs of the statements of 40_signal_timer.md (R112: MEAS; R114: successive measurements), after the lemmas they rest on. -/

namespace Sys2Proof.Machine

variable {n k : Nat} {l : Level} {s t : State}

/-! ### One measurement (R112) -/

/-- The word of MEAS: OP, the level at bit 11, the timeout below it (R112). -/
theorem encode_meas (hn : n < 2048) (l : Level) :
    encode (.meas n l) = .micro (0x5000#16 ||| (l.setWidth 16 <<< 11) ||| BitVec.ofNat 16 n) := by
  have hop : (0x5#4).setWidth 16 <<< (1 + 11) = 0x5000#16 := by decide
  have hlow : (BitVec.ofNat 11 n).setWidth 16 = BitVec.ofNat 16 n := BitVec.setWidth_ofNat_of_le_of_lt (by decide) hn
  have hword := BitVec.setWidth_append_append_eq_shiftLeft_setWidth_or (b := 0x5#4) (b' := l)
    (b'' := BitVec.ofNat 11 n) (w''' := 16)
  rw [hop, hlow] at hword
  exact congrArg Code.micro ((BitVec.setWidth_eq _).symm.trans hword)

theorem exec_meas_of_duration_some (h : s.duration n l = some k) : exec (.meas n l) s = .next (s.measured k) := by
  show execMeas n l s = _
  unfold execMeas
  rw [h]

theorem exec_meas_of_duration_none (h : s.duration n l = none) : exec (.meas n l) s = .next (s.measTimeout n) := by
  show execMeas n l s = _
  unfold execMeas
  rw [h]

/-- Every duration a well-formed MEAS completes with fits D (R23). -/
theorem measured_d_toNat (hn : n < 2048) (h : s.duration n l = some k) : (s.measured k).d.toNat = k := by
  obtain ⟨-, -, hticks⟩ := measured_ticks h
  exact (Nat.add_left_cancel (hticks hn)).symm

/-- Settles O10: the two outcomes are the two values of `duration`. -/
theorem measMeasuresOrTimesOut : Obligations.MeasMeasuresOrTimesOut := by
  intro n l s hn
  refine ⟨encode_meas hn l, fun k hk hrun hend => ?_, fun hrun => ?_⟩
  · have hdur : s.duration n l = some k := (duration_some s n l k).2 ⟨hk, hrun, hend⟩
    exact ⟨s.measured k, exec_meas_of_duration_some hdur, measured_d_toNat hn hdur, rfl⟩
  · have hdur : s.duration n l = none := (duration_none s n l).2 hrun
    exact ⟨s.measTimeout n, exec_meas_of_duration_none hdur, rfl⟩

/-- A MEAS that leaves RUN = 1 has completed, since Timeout ends the read. -/
theorem duration_of_exec_meas_running (h : exec (.meas n l) s = .next t) (hrun : t.run = 1) :
    ∃ k, s.duration n l = some k ∧ t = s.measured k := by
  rcases execMeas_cases h with hdone | ⟨-, rfl⟩
  · exact hdone
  · rw [State.measTimeout_run] at hrun
    cases hrun

/-! ### The other level -/

theorem one_sub_level_ne (l : Level) : 1 - l ≠ l := by
  revert l
  decide

theorem level_eq_one_sub_of_ne {l l' : Level} (h : l' ≠ l) : l' = 1 - l := by
  revert l l'
  decide

/-! ### Successive measurements (R114) -/

/-- The line follows a list of runs when it follows the first run and, after that run's ticks, the others. -/
theorem State.follows_cons (s : State) (p : Tick) (l : Level) (a : Nat) (runs : List (Level × Nat)) :
    s.follows p ((l, a) :: runs) ↔ (∀ j < a, s.line (p + j) = l) ∧ s.follows (p + a) runs := by
  have hlen : runsLength ((l, a) :: runs) = a + runsLength runs := List.sum_cons
  unfold State.follows
  rw [hlen]
  constructor
  · intro h
    refine ⟨fun j hj => ?_, fun j hj => ?_⟩
    · have hlevel := h j (by omega)
      rw [levelIn, if_pos hj] at hlevel
      exact (Option.some.inj hlevel).symm
    · have hlevel := h (a + j) (by omega)
      rwa [levelIn, if_neg (by omega), Nat.add_sub_cancel_left, ← Nat.add_assoc] at hlevel
  · rintro ⟨hfirst, hrest⟩ j hj
    rw [levelIn]
    split
    · next hja => rw [hfirst j hja]
    · next hja =>
      have hlevel := hrest (j - a) (by omega)
      rwa [Nat.add_assoc, Nat.add_sub_cancel' (Nat.le_of_not_lt hja)] at hlevel

/-- The level of the last of alternating runs that start with `l`; with no run at all, the level other than `l`. -/
def lastLevel (as : List Nat) (l : Level) : Level := if as.length % 2 = 1 then l else 1 - l

theorem lastLevel_nil (l : Level) : lastLevel [] l = 1 - l := rfl

theorem lastLevel_cons (a : Nat) (as : List Nat) (l : Level) : lastLevel (a :: as) l = lastLevel as (1 - l) := by
  unfold lastLevel
  rw [List.length_cons]
  rcases Nat.mod_two_eq_zero_or_one as.length with h | h
  · rw [if_pos (by omega), if_neg (by omega), sub_sub_cancel]
  · rw [if_neg (by omega), if_pos h]

/-- Alternating runs, none of them empty, that end at a change of level start at their level. -/
theorem State.line_of_follows {p : Tick} {as : List Nat} (hpos : ∀ a ∈ as, 1 ≤ a) (hline : s.follows p (alternating as l))
    (hend : s.line (p + as.sum) ≠ lastLevel as l) : s.line p = l := by
  cases as with
  | nil =>
    rw [lastLevel_nil] at hend
    exact (level_eq_one_sub_of_ne hend).trans (sub_sub_cancel 1 l)
  | cons a as =>
    obtain ⟨hfirst, -⟩ := (s.follows_cons p l a _).1 hline
    exact hfirst 0 (hpos a List.mem_cons_self)

/-- A completed measurement goes on to the rest of its chain. -/
theorem measureChain_cons (hn : n < 2048) (hdur : s.duration n l = some k) (hrun : s.run = 1) (ts : List Nat) :
    measureChain (n :: ts) l s = (measureChain ts (1 - l) (s.measured k)).map (fun r => (k :: r.1, r.2)) := by
  rw [measureChain, exec_meas_of_duration_some hdur]
  simp only [State.measured_run, hrun, if_true, measured_d_toNat hn hdur]

/-- A chain completes with the run lengths: each run ends where the next one begins, at the level measured next. -/
theorem measureChain_of_follows {ts as : List Nat} (hfit : List.Forall₂ (fun a t => a ≤ t ∧ t < 2048) as ts) (hrun : s.run = 1)
    (hpos : ∀ a ∈ as.tail, 1 ≤ a) (hline : s.follows s.now (alternating as l))
    (hend : s.line (s.now + as.sum) ≠ lastLevel as l) :
    ∃ u, measureChain ts l s = some (as, u) ∧ u.now = s.now + as.sum := by
  induction hfit generalizing s l with
  | nil => exact ⟨s, rfl, rfl⟩
  | @cons a n as ts han _ ih =>
    obtain ⟨hle, hn⟩ := han
    obtain ⟨hfirst, hrest⟩ := (s.follows_cons s.now l a _).1 hline
    rw [List.sum_cons, ← Nat.add_assoc, lastLevel_cons] at hend
    have hchange : s.line (s.now + a) ≠ l := s.line_of_follows hpos hrest hend ▸ one_sub_level_ne l
    have hdur : s.duration n l = some a := (duration_some s n l a).2 ⟨Nat.le_add_right_of_le hle, hfirst, hchange⟩
    obtain ⟨u, hchain, hnow⟩ :=
      ih (s := s.measured a) hrun (fun b hb => hpos b (List.mem_of_mem_tail hb)) hrest hend
    refine ⟨u, ?_, ?_⟩
    · rw [measureChain_cons hn hdur hrun, hchain]
      rfl
    · rw [hnow, State.measured_now, List.sum_cons, Nat.add_assoc]

/-- The sample that ended the first measurement has the level of the second, so the second does not end at once. -/
theorem one_le_next_duration {n' k' : Nat} (h : s.duration n l = some k)
    (h' : (s.measured k).duration n' (1 - l) = some k') : 1 ≤ k' := by
  obtain ⟨-, -, hend⟩ := (duration_some s n l k).1 h
  obtain ⟨-, -, hend'⟩ := (duration_some _ n' (1 - l) k').1 h'
  refine Nat.one_le_iff_ne_zero.2 ?_
  rintro rfl
  exact hend' (level_eq_one_sub_of_ne hend)

/-- Settles O12: the chain by induction on its runs, and two measurements in a row. -/
theorem successiveMeasurementsReturnRunLengths : Obligations.SuccessiveMeasurementsReturnRunLengths := by
  refine ⟨fun ts as l s hrun _ hfit hpos hline hend => measureChain_of_follows hfit hrun hpos hline hend, ?_⟩
  intro n n' l s t u hn' hfirst hrun hnext hrun'
  obtain ⟨k, hk, rfl⟩ := duration_of_exec_meas_running hfirst hrun
  obtain ⟨k', hk', rfl⟩ := duration_of_exec_meas_running hnext hrun'
  rw [measured_d_toNat hn' hk']
  exact one_le_next_duration hk hk'

end Sys2Proof.Machine
end

section
/-! Proofs of the statements of 41_read_sequence.md (R122: the microprogram; R124: PC; R127: LOOP), after the lemmas they rest
on. -/

namespace Sys2Proof.Machine

variable {i : Instr} {s t : State}

/-! ### The program counter (R124) -/

/-- A host command leaves PC alone, unless it is a READ that is accepted. -/
theorem exec_pc_of_host (hhost : i.isHost = true) (h : exec i s = .next t) :
    (t.pc = 0 ∧ i = .read ∧ s.run = 0 ∧ t.run = 1) ∨ (t.pc = s.pc ∧ ¬ (i = .read ∧ s.run = 0)) := by
  cases i with
  | read =>
    rcases execRead_cases h with ⟨hidle, rfl⟩ | ⟨hbusy, rfl⟩
    · exact .inl ⟨rfl, rfl, hidle, rfl⟩
    · exact .inr ⟨rfl, fun ⟨_, hidle⟩ => hbusy hidle⟩
  | noCall | hum | temp =>
    cases h
    exact .inr ⟨rfl, fun ⟨hread, _⟩ => by cases hread⟩
  | _ => cases hhost

/-- A micro-operation other than LOOP and CMT goes on to the next word, or raises and leaves PC at 0. -/
theorem exec_pc_of_micro (hmicro : i.isHost = false) (hcmt : i ≠ .cmt) (hloop : ∀ a c, i ≠ .loop a c)
    (h : exec i s = .next t) :
    (t.pc = s.pc + 1 ∧ errorCount t.log = errorCount s.log) ∨ (t.pc = 0 ∧ errorCount s.log < errorCount t.log) := by
  cases i with
  | noCall | read | hum | temp => cases hmicro
  | cmt => exact absurd rfl hcmt
  | loop a c => exact absurd rfl (hloop a c)
  | meas n l =>
    rcases execMeas_cases h with ⟨k, -, rfl⟩ | ⟨-, rfl⟩
    · exact .inl ⟨rfl, rfl⟩
    · exact .inr ⟨rfl, by simp⟩
  | pack n => rcases execPack_cases h with ⟨-, rfl⟩ | ⟨-, -, rfl⟩ <;> exact .inl ⟨rfl, rfl⟩
  | vrfy =>
    rcases execVrfy_cases h with ⟨-, rfl⟩ | ⟨-, rfl⟩
    · exact .inl ⟨rfl, rfl⟩
    · exact .inr ⟨rfl, by simp⟩
  | clrf | dir d | lvl l | dly n | extr => cases h; exact .inl ⟨rfl, rfl⟩

/-- Settles O26: host commands, CMT, LOOP, and the other micro-operations. -/
theorem pcChangesOnlyAsListed : Obligations.PcChangesOnlyAsListed := by
  intro i s t h
  cases hhost : i.isHost with
  | true =>
    rcases exec_pc_of_host hhost h with ⟨hpc, haccepted⟩ | ⟨hpc, hnot⟩
    · exact .inr (.inr (.inl ⟨hpc, .inr (.inr haccepted)⟩))
    · exact .inr (.inr (.inr ⟨hpc, rfl, hnot⟩))
  | false =>
    by_cases hcmt : i = .cmt
    · subst hcmt
      cases h
      exact .inr (.inr (.inl ⟨rfl, .inl rfl⟩))
    by_cases hloop : ∃ a c, i = .loop a c
    · obtain ⟨a, c, rfl⟩ := hloop
      cases h
      exact .inr (.inl ⟨a, c, rfl, rfl⟩)
    have hnoLoop : ∀ a c, i ≠ .loop a c := fun a c hi => hloop ⟨a, c, hi⟩
    rcases exec_pc_of_micro hhost hcmt hnoLoop h with ⟨hpc, herr⟩ | ⟨hpc, herr⟩
    · exact .inl ⟨hpc, rfl, hcmt, hnoLoop, herr⟩
    · exact .inr (.inr (.inl ⟨hpc, .inr (.inl herr)⟩))

/-! ### LOOP (R127) -/

/-- The word of LOOP: OP, the count at bit 4, the target below it (R127). -/
theorem encode_loop (a : BitVec 4) (c : BitVec 6) :
    encode (.loop a c) = .micro (0x7000#16 ||| (c.setWidth 16 <<< 4) ||| a.setWidth 16) := by
  have hop : (0x7#4 ++ 0#2).setWidth 16 <<< (6 + 4) = 0x7000#16 := by decide
  have hword := BitVec.setWidth_append_append_eq_shiftLeft_setWidth_or (b := 0x7#4 ++ 0#2) (b' := c) (b'' := a) (w''' := 16)
  rw [hop] at hword
  exact congrArg Code.micro ((BitVec.setWidth_eq _).symm.trans hword)

/-- Settles O17: the word of `encode_loop`, the 6-bit increment, and the branch. -/
theorem loopCountsAndBranches : Obligations.LoopCountsAndBranches := by
  intro a c s
  refine ⟨encode_loop a c, rfl, _, rfl, BitVec.toNat_add _ _, ?_⟩
  simp only [ne_eq, ite_not]

/-! ### The microprogram (R122) -/

/-- Settles O54: the words are the definition's; the decoder is evaluated at each. -/
theorem theMicroprogramIsTheReadAlgorithm : Obligations.TheMicroprogramIsTheReadAlgorithm :=
  ⟨rfl, by decide⟩

end Sys2Proof.Machine
end

section
/-! Proofs of the statements of 42_line_drive.md (R140: DIR; R141: LVL; R145: the pin tick by tick), after the lemmas they rest
on. -/

namespace Sys2Proof.Machine

variable {α : Type} {p : State → α} {f : Tick → α} {i : Instr} {s t u : State} {a : BitVec 4} {d : BitVec 1} {l : Level}
  {n τ : Nat}

/-! ### DIR and LVL (R140, R141) -/

/-- The word of DIR: OP over the direction. -/
theorem encode_dir (d : BitVec 1) : encode (.dir d) = .micro (0x2000#16 ||| d.setWidth 16) := by
  revert d
  decide

/-- The word of LVL: OP over the level. -/
theorem encode_lvl (l : Level) : encode (.lvl l) = .micro (0x3000#16 ||| l.setWidth 16) := by
  revert l
  decide

/-- Settles O7: `drive` reads the direction DIR has just written. -/
theorem dirSetsThePinDirection : Obligations.DirSetsThePinDirection :=
  fun d _ => ⟨encode_dir d, rfl, _, rfl, rfl, rfl⟩

/-- Settles O8: `drive` reads the level LVL has just written, and only as an output. -/
theorem lvlSetsTheDrivenLevel : Obligations.LvlSetsTheDrivenLevel :=
  fun l _ => ⟨encode_lvl l, rfl, _, rfl, rfl, rfl⟩

/-! ### A port along a run of steps -/

theorem steps_succ (h : step s = .next t) (n : Nat) : steps (n + 1) s = steps n t := by
  rw [steps, h]

/-- `n` steps lead from `s` to `t`, and a port connected to `p` shows the values of `f` at the ticks they let pass. -/
structure Shows (p : State → α) (f : Tick → α) (n : Nat) (s t : State) : Prop where
  steps_eq : steps n s = .next t
  now_le : s.now ≤ t.now
  port_eq : ∀ τ, s.now ≤ τ → τ < t.now → State.portAt p n s τ = some (f τ)

theorem Shows.refl (p : State → α) (f : Tick → α) (s : State) : Shows p f 0 s s :=
  ⟨rfl, Nat.le_refl _, fun _ hfrom hto => absurd hto (Nat.not_lt.2 hfrom)⟩

/-- One step more in front. -/
theorem Shows.cons (h : step s = .next u) (hnow : s.now ≤ u.now)
    (hfirst : ∀ τ, s.now ≤ τ → τ < u.now → passingValue p s u τ = f τ) (hrest : Shows p f n u t) :
    Shows p f (n + 1) s t := by
  refine ⟨(steps_succ h n).trans hrest.steps_eq, hnow.trans hrest.now_le, fun τ hfrom hto => ?_⟩
  by_cases hτ : τ < u.now
  · rw [portAt_passing h hfrom hτ, hfirst τ hfrom hτ]
  · have hlater := Nat.le_of_not_lt hτ
    rw [portAt_later h hfrom hlater, hrest.port_eq τ hlater hto]

/-! ### A step of a read that no reset drops -/

/-- The word of the microprogram at an address (R122). -/
def wordAt (a : BitVec 4) : Word := microprogram[a.toNat]'a.isLt

/-- A read is running from the hard-wired microprogram, and no reset is to come. -/
structure State.Reading (s : State) : Prop where
  rom : s.rom = microprogram
  run : s.run = 1
  noReset : ∀ r ∈ s.inputs.resets, r ≤ s.now

theorem State.fetch_eq_wordAt (h : s.rom = microprogram) : s.fetch = wordAt s.pc := by
  simp only [State.fetch, wordAt, h]

theorem State.afterOp_of_running (h : s.run = 1) : s.afterOp = s := by
  simp [State.afterOp, h]

theorem State.afterOp_of_ended (h : s.run = 0) : s.afterOp = s.pass 1 := by
  simp [State.afterOp, h]

theorem State.Reading.step_eq (h : s.Reading) (hi : decodeWord (wordAt s.pc) = .ok i) :
    step s = mapNext State.afterOp (exec i (s.serve (s.ticksOf i))) := by
  have hreset : s.inputs.firstReset s.now (s.ticksOf i) = none :=
    firstReset_none.2 fun r hr hlt => absurd hlt (Nat.not_lt.2 (h.noReset r hr))
  unfold step microStep
  rw [if_pos h.run, State.fetch_eq_wordAt h.rom, hi]
  simp only [hreset]

theorem now_le_of_exec_serve (h : exec i (s.serve n) = .next t) : s.now ≤ t.now := by
  rw [exec_now h, State.serve_now]
  exact Nat.le_add_right _ _

/-- An operation that does not end the read is the whole step, and the read goes on. -/
theorem State.Reading.step_running (h : s.Reading) (hi : decodeWord (wordAt s.pc) = .ok i)
    (hu : exec i (s.serve (s.ticksOf i)) = .next u) (hrun : u.run = 1) : step s = .next u ∧ u.Reading := by
  obtain ⟨hrom, hin⟩ := exec_rom_inputs hu
  rw [State.serve_rom] at hrom
  rw [State.serve_inputs] at hin
  refine ⟨?_, hrom.trans h.rom, hrun, fun r hr => (h.noReset r (hin ▸ hr)).trans (now_le_of_exec_serve hu)⟩
  rw [h.step_eq hi, hu, mapNext, State.afterOp_of_running hrun]

/-- After the operation that ends the read the step lets its tick pass. -/
theorem State.Reading.step_ended (h : s.Reading) (hi : decodeWord (wordAt s.pc) = .ok i)
    (hu : exec i (s.serve (s.ticksOf i)) = .next u) (hrun : u.run = 0) : step s = .next (u.pass 1) := by
  rw [h.step_eq hi, hu, mapNext, State.afterOp_of_ended hrun]

/-- With no reset to come, a port shows what it showed before the step. -/
theorem State.Reading.passingValue_eq (h : s.Reading) : passingValue p s t τ = p s := by
  refine if_neg ?_
  rintro ⟨-, hreset, hidle | hlt⟩
  · rw [h.run] at hidle
    cases hidle
  · have hmem : τ ∈ s.inputs.resets := by simpa [Inputs.rstAt] using hreset
    exact absurd hlt (Nat.not_lt.2 (h.noReset τ hmem))

/-- One step more in front, of a read. -/
theorem State.Reading.shows_cons (h : s.Reading) (hstep : step s = .next u) (hnow : s.now ≤ u.now)
    (hfirst : ∀ τ, s.now ≤ τ → τ < u.now → p s = f τ) (hrest : Shows p f n u t) : Shows p f (n + 1) s t :=
  hrest.cons hstep hnow fun τ hfrom hto => h.passingValue_eq.trans (hfirst τ hfrom hto)

/-! ### The start signal, word by word (R129, R145) -/

/-- The pin of a read accepted at tick `t₀` (R129): low for the wake pulse, high for the request pulse, then released. -/
def startSignal (t₀ τ : Nat) : Option Level :=
  if τ ≤ t₀ + 3000 then some 0 else if τ ≤ t₀ + 3025 then some 1 else none

theorem startSignal_low {t₀ τ : Nat} (h : τ ≤ t₀ + 3000) : startSignal t₀ τ = some 0 := if_pos h

theorem startSignal_high {t₀ τ : Nat} (hlow : t₀ + 3000 < τ) (h : τ ≤ t₀ + 3025) : startSignal t₀ τ = some 1 := by
  rw [startSignal, if_neg (Nat.not_le.2 hlow), if_pos h]

theorem startSignal_released {t₀ τ : Nat} (h : t₀ + 3025 < τ) : startSignal t₀ τ = none := by
  rw [startSignal, if_neg (by omega), if_neg (by omega)]

/-- A read stands at word `a` at tick `τ`, with CLRF done and the given DIR and LVL. -/
structure State.AtWord (s : State) (a : BitVec 4) (τ : Nat) (d : BitVec 1) (l : Level) : Prop extends s.Reading where
  pc : s.pc = a
  now : s.now = τ
  idx : s.idx = 0
  dir : s.dir = d
  lvl : s.lvl = l

/-- The READ is accepted: word 0 is next at the next tick (R120). -/
theorem State.AboutToRead.accepted (h : s.AboutToRead) :
    ∃ t, step s = .next t ∧ t.Reading ∧ t.pc = 0 ∧ t.now = s.now + 1 := by
  obtain ⟨hrom, hidle, hread, hresets⟩ := h
  have hquiet : ∀ τ, s.now ≤ τ → s.inputs.rstAt τ = false := fun τ hτ => by
    have hnot : τ ∉ s.inputs.resets := fun hmem => Nat.not_lt.2 hτ (hresets τ hmem)
    simpa [Inputs.rstAt] using hnot
  have hend : ({ s with run := 1, pc := 0 } : State).afterIdle = (({ s with run := 1, pc := 0 } : State).serve 1).pass 1 := by
    have hnone := (firstReset_one_none s.inputs s.now).2 (hquiet _ (Nat.le_succ _))
    simp [State.afterIdle, hnone]
  refine ⟨_, (step_accepts hidle hread (hquiet _ (Nat.le_refl _))).trans (congrArg _ hend), ⟨?_, ?_, fun r hr => ?_⟩, ?_, ?_⟩
  · simpa using hrom
  · simp
  · rw [State.pass_now, State.serve_now]
    exact Nat.le_succ_of_le (hresets r (by simpa using hr)).le
  · simp
  · simp

theorem State.Reading.step_clrf (h : s.Reading) (hi : decodeWord (wordAt s.pc) = .ok .clrf) :
    ∃ t, step s = .next t ∧ t.AtWord (s.pc + 1) s.now s.dir s.lvl := by
  obtain ⟨hstep, hreading⟩ := h.step_running hi rfl (by simp [h.run])
  exact ⟨_, hstep, hreading, by simp, by simp, rfl, by simp, by simp⟩

section AtWord

variable (h : s.AtWord a τ d l)
include h

theorem State.AtWord.decodes : decodeWord (wordAt s.pc) = decodeWord (wordAt a) := by
  rw [h.pc]

theorem State.AtWord.drive_eq : s.drive = if d = 1 then some l else none := by
  rw [State.drive, h.dir, h.lvl]

theorem State.AtWord.step_dir {d' : BitVec 1} (hi : decodeWord (wordAt a) = .ok (.dir d')) :
    ∃ t, step s = .next t ∧ t.AtWord (a + 1) τ d' l := by
  obtain ⟨hstep, hreading⟩ := h.step_running (h.decodes.trans hi) rfl (by simp [h.run])
  exact ⟨_, hstep, hreading, by simp [h.pc], by simp [h.now], by simp [h.idx], rfl, by simp [h.lvl]⟩

theorem State.AtWord.step_lvl {l' : Level} (hi : decodeWord (wordAt a) = .ok (.lvl l')) :
    ∃ t, step s = .next t ∧ t.AtWord (a + 1) τ d l' := by
  obtain ⟨hstep, hreading⟩ := h.step_running (h.decodes.trans hi) rfl (by simp [h.run])
  exact ⟨_, hstep, hreading, by simp [h.pc], by simp [h.now], by simp [h.idx], by simp [h.dir], rfl⟩

theorem State.AtWord.step_dly {n : Nat} (hi : decodeWord (wordAt a) = .ok (.dly n)) :
    ∃ t, step s = .next t ∧ t.AtWord (a + 1) (τ + n) d l := by
  obtain ⟨hstep, hreading⟩ := h.step_running (h.decodes.trans hi) rfl (by simp [h.run])
  exact ⟨_, hstep, hreading, by simp [h.pc], by simp [h.now], by simp [h.idx], by simp [h.dir], by simp [h.lvl]⟩

end AtWord

/-! ### From the first measurement to the end of the read (R123) -/

/-- Word 7 or a later one is next, the pin is an input, and up to word 12 (LOOP) a bit is left to count. -/
structure State.Released (s : State) : Prop where
  dir : s.dir = 0
  addr : 7 ≤ s.pc.toNat
  idx : s.pc.toNat ≤ 12 → s.idx.toNat ≤ 39

theorem State.Released.serve (h : s.Released) (n : Nat) : (s.serve n).Released :=
  ⟨by simp [h.dir], by simp [h.addr], by simpa using h.idx⟩

theorem State.Released.drive_eq (h : s.Released) : s.drive = none := by
  simp [State.drive, h.dir]

/-- The steps from here to the end of a read that no error ends: four to a bit, then EXTR, VRFY and CMT. -/
def State.stepsLeft (s : State) : Nat :=
  if s.pc.toNat ≤ 12 then 172 - s.pc.toNat - 4 * s.idx.toNat else 16 - s.pc.toNat

theorem State.stepsLeft_of_le (h : s.pc.toNat ≤ 12) : s.stepsLeft = 172 - s.pc.toNat - 4 * s.idx.toNat := if_pos h

theorem State.stepsLeft_of_gt (h : 12 < s.pc.toNat) : s.stepsLeft = 16 - s.pc.toNat := if_neg (Nat.not_le.2 h)

@[simp] theorem State.serve_stepsLeft (s : State) (n : Nat) : (s.serve n).stepsLeft = s.stepsLeft := by
  simp [State.stepsLeft]

theorem State.Released.stepsLeft_pos (h : s.Released) : 0 < s.stepsLeft := by
  by_cases hle : s.pc.toNat ≤ 12
  · have hidx := h.idx hle
    rw [State.stepsLeft_of_le hle]
    omega
  · rw [State.stepsLeft_of_gt (Nat.lt_of_not_le hle)]
    omega

/-- From `t` the read has one step less to its end than from `s`. -/
def State.Nearer (s t : State) : Prop := t.Released ∧ t.stepsLeft + 1 = s.stepsLeft

/-- The next word, with the same count of bits. -/
theorem State.Released.nearer_of_next_word (h : s.Released) (h12 : s.pc ≠ 12) (h15 : s.pc ≠ 15) (hpc : t.pc = s.pc + 1)
    (hidx : t.idx = s.idx) (hdir : t.dir = s.dir) : s.Nearer t := by
  have hn12 : s.pc.toNat ≠ 12 := fun hn => h12 (BitVec.eq_of_toNat_eq hn)
  have hn15 : s.pc.toNat ≠ 15 := fun hn => h15 (BitVec.eq_of_toNat_eq hn)
  have haddr := h.addr
  have hbound := h.idx
  have hnext : t.pc.toNat = s.pc.toNat + 1 := by
    rw [hpc, BitVec.toNat_add_of_lt (by have := s.pc.isLt; simp; omega)]
    rfl
  refine ⟨⟨hdir.trans h.dir, by omega, fun hle => hidx ▸ hbound (by omega)⟩, ?_⟩
  by_cases hle : s.pc.toNat ≤ 12
  · have := hbound hle
    rw [State.stepsLeft_of_le hle, State.stepsLeft_of_le (by omega), hidx, hnext]
    omega
  · rw [State.stepsLeft_of_gt (by omega), State.stepsLeft_of_gt (by omega), hnext]
    omega

/-- LOOP counts a bit, and goes back to word 9 until it has counted 40 (R127). -/
theorem State.Released.nearer_of_loop (h : s.Released) (h12 : s.pc = 12) (hpc : t.pc = if s.idx + 1 = 40 then 13 else 9)
    (hidx : t.idx = s.idx + 1) (hdir : t.dir = s.dir) : s.Nearer t := by
  have hn12 : s.pc.toNat = 12 := congrArg BitVec.toNat h12
  have hbound := h.idx hn12.le
  have hcount : (s.idx + 1).toNat = s.idx.toNat + 1 := BitVec.toNat_add_of_lt (by simp; omega)
  by_cases hlast : s.idx + 1 = 40
  · have hnext : t.pc.toNat = 13 := by rw [hpc, if_pos hlast]; rfl
    have h40 : s.idx.toNat + 1 = 40 := hcount.symm.trans (congrArg BitVec.toNat hlast)
    refine ⟨⟨hdir.trans h.dir, by omega, fun hle => by omega⟩, ?_⟩
    rw [State.stepsLeft_of_le hn12.le, State.stepsLeft_of_gt (by omega), hnext]
    omega
  · have hnext : t.pc.toNat = 9 := by rw [hpc, if_neg hlast]; rfl
    have hmore : s.idx.toNat + 1 ≠ 40 := fun h40 => hlast (BitVec.eq_of_toNat_eq (hcount.trans h40))
    refine ⟨⟨hdir.trans h.dir, by omega, fun _ => by rw [hidx, hcount]; omega⟩, ?_⟩
    rw [State.stepsLeft_of_le hn12.le, State.stepsLeft_of_le (by omega), hnext, hidx, hcount]
    omega

/-- MEAS, PACK, EXTR and VRFY: they go on to the next word unless they raise, and leave IDX and DIR alone. -/
def staysInLine : Instr → Bool
  | .meas _ _ | .pack _ | .extr | .vrfy => true
  | _ => false

theorem exec_staysInLine (hi : staysInLine i = true) (hrun : s.run = 1) (h : exec i s = .next t) :
    t.run = 0 ∨ (t.run = 1 ∧ t.pc = s.pc + 1 ∧ t.idx = s.idx ∧ t.dir = s.dir) := by
  cases i with
  | meas n l =>
    rcases execMeas_cases h with ⟨k, -, rfl⟩ | ⟨-, rfl⟩
    · exact .inr ⟨hrun, rfl, rfl, rfl⟩
    · exact .inl rfl
  | pack n => rcases execPack_cases h with ⟨-, rfl⟩ | ⟨-, -, rfl⟩ <;> exact .inr ⟨hrun, rfl, rfl, rfl⟩
  | extr => cases h; exact .inr ⟨hrun, rfl, rfl, rfl⟩
  | vrfy =>
    rcases execVrfy_cases h with ⟨-, rfl⟩ | ⟨-, rfl⟩
    · exact .inr ⟨hrun, rfl, rfl, rfl⟩
    · exact .inl rfl
  | _ => cases hi

/-- The words from 7 on (R122): LOOP at 12, CMT at 15, the others in line, and PACK before LOOP. -/
theorem decodeWord_wordAt_cases (ha : 7 ≤ a.toNat) :
    (a = 12 ∧ decodeWord (wordAt a) = .ok (.loop 9 40)) ∨ (a = 15 ∧ decodeWord (wordAt a) = .ok .cmt) ∨
    (a ≠ 12 ∧ a ≠ 15 ∧ ∃ i, decodeWord (wordAt a) = .ok i ∧ staysInLine i = true ∧ ∀ n, i = .pack n → a.toNat ≤ 12) := by
  have haddr : ∀ a : BitVec 4, 7 ≤ a.toNat →
      a = 12 ∨ a = 15 ∨ a = 7 ∨ a = 8 ∨ a = 9 ∨ a = 10 ∨ a = 11 ∨ a = 13 ∨ a = 14 := by decide
  rcases haddr a ha with rfl | rfl | rfl | rfl | rfl | rfl | rfl | rfl | rfl
  · exact .inl ⟨rfl, rfl⟩
  · exact .inr (.inl ⟨rfl, rfl⟩)
  all_goals exact .inr (.inr ⟨by decide, by decide, _, rfl, rfl, by simp⟩)

/-- The operation of a word from 7 on runs; it ends the read or comes one step nearer to its end. -/
theorem State.Released.exec_next (h : s.Released) (hrun : s.run = 1) :
    ∃ i, decodeWord (wordAt s.pc) = .ok i ∧ ∃ t, exec i s = .next t ∧ (t.run = 0 ∨ (t.run = 1 ∧ s.Nearer t)) := by
  rcases decodeWord_wordAt_cases h.addr with ⟨h12, hi⟩ | ⟨-, hi⟩ | ⟨h12, h15, i, hi, hline, hpack⟩
  · refine ⟨_, hi, _, rfl, .inr ⟨hrun, h.nearer_of_loop h12 ?_ rfl rfl⟩⟩
    simp [h12]
  · exact ⟨_, hi, _, rfl, .inl rfl⟩
  · rcases exec_stops i s with ⟨t, ht⟩ | ⟨n, hn, -, hidx, -⟩
    · refine ⟨i, hi, t, ht, (exec_staysInLine hline hrun ht).imp_right ?_⟩
      rintro ⟨htrun, hpc, hidx, hdir⟩
      exact ⟨htrun, h.nearer_of_next_word h12 h15 hpc hidx hdir⟩
    · exact absurd (h.idx (hpack n hn)) (Nat.not_le.2 hidx)

/-- The same of a step, which lets at least one tick pass where the read ends. -/
theorem State.Reading.step_of_released (h : s.Reading) (hpin : s.Released) :
    ∃ t, step s = .next t ∧ ((t.run = 0 ∧ s.now < t.now) ∨ (t.Reading ∧ s.now ≤ t.now ∧ s.Nearer t)) := by
  obtain ⟨i, hi, -⟩ := hpin.exec_next h.run
  obtain ⟨j, hj, t, ht, hcases⟩ := (hpin.serve (s.ticksOf i)).exec_next (by simp [h.run])
  rw [State.serve_pc] at hj
  obtain rfl : i = j := Except.ok.inj (hi.symm.trans hj)
  have hnow := now_le_of_exec_serve ht
  rcases hcases with hend | ⟨hrun, hreleased, hleft⟩
  · exact ⟨_, h.step_ended hi ht hend, .inl ⟨hend, Nat.lt_succ_of_le hnow⟩⟩
  · obtain ⟨hstep, hreading⟩ := h.step_running hi ht hrun
    exact ⟨t, hstep, .inr ⟨hreading, hnow, hreleased, by simpa using hleft⟩⟩

/-- From word 7 on the read ends within `stepsLeft` steps, and the pin is an input at each of their ticks. -/
theorem State.Reading.shows_released {f : Tick → Option Level} (h : s.Reading) (hpin : s.Released)
    (hf : ∀ τ, s.now ≤ τ → f τ = none) :
    ∃ k t, k ≤ s.stepsLeft ∧ Shows State.drive f k s t ∧ t.run = 0 ∧ s.now < t.now := by
  induction hleft : s.stepsLeft generalizing s with
  | zero => exact absurd hpin.stepsLeft_pos (by omega)
  | succ n ih =>
    have hfirst : ∀ τ, s.now ≤ τ → s.drive = f τ := fun τ hτ => hpin.drive_eq.trans (hf τ hτ).symm
    obtain ⟨u, hstep, ⟨hend, hnow⟩ | ⟨hreading, hnow, hreleased, hnearer⟩⟩ := h.step_of_released hpin
    · exact ⟨1, u, by omega, h.shows_cons hstep hnow.le (fun τ hτ _ => hfirst τ hτ) (.refl _ _ u), hend, hnow⟩
    · obtain ⟨k, t, hk, hshows, hend, hlt⟩ := ih hreading hreleased (fun τ hτ => hf τ (hnow.trans hτ)) (by omega)
      exact ⟨k + 1, t, by omega, h.shows_cons hstep hnow (fun τ hτ _ => hfirst τ hτ) hshows, hend, hnow.trans_lt hlt⟩

/-! ### The whole read (R145) -/

theorem State.AtWord.released (h : s.AtWord 7 τ 0 l) : s.Released ∧ s.stepsLeft = 165 := by
  have hpc : s.pc.toNat = 7 := congrArg BitVec.toNat h.pc
  have hidx : s.idx.toNat = 0 := congrArg BitVec.toNat h.idx
  refine ⟨⟨h.dir, hpc.ge, fun _ => by omega⟩, ?_⟩
  rw [State.stepsLeft_of_le (by omega), hpc, hidx]

theorem State.AtWord.decodeWord_fetch (h : s.AtWord a τ d l) : decodeWord s.fetch = decodeWord (wordAt a) := by
  rw [State.fetch_eq_wordAt h.rom, h.pc]

/-- A step from word to word, in front of a run: at the ticks it lets pass the pin is as DIR and LVL were before it. -/
theorem State.AtWord.shows_cons {f : Tick → Option Level} {a' : BitVec 4} {τ' : Nat} {d' : BitVec 1} {l' : Level}
    (h : s.AtWord a τ d l) (hstep : step s = .next u) (hu : u.AtWord a' τ' d' l') (hle : τ ≤ τ')
    (hf : ∀ x : Nat, τ ≤ x → x < τ' → (if d = 1 then some l else none) = f x) (hrest : Shows State.drive f n u t) :
    Shows State.drive f (n + 1) s t := by
  obtain rfl := h.now
  obtain rfl := hu.now
  exact h.toReading.shows_cons hstep hle (fun x hfrom hto => h.drive_eq.trans (hf x hfrom hto)) hrest

/-- Settles O42: words 0 to 6 one by one, then the steps from word 7 to the end of the read, and the pin along them all. -/
theorem thePinTickByTick : Obligations.ThePinTickByTick := by
  intro s h
  obtain ⟨s₀, e, r₀, pc₀, now₀⟩ := h.accepted
  obtain ⟨s₁, e₀, w₁⟩ := r₀.step_clrf (by rw [pc₀]; rfl)
  rw [pc₀, now₀] at w₁
  obtain ⟨s₂, e₁, w₂⟩ := w₁.step_dir (d' := 1) rfl
  obtain ⟨s₃, e₂, w₃⟩ := w₂.step_lvl (l' := 0) rfl
  obtain ⟨s₄, e₃, w₄⟩ := w₃.step_dly (n := 3000) rfl
  obtain ⟨s₅, e₄, w₅⟩ := w₄.step_lvl (l' := 1) rfl
  obtain ⟨s₆, e₅, w₆⟩ := w₅.step_dly (n := 25) rfl
  obtain ⟨s₇, e₆, w₇⟩ := w₆.step_dir (d' := 0) rfl
  have hword6 : steps 7 s = .next s₆ := by simp [steps, e, e₀, e₁, e₂, e₃, e₄, e₅]
  have hword7 : steps 8 s = .next s₇ := by simp [steps, e, e₀, e₁, e₂, e₃, e₄, e₅, e₆]
  refine ⟨fun j hj₁ hj₃ => ?_, ⟨s₆, hword6, w₆.now, w₆.decodeWord_fetch⟩,
    ⟨s₇, hword7, w₇.now, w₇.drive_eq, w₇.decodeWord_fetch⟩, ?_⟩
  · obtain rfl | rfl | rfl : j = 1 ∨ j = 2 ∨ j = 3 := by omega
    · exact ⟨s₀, by simp [steps, e], now₀, r₀.run, by rw [pc₀]; rfl⟩
    · exact ⟨s₁, by simp [steps, e, e₀], w₁.now, w₁.run, by rw [w₁.pc]; rfl⟩
    · exact ⟨s₂, by simp [steps, e, e₀, e₁], w₂.now, w₂.run, by rw [w₂.pc]; rfl⟩
  · obtain ⟨hreleased, hleft⟩ := w₇.released
    obtain ⟨k, t, hk, hshows, hend, hlt⟩ := w₇.shows_released (f := startSignal s.now) hreleased fun x hx =>
      startSignal_released (Nat.lt_of_lt_of_le (by omega) (w₇.now ▸ hx))
    have hnow₁ : s₁.now = s₀.now := w₁.now.trans now₀.symm
    have hread : Shows State.drive (startSignal s.now) (k + 7) s₀ t :=
      r₀.shows_cons e₀ hnow₁.ge (fun x hfrom hto => absurd (hfrom.trans_lt hto) hnow₁.not_gt) <|
      w₁.shows_cons e₁ w₂ (by omega) (fun x _ _ => by omega) <|
      w₂.shows_cons e₂ w₃ (by omega) (fun x _ _ => by omega) <|
      w₃.shows_cons e₃ w₄ (by omega) (fun x _ _ => (startSignal_low (by omega)).symm) <|
      w₄.shows_cons e₄ w₅ (by omega) (fun x _ _ => by omega) <|
      w₅.shows_cons e₅ w₆ (by omega) (fun x _ _ => (startSignal_high (by omega) (by omega)).symm) <|
      w₆.shows_cons e₆ w₇ (by omega) (fun x _ _ => by omega) hshows
    refine ⟨k + 8, t, by omega, (steps_succ e _).trans hread.steps_eq, hend, w₇.now ▸ hlt, fun x hfrom hto => ?_⟩
    have hfrom₀ : s₀.now ≤ x := now₀ ▸ hfrom
    exact (portAt_later e (Nat.le_of_lt hfrom) hfrom₀).trans (hread.port_eq x hfrom₀ hto)

end Sys2Proof.Machine
end

section
/-! Proofs of the statements of 43_bit_sampler_packing.md (R150: CLRF; R152: PACK; R154: the frame after 40 iterations), after the
lemmas they rest on. -/

namespace Sys2Proof.Machine

variable {i : Instr} {s t u : State} {n k : Nat}

/-! ### CLRF (R150) -/

/-- The frame number is a function of the FRAME space (R8). -/
theorem State.frameBits_congr (h : s.frame = t.frame) : s.frameBits = t.frameBits := by
  simp only [State.frameBits, State.byte, h]

theorem State.frameBits_of_cleared (h : s.frame = Memory.cleared) : s.frameBits = 0 := by
  simp only [State.frameBits, State.byte, h, Memory.read_cleared]
  decide

/-- Settles O6: every byte of a cleared FRAME space reads as 0. -/
theorem clrfMakesAFreshFrame : Obligations.ClrfMakesAFreshFrame :=
  ⟨rfl, fun _ => ⟨rfl, _, rfl, rfl, Memory.read_cleared, State.frameBits_of_cleared rfl⟩⟩

/-! ### PACK (R152) -/

/-- The word of PACK: OP over the threshold (R152). -/
theorem encode_pack (hn : n < 128) : encode (.pack n) = .micro (0x6000#16 ||| BitVec.ofNat 16 n) := by
  have hop : (0x6#4 ++ 0#5).setWidth 16 <<< 7 = 0x6000#16 := by decide
  have hlow : (BitVec.ofNat 7 n).setWidth 16 = BitVec.ofNat 16 n := BitVec.setWidth_ofNat_of_le_of_lt (by decide) hn
  have hword := BitVec.setWidth_append_eq_shiftLeft_setWidth_or (b := 0x6#4 ++ 0#5) (b' := BitVec.ofNat 7 n) (w'' := 16)
  rw [hop, hlow] at hword
  exact congrArg Code.micro ((BitVec.setWidth_eq _).symm.trans hword)

/-- PACK of a 0 goes on to the next word and does nothing else. -/
theorem exec_pack_zero (h : s.d.toNat ≤ n) : exec (.pack n) s = .next s.nextPc := by
  show execPack n s = _
  simp [execPack, State.bitValue, Nat.not_lt.2 h]

/-- `0x80 >> r` is a 1 shifted left to bit `7 − r`. -/
theorem frameMask_eq_shiftLeft (i : BitVec 6) : frameMask i = 1#8 <<< (7 - i.toNat % 8) := by
  have hmask : ∀ r < 8, 0x80#8 >>> r = 1#8 <<< (7 - r) := by decide
  exact hmask _ (Nat.mod_lt _ (by decide))

/-- Settles O14: a 0 steps PC alone, a 1 is FrameSetBit, which writes the one byte that IDX addresses. -/
theorem packDecidesAndSetsOneBit : Obligations.PackDecidesAndSetsOneBit := by
  intro n s hn
  refine ⟨encode_pack hn, rfl, exec_pack_zero, fun hd hidx => ⟨_, exec_pack_one hidx hd, rfl, ?_, fun a ha => ?_⟩⟩
  · rw [← frameMask_eq_shiftLeft]
    exact (Memory.read_setBit ..).trans (if_pos rfl)
  · exact (Memory.read_setBit ..).trans (if_neg ha)

/-- What PACK does inside the frame, whichever bit it decides. -/
theorem exec_pack_bits (n : Nat) (hidx : s.idx.toNat < 40) :
    ∃ t, exec (.pack n) s = .next t ∧ t = { s with frame := t.frame, pc := s.pc + 1 } ∧
      ∀ j < 40, t.frameBits.getLsbD (39 - j) = (s.frameBits.getLsbD (39 - j) || decide (j = s.idx.toNat ∧ n < s.d.toNat)) := by
  by_cases hd : n < s.d.toNat
  · obtain ⟨t, ht, hbits⟩ := sampleIndexIsBitOfTheFrame n s hidx hd
    obtain rfl := Host.Outcome.next.inj ((exec_pack_one hidx hd).symm.trans ht)
    exact ⟨_, ht, rfl, by simpa only [hd, and_true] using hbits⟩
  · refine ⟨_, exec_pack_zero (Nat.le_of_not_lt hd), rfl, fun j _ => ?_⟩
    rw [State.frameBits_congr (s := s.nextPc) (t := s) rfl, decide_eq_false (fun h => hd h.2), Bool.or_false]

/-! ### The line along a run of steps -/

theorem steps_add {m : Nat} (h : steps m s = .next t) (n : Nat) : steps (m + n) s = steps n t := by
  induction m generalizing s with
  | zero => cases h; rw [Nat.zero_add]
  | succ m ih =>
    rw [Nat.succ_add, steps]
    rw [steps] at h
    cases hstep : step s with
    | next u => rw [hstep] at h; exact ih h
    | fault e => rw [hstep] at h; cases h
    | refused e => rw [hstep] at h; cases h

theorem State.afterIdle_inputs (s : State) : s.afterIdle.inputs = s.inputs := by
  unfold State.afterIdle
  split
  · rfl
  · split <;> simp

/-- No step changes what the environment presents (R37). -/
theorem step_inputs (h : step s = .next t) : t.inputs = s.inputs := by
  unfold step at h
  split at h
  · obtain ⟨i, -, ⟨r, -, rfl⟩ | ⟨-, u, hu, rfl⟩⟩ := microStep_cases h
    · simp
    · obtain ⟨-, hinputs⟩ := exec_rom_inputs hu
      rw [State.afterOp_inputs, hinputs, State.serve_inputs]
  · rcases hostStep_cases h with ⟨-, rfl⟩ | ⟨-, u, hu, rfl⟩
    · simp
    · obtain ⟨-, hinputs⟩ := exec_rom_inputs hu
      rw [State.afterIdle_inputs, hinputs]

/-- No step changes the line. -/
theorem step_line (h : step s = .next t) : t.line = s.line := by
  unfold State.line
  rw [step_inputs h]

/-! ### The runs of the symbols (R81) -/

theorem runsLength_append (xs ys : List (Level × Nat)) : runsLength (xs ++ ys) = runsLength xs + runsLength ys := by
  simp [runsLength]

/-- The line follows one list of runs after another. -/
theorem State.follows_append (s : State) (p : Tick) (xs ys : List (Level × Nat)) :
    s.follows p (xs ++ ys) ↔ s.follows p xs ∧ s.follows (p + runsLength xs) ys := by
  induction xs generalizing p with
  | nil => simp [State.follows, runsLength]
  | cons x xs ih =>
    obtain ⟨l, a⟩ := x
    have hlen : p + runsLength ((l, a) :: xs) = p + a + runsLength xs := by simp [runsLength, Nat.add_assoc]
    rw [List.cons_append, s.follows_cons, s.follows_cons, ih, hlen, and_assoc]

section symbols

variable {low high : Nat → Nat} {p : Tick}

theorem symbolRuns_succ (low high : Nat → Nat) (n : Nat) :
    symbolRuns low high (n + 1) = symbolRuns low high n ++ [(0, low n), (1, high n)] := by
  simp [symbolRuns, List.range_succ]

theorem runsLength_symbolRuns_succ (low high : Nat → Nat) (n : Nat) :
    runsLength (symbolRuns low high (n + 1)) = runsLength (symbolRuns low high n) + low n + high n := by
  rw [symbolRuns_succ, runsLength_append, Nat.add_assoc]
  simp [runsLength]

/-- Symbol `k` stands on the line after the runs of the symbols before it. -/
theorem symbol_of_follows (h : s.follows p (symbolRuns low high n)) (hk : k < n) :
    (∀ j < low k, s.line (p + runsLength (symbolRuns low high k) + j) = 0) ∧
    ∀ j < high k, s.line (p + runsLength (symbolRuns low high k) + low k + j) = 1 := by
  induction n with
  | zero => exact absurd hk (Nat.not_lt_zero k)
  | succ n ih =>
    rw [symbolRuns_succ, s.follows_append] at h
    obtain ⟨hbefore, hlast⟩ := h
    rcases Nat.lt_succ_iff_lt_or_eq.1 hk with hlt | rfl
    · exact ih hbefore hlt
    · rw [s.follows_cons, s.follows_cons] at hlast
      obtain ⟨hlow, hhigh, -⟩ := hlast
      exact ⟨hlow, hhigh⟩

/-- The line is low where the `k`-th symbol begins, or where the last one ended. -/
theorem low_at_symbol (h : s.follows p (symbolRuns low high n)) (hpos : ∀ j < n, 1 ≤ low j)
    (hend : s.line (p + runsLength (symbolRuns low high n)) = 0) (hk : k ≤ n) :
    s.line (p + runsLength (symbolRuns low high k)) = 0 := by
  rcases Nat.lt_or_eq_of_le hk with hlt | rfl
  · exact (symbol_of_follows h hlt).1 0 (hpos k hlt)
  · exact hend

end symbols

/-! ### A read, operation by operation -/

/-- A read stands at word `a` at tick `τ`, on the line `L`, with IDX and the bits of the frame as given. -/
structure State.Sampling (s : State) (L : Tick → Level) (a : BitVec 4) (τ idx : Nat) (bits : Nat → Bool) : Prop
    extends s.Reading where
  line : s.line = L
  pc : s.pc = a
  now : s.now = τ
  idx : s.idx.toNat = idx
  bits : ∀ j < 40, s.frameBits.getLsbD (39 - j) = bits j

section Sampling

variable {L : Tick → Level} {a b : BitVec 4} {τ x y : Nat} {f g : Nat → Bool} (h : s.Sampling L a τ x f)
include h

/-- An operation that goes on with the read is the whole step, on the same line. -/
theorem State.Sampling.step_exec (hi : decodeWord (wordAt a) = .ok i) (hu : exec i (s.serve (s.ticksOf i)) = .next u)
    (hrun : u.run = 1) (hpc : u.pc = b) (hidx : u.idx.toNat = y) (hbits : ∀ j < 40, u.frameBits.getLsbD (39 - j) = g j) :
    step s = .next u ∧ u.Sampling L b (τ + s.ticksOf i) y g := by
  obtain ⟨hstep, hreading⟩ := h.step_running (h.pc ▸ hi) hu hrun
  refine ⟨hstep, hreading, (step_line hstep).trans h.line, hpc, ?_, hidx, hbits⟩
  rw [exec_now hu, s.serve_now, h.now, State.ticksOf_congr (s.serve_now _) (s.serve_inputs _)]

/-- An operation that steps PC and leaves RUN, IDX and the frame alone. -/
theorem State.Sampling.step_keeping (hi : decodeWord (wordAt a) = .ok i) (hu : exec i (s.serve (s.ticksOf i)) = .next u)
    (hrun : u.run = s.run) (hpc : u.pc = s.pc + 1) (hidx : u.idx = s.idx) (hframe : u.frame = s.frame) :
    step s = .next u ∧ u.Sampling L (a + 1) (τ + s.ticksOf i) x f :=
  h.step_exec hi hu (hrun.trans h.run) (by rw [hpc, h.pc]) (by rw [hidx, h.idx]) fun j hj => by
    rw [State.frameBits_congr hframe, h.bits j hj]

theorem State.Sampling.step_clrf (hi : decodeWord (wordAt a) = .ok .clrf) :
    ∃ t, step s = .next t ∧ t.Sampling L (a + 1) τ 0 (fun _ => false) :=
  ⟨_, h.step_exec hi rfl (by simp [h.run]) (by simp [h.pc]) rfl fun j _ => by
    rw [State.frameBits_of_cleared rfl, BitVec.ofNat_eq_ofNat, BitVec.getLsbD_zero]⟩

theorem State.Sampling.step_dir {d : BitVec 1} (hi : decodeWord (wordAt a) = .ok (.dir d)) :
    ∃ t, step s = .next t ∧ t.Sampling L (a + 1) τ x f :=
  ⟨_, h.step_keeping hi rfl (by simp) (by simp) (by simp) (by simp)⟩

theorem State.Sampling.step_lvl {l : Level} (hi : decodeWord (wordAt a) = .ok (.lvl l)) :
    ∃ t, step s = .next t ∧ t.Sampling L (a + 1) τ x f :=
  ⟨_, h.step_keeping hi rfl (by simp) (by simp) (by simp) (by simp)⟩

theorem State.Sampling.step_dly (hi : decodeWord (wordAt a) = .ok (.dly n)) :
    ∃ t, step s = .next t ∧ t.Sampling L (a + 1) (τ + n) x f :=
  ⟨_, h.step_keeping hi rfl (by simp) (by simp) (by simp) (by simp)⟩

/-- A run of the measured level that is no longer than the timeout is left in D (R112). -/
theorem State.Sampling.step_meas {l : Level} (hi : decodeWord (wordAt a) = .ok (.meas n l)) (hn : n < 2048) (hk : k ≤ n)
    (hrun : ∀ j < k, L (τ + j) = l) (hend : L (τ + k) ≠ l) :
    ∃ t, step s = .next t ∧ t.Sampling L (a + 1) (τ + k) x f ∧ t.d.toNat = k := by
  obtain rfl := h.line
  obtain rfl := h.now
  have hdur : s.duration n l = some k := (duration_some s n l k).2 ⟨Nat.le_add_right_of_le hk, hrun, hend⟩
  have hticks : s.ticksOf (.meas n l) = k := by rw [State.ticksOf, hdur, Option.getD_some]
  have hserved : (s.serve (s.ticksOf (.meas n l))).duration n l = some k := by rw [State.serve_duration, hdur]
  obtain ⟨hstep, hnext⟩ :=
    h.step_keeping hi (exec_meas_of_duration_some hserved) (by simp) (by simp) (by simp) (by simp)
  exact ⟨_, hstep, hticks ▸ hnext, measured_d_toNat hn hserved⟩

/-- PACK adds to the bits of the frame the one it decides, at index `x`. -/
theorem State.Sampling.step_pack (hi : decodeWord (wordAt a) = .ok (.pack n)) (hx : x < 40) :
    ∃ t, step s = .next t ∧ t.Sampling L (a + 1) τ x (fun j => f j || decide (j = x ∧ n < s.d.toNat)) := by
  obtain ⟨t, ht, hframe, hbits⟩ := exec_pack_bits (s := s.serve 0) n (by rwa [s.serve_idx, h.idx])
  have hserved : (s.serve 0).frameBits = s.frameBits := State.frameBits_congr (s.serve_frame 0)
  refine ⟨t, h.step_exec hi ht ?_ ?_ ?_ fun j hj => ?_⟩
  · rw [hframe]; simp [h.run]
  · rw [hframe]; simp [h.pc]
  · rw [hframe]; simp [h.idx]
  · rw [hbits j hj, hserved, h.bits j hj, s.serve_idx, s.serve_d, h.idx]

/-- LOOP counts one bit and goes back to word `b` until the count is `c` (R127). -/
theorem State.Sampling.step_loop {c : BitVec 6} (hi : decodeWord (wordAt a) = .ok (.loop b c)) (hx : x < 63) :
    ∃ t, step s = .next t ∧ t.Sampling L (if x + 1 = c.toNat then a + 1 else b) τ (x + 1) f := by
  have hcount : (s.idx + 1).toNat = x + 1 := by
    rw [← h.idx]
    exact BitVec.toNat_add_of_lt (by simp [h.idx]; omega)
  have hlast : s.idx + 1 = c ↔ x + 1 = c.toNat := by rw [← hcount, BitVec.toNat_inj]
  refine ⟨_, h.step_exec hi rfl (by simp [h.run]) ?_ (by simpa using hcount) fun j hj => ?_⟩
  · simp only [State.serve_idx, State.serve_pc, hlast, h.pc]
  · exact (congrArg (·.getLsbD (39 - j)) (State.frameBits_congr (s.serve_frame _))).trans (h.bits j hj)

/-- Two measurements, of a low phase and of the high phase after it (R81): the second leaves its duration in D. -/
theorem State.Sampling.steps_low_high {n' k' : Nat} (hi : decodeWord (wordAt a) = .ok (.meas n 0))
    (hi' : decodeWord (wordAt (a + 1)) = .ok (.meas n' 1)) (hn : n < 2048) (hn' : n' < 2048) (hk : k ≤ n)
    (hk' : 1 ≤ k' ∧ k' ≤ n') (hlow : ∀ j < k, L (τ + j) = 0) (hhigh : ∀ j < k', L (τ + k + j) = 1)
    (hend : L (τ + k + k') = 0) :
    ∃ t, steps 2 s = .next t ∧ t.Sampling L (a + 1 + 1) (τ + k + k') x f ∧ t.d.toNat = k' := by
  obtain ⟨hpos, hfits⟩ := hk'
  have hrise : L (τ + k) = 1 := hhigh 0 hpos
  obtain ⟨u, e₀, w, -⟩ := h.step_meas hi hn hk hlow (by rw [hrise]; decide)
  obtain ⟨t, e₁, w', hd⟩ := w.step_meas hi' hn' hfits hhigh (by rw [hend]; decide)
  exact ⟨t, by simp [steps, e₀, e₁], w', hd⟩

end Sampling

/-! ### The start signal (R129) -/

/-- Words 0 to 6: the block has sent its request and released the pin. -/
theorem State.AboutToRead.starts (h : s.AboutToRead) :
    ∃ t, steps 8 s = .next t ∧ t.Sampling s.line 7 (s.now + 3026) 0 (fun _ => false) := by
  obtain ⟨s₀, e, r₀, hpc, hnow⟩ := h.accepted
  have w₀ : s₀.Sampling s.line 0 (s.now + 1) s₀.idx.toNat (fun j => s₀.frameBits.getLsbD (39 - j)) :=
    ⟨r₀, step_line e, hpc, hnow, rfl, fun _ _ => rfl⟩
  obtain ⟨s₁, e₀, w₁⟩ := w₀.step_clrf rfl
  obtain ⟨s₂, e₁, w₂⟩ := w₁.step_dir (d := 1) rfl
  obtain ⟨s₃, e₂, w₃⟩ := w₂.step_lvl (l := 0) rfl
  obtain ⟨s₄, e₃, w₄⟩ := w₃.step_dly (n := 3000) rfl
  obtain ⟨s₅, e₄, w₅⟩ := w₄.step_lvl (l := 1) rfl
  obtain ⟨s₆, e₅, w₆⟩ := w₅.step_dly (n := 25) rfl
  obtain ⟨s₇, e₆, w₇⟩ := w₆.step_dir (d := 0) rfl
  exact ⟨s₇, by simp [steps, e, e₀, e₁, e₂, e₃, e₄, e₅, e₆], w₇⟩

/-! ### The 40 iterations (R154) -/

/-- Bit `j` of the frame, by sample index, when the first `i` symbols have been decided and the others have not. -/
def decidedBits (high : Nat → Nat) (i j : Nat) : Bool := decide (j < i ∧ Config.thBit < high j)

theorem decidedBits_zero (high : Nat → Nat) : decidedBits high 0 = fun _ => false := by
  funext j
  simp [decidedBits]

/-- Deciding one symbol more. -/
theorem decidedBits_succ (high : Nat → Nat) (i j : Nat) :
    decidedBits high (i + 1) j = (decidedBits high i j || decide (j = i ∧ Config.thBit < high i)) := by
  by_cases hj : j = i
  · subst hj
    simp [decidedBits]
  · have hlt : j < i + 1 ↔ j < i := by omega
    simp [decidedBits, hj, hlt]

/-- The word after `i` symbols: MEAS of the next one at 9, or EXTR at 13 (R122, R127). -/
def wordAfterBits (i : Nat) : BitVec 4 := if i = 40 then 13 else 9

section iterations

variable {L : Tick → Level} {low high : Nat → Nat} {p τ ackLow ackHigh : Nat}

/-- Words 9 to 12: MEAS, MEAS, PACK and LOOP decide one symbol and count it. -/
theorem State.Sampling.decides_bit (h : s.Sampling L (wordAfterBits k) τ k (decidedBits high k)) (hk : k < 40)
    (hfits : low k ≤ Config.tBitLow) (hfits' : 1 ≤ high k ∧ high k ≤ Config.tBitHigh) (hlow : ∀ j < low k, L (τ + j) = 0)
    (hhigh : ∀ j < high k, L (τ + low k + j) = 1) (hend : L (τ + low k + high k) = 0) :
    ∃ t, steps 4 s = .next t ∧
      t.Sampling L (wordAfterBits (k + 1)) (τ + low k + high k) (k + 1) (decidedBits high (k + 1)) := by
  rw [wordAfterBits, if_neg hk.ne] at h
  obtain ⟨s₂, e₁, w₂, hd⟩ := h.steps_low_high (n := 56) (n' := 75) rfl rfl (by decide) (by decide) hfits hfits' hlow hhigh hend
  obtain ⟨s₃, e₂, w₃⟩ := w₂.step_pack (n := 40) rfl hk
  obtain ⟨s₄, e₃, w₄⟩ := w₃.step_loop (b := 9) (c := 40) rfl (by omega)
  have hbits : decidedBits high (k + 1) = fun j => decidedBits high k j || decide (j = k ∧ 40 < s₂.d.toNat) := by
    funext j
    rw [decidedBits_succ, hd]
    rfl
  exact ⟨s₄, (steps_add e₁ 2).trans (by simp [steps, e₂, e₃]), hbits ▸ w₄⟩

/-- The loop, by induction on the symbols it has decided. -/
theorem State.Sampling.decides_bits (h : t.Sampling s.line 9 p 0 (fun _ => false))
    (hfits : ∀ j < 40, (1 ≤ low j ∧ low j ≤ Config.tBitLow) ∧ (1 ≤ high j ∧ high j ≤ Config.tBitHigh))
    (hline : s.follows p (symbolRuns low high 40)) (hend : s.line (p + runsLength (symbolRuns low high 40)) = 0)
    (hk : k ≤ 40) :
    ∃ u, steps (4 * k) t = .next u ∧
      u.Sampling s.line (wordAfterBits k) (p + runsLength (symbolRuns low high k)) k (decidedBits high k) := by
  induction k with
  | zero => exact ⟨t, rfl, decidedBits_zero high ▸ h⟩
  | succ k ih =>
    obtain ⟨u, hsteps, hu⟩ := ih (Nat.le_of_succ_le hk)
    obtain ⟨⟨-, hlowFits⟩, hhighFits⟩ := hfits k hk
    obtain ⟨hlow, hhigh⟩ := symbol_of_follows hline hk
    have hlen : p + runsLength (symbolRuns low high (k + 1)) = p + runsLength (symbolRuns low high k) + low k + high k := by
      rw [runsLength_symbolRuns_succ]
      omega
    have hnext := low_at_symbol hline (fun j hj => (hfits j hj).1.1) hend hk
    rw [hlen] at hnext ⊢
    obtain ⟨v, hfour, hv⟩ := hu.decides_bit hk hlowFits hhighFits hlow hhigh hnext
    exact ⟨v, (steps_add hsteps 4).trans hfour, hv⟩

theorem runsLength_transmission (ackLow ackHigh : Nat) (low high : Nat → Nat) :
    runsLength (transmission ackLow ackHigh low high) = ackLow + ackHigh + runsLength (symbolRuns low high Config.nBits) := by
  simp [transmission, runsLength, Nat.add_assoc]

/-- A transmission on the line: the two phases of the acknowledgement, then the symbols. -/
theorem State.follows_transmission (s : State) (p : Tick) (ackLow ackHigh : Nat) (low high : Nat → Nat) :
    s.follows p (transmission ackLow ackHigh low high) ↔
      (∀ j < ackLow, s.line (p + j) = 0) ∧ (∀ j < ackHigh, s.line (p + ackLow + j) = 1) ∧
        s.follows (p + ackLow + ackHigh) (symbolRuns low high Config.nBits) := by
  rw [transmission, s.follows_cons, s.follows_cons]

end iterations

/-- Settles O44: the start signal, the acknowledgement, and the loop, which decides all 40 bits. -/
theorem theFrameHoldsTheDecidedBits : Obligations.TheFrameHoldsTheDecidedBits := by
  intro s ackLow ackHigh low high hread haccepted hline hend
  obtain ⟨hackLow, hackHigh, hfits⟩ := haccepted
  obtain ⟨hlow, hhigh, hsymbols⟩ := (s.follows_transmission ..).1 hline
  rw [runsLength_transmission, ← Nat.add_assoc, ← Nat.add_assoc] at hend ⊢
  have hfirst : s.line (s.now + 3026 + ackLow + ackHigh) = 0 :=
    low_at_symbol hsymbols (fun j hj => (hfits j hj).1.1) hend (Nat.zero_le _)
  obtain ⟨u, e₀, hu⟩ := hread.starts
  obtain ⟨v, e₁, hv, -⟩ :=
    hu.steps_low_high (n := 85) (n' := 85) rfl rfl (by decide) (by decide) hackLow hackHigh hlow hhigh hfirst
  obtain ⟨t, e₂, ht⟩ := hv.decides_bits hfits hsymbols hend (k := 40) (Nat.le_refl _)
  have hfetch : decodeWord t.fetch = .ok .extr := by
    rw [State.fetch_eq_wordAt ht.rom, ht.pc]
    rfl
  refine ⟨t, (steps_add e₀ 162).trans ((steps_add e₁ 160).trans e₂), ht.run, hfetch, ht.now, fun j hj => ?_⟩
  rw [ht.bits j hj, decidedBits, decide_eq_decide]
  exact and_iff_right hj

end Sys2Proof.Machine
end

section
/-! Proofs of the statements of 44_extract_commit_accessors.md (R160, R161: EXTR; R164, R165: CMT; R166: HUM; R167: TEMP; R168: the
value of a reading), after the lemmas they rest on. -/

namespace Sys2Proof.Machine

variable {i : Instr} {s s₁ s₂ t : State}

/-! ### EXTR (R160, R161) -/

/-- Concatenation is bit placement: the high part times a power of two, plus the low part (R161). -/
theorem toNat_append_eq_add {m n : Nat} (x : BitVec m) (y : BitVec n) : (x ++ y).toNat = x.toNat * 2 ^ n + y.toNat := by
  rw [BitVec.toNat_append, ← Nat.shiftLeft_add_eq_or_of_lt y.isLt, Nat.shiftLeft_eq]

/-- The low seven bits of a byte are its AND with 0x7F. -/
theorem toNat_extract_low_seven (b : Byte) : (b.extractLsb' 0 7).toNat = (b &&& 0x7F#8).toNat := by
  rw [BitVec.extractLsb'_toNat, BitVec.toNat_and, Nat.shiftRight_zero]
  exact (Nat.and_two_pow_sub_one_eq_mod b.toNat 7).symm

theorem State.humField_toNat (s : State) : s.humField.toNat = (s.byte 0).toNat * 256 + (s.byte 1).toNat :=
  toNat_append_eq_add _ _

theorem State.signField_getLsbD (s : State) : s.signField.getLsbD 0 = (s.byte 2).getLsbD 7 :=
  BitVec.getLsbD_extractLsb' 7 1 (s.byte 2) 0

theorem State.magField_toNat (s : State) :
    s.magField.toNat = ((s.byte 2) &&& 0x7F#8).toNat * 256 + (s.byte 3).toNat := by
  rw [← toNat_extract_low_seven]
  exact toNat_append_eq_add _ _

/-- Settles O18: EXTR writes the three fields, whose values as numbers are those of the bytes. -/
theorem extrExtractsTheFields : Obligations.ExtrExtractsTheFields :=
  ⟨rfl, fun s => ⟨rfl, _, rfl, rfl, rfl, s.humField_toNat, s.signField_getLsbD, s.magField_toNat⟩⟩

/-! ### CMT (R164) -/

/-- A `ret` put out last is what `done` and `done_code` show at its tick (R68). -/
theorem State.done_of_log_ret {p : Tick} {c : BitVec 2} {log : List Event} (h : t.log = .ret p c :: log) :
    t.done p = true ∧ t.doneCode p = c := by
  simp [State.done, State.doneCode, h, Event.retAt]

/-- A running step that no reset drops is `exec` of the decoded word, after the host's answers (R121). -/
theorem step_of_decoded (hrun : s.run = 1) (hi : decodeWord s.fetch = .ok i)
    (hreset : s.inputs.firstReset s.now (s.ticksOf i) = none) :
    step s = mapNext State.afterOp (exec i (s.serve (s.ticksOf i))) := by
  unfold step microStep
  rw [if_pos hrun, hi]
  simp only [hreset]

/-- A span of no ticks has no reset. -/
theorem firstReset_zero (e : Inputs) (p : Tick) : e.firstReset p 0 = none :=
  firstReset_none.2 fun _ _ hlt => hlt

/-- What CMT leaves: the three working registers committed, and the read ended with Ok. -/
def State.committed (s : State) : State :=
  State.endRead { s with hum := s.th, tneg := s.tn, tmag := s.tm } .ok

theorem exec_cmt (s : State) : exec .cmt s = .next s.committed := rfl

/-- The step that runs CMT commits and lets its tick pass; no reset can drop it. -/
theorem step_cmt (hrun : s.run = 1) (hi : decodeWord s.fetch = .ok .cmt) :
    step s = .next ((s.serve 0).committed.pass 1) := by
  rw [step_of_decoded hrun hi (firstReset_zero _ _)]
  exact congrArg Host.Outcome.next (State.afterOp_of_ended rfl)

/-- Settles O20: CMT by itself, the ports read from its `ret`, and the step that runs it. -/
theorem cmtCommitsAndEndsTheRead : Obligations.CmtCommitsAndEndsTheRead := by
  refine ⟨rfl, fun s => ?_⟩
  obtain ⟨hdone, hcode⟩ := State.done_of_log_ret (t := s.committed) rfl
  refine ⟨rfl, _, exec_cmt s, rfl, hdone, hcode, errorCount_cons_ret _ _ _, fun hrun hi => ⟨_, step_cmt hrun hi, ?_⟩⟩
  simp [State.committed, State.humResponse, State.tempResponse]

/-! ### The retained registers (R165) -/

/-- HUM, TNEG and TMAG. -/
def State.retained (s : State) : BitVec 16 × BitVec 1 × BitVec 15 := (s.hum, s.tneg, s.tmag)

theorem State.retained_eq_iff {h : BitVec 16} {n : BitVec 1} {m : BitVec 15} :
    s.retained = (h, n, m) ↔ s.hum = h ∧ s.tneg = n ∧ s.tmag = m := by
  simp [State.retained]

@[simp] theorem State.serve_retained (s : State) (n : Nat) : (s.serve n).retained = s.retained := by simp [State.retained]

@[simp] theorem State.afterOp_retained (s : State) : s.afterOp.retained = s.retained := by simp [State.retained]

/-- No operation but CMT writes a retained register. -/
theorem exec_retained (hcmt : i ≠ .cmt) (h : exec i s = .next t) : t.retained = s.retained := by
  cases i with
  | read => rcases execRead_cases h with ⟨-, rfl⟩ | ⟨-, rfl⟩ <;> rfl
  | meas n l => rcases execMeas_cases h with ⟨k, -, rfl⟩ | ⟨-, rfl⟩ <;> rfl
  | pack n => rcases execPack_cases h with ⟨-, rfl⟩ | ⟨-, -, rfl⟩ <;> rfl
  | vrfy => rcases execVrfy_cases h with ⟨-, rfl⟩ | ⟨-, rfl⟩ <;> rfl
  | cmt => exact absurd rfl hcmt
  | _ => cases h; rfl

/-- A step from `s` to `t` ended in a reset, at a tick of its own (R231). -/
def EndsInReset (s t : State) : Prop := ∃ u r, r ∈ s.inputs.resets ∧ s.now ≤ r ∧ t = State.resetAt u r

/-- A reset is an exception to R165: the retained registers are 0 after it, at the tick after its own. -/
theorem EndsInReset.retained_zero (h : EndsInReset s t) :
    (∃ r ∈ s.inputs.resets, s.now ≤ r ∧ t.now = r + 1) ∧ t.hum = 0 ∧ t.tneg = 0 ∧ t.tmag = 0 := by
  obtain ⟨u, r, hmem, hle, rfl⟩ := h
  exact ⟨⟨r, hmem, hle, rfl⟩, rfl, rfl, rfl⟩

/-- The end of an idle tick leaves the retained registers alone, unless the tick it enters has a reset. -/
theorem State.afterIdle_retained (s : State) : s.afterIdle.retained = s.retained ∨ EndsInReset s s.afterIdle := by
  unfold State.afterIdle
  split
  · exact .inl rfl
  · split
    · next r hr =>
      obtain ⟨hmem, hlt, -⟩ := firstReset_mem hr
      exact .inr ⟨s, r, hmem, hlt.le, rfl⟩
    · exact .inl (s.serve_retained 1)

/-- A running step keeps the retained registers, unless its word is CMT or it ends in a reset. -/
theorem microStep_retained (h : microStep s = .next t) :
    t.retained = s.retained ∨ decodeWord s.fetch = .ok .cmt ∨ EndsInReset s t := by
  obtain ⟨i, hi, ⟨r, hr, rfl⟩ | ⟨-, u, hu, rfl⟩⟩ := microStep_cases h
  · obtain ⟨hmem, hlt, -⟩ := firstReset_mem hr
    exact .inr (.inr ⟨_, r, hmem, hlt.le, rfl⟩)
  · by_cases hcmt : i = .cmt
    · exact .inr (.inl (hcmt ▸ hi))
    · left
      rw [State.afterOp_retained, exec_retained hcmt hu, State.serve_retained]

/-- An idle tick keeps the retained registers, unless it ends in a reset. -/
theorem hostStep_retained (h : hostStep s = .next t) : t.retained = s.retained ∨ EndsInReset s t := by
  rcases hostStep_cases h with ⟨hrst, rfl⟩ | ⟨-, u, hu, rfl⟩
  · exact .inr ⟨s, s.now, List.contains_iff_mem.1 hrst, le_rfl, rfl⟩
  · have hcmt : ∀ c : BitVec 2, decodeHost c ≠ .cmt := by decide
    obtain ⟨-, hin⟩ := exec_rom_inputs hu
    rcases u.afterIdle_retained with hkept | ⟨v, r, hmem, hle, hv⟩
    · exact .inl (hkept.trans (exec_retained (hcmt _) hu))
    · rw [hin] at hmem
      rw [exec_now hu] at hle
      exact .inr ⟨v, r, hmem, (Nat.le_add_right _ _).trans hle, hv⟩

/-- Settles O29: a step that is neither CMT nor ended by a reset keeps the retained registers. -/
theorem onlyCmtWritesTheRetainedRegisters : Obligations.OnlyCmtWritesTheRetainedRegisters := by
  intro s t h hchanged
  have hne : t.retained ≠ s.retained := fun heq => hchanged (State.retained_eq_iff.1 heq)
  by_cases hrun : s.run = 1
  · have hmicro : microStep s = .next t := by rwa [step, if_pos hrun] at h
    obtain hcmt | hends := (microStep_retained hmicro).resolve_left hne
    · obtain rfl := Host.Outcome.next.inj ((step_cmt hrun hcmt).symm.trans h)
      exact .inl ⟨hrun, hcmt, by simp [State.committed, Outcome.code]⟩
    · exact .inr hends.retained_zero
  · have hhost : hostStep s = .next t := by rwa [step, if_neg hrun] at h
    exact .inr ((hostStep_retained hhost).resolve_left hne).retained_zero

/-! ### HUM and TEMP (R166, R167) -/

/-- A response put out at this tick is what `hresp` shows at it (R68). -/
theorem State.hresp_emit (s : State) (v : Word) : (s.emit (.hresp s.now v)).hresp s.now = v := by
  simp [State.hresp, Event.responseAt]

/-- Settles O4: HUM puts out the register HUM and touches the log alone. -/
theorem humAnswersTheRetainedHumidity : Obligations.HumAnswersTheRetainedHumidity :=
  fun s => ⟨_, rfl, rfl, s.hresp_emit s.hum, fun _ => rfl⟩

/-- The sign flag is bit 15 of the response to TEMP (R88). -/
theorem State.tempResponse_sign (s : State) : s.tempResponse.getLsbD 15 = s.tneg.getLsbD 0 := by
  rw [State.tempResponse, BitVec.getLsbD_append, if_neg (by decide)]

/-- The magnitude is bits 14:0 of the response to TEMP (R88). -/
theorem State.tempResponse_magnitude (s : State) : s.tempResponse.extractLsb' 0 15 = s.tmag :=
  BitVec.extractLsb'_append_eq_right

theorem State.tempResponse_toNat (s : State) : s.tempResponse.toNat = s.tneg.toNat * 32768 + s.tmag.toNat :=
  toNat_append_eq_add _ _

/-- Settles O5: TEMP puts out the two registers side by side and touches the log alone. -/
theorem tempAnswersSignAndMagnitude : Obligations.TempAnswersSignAndMagnitude := by
  intro s
  refine ⟨s.emit (.hresp s.now s.tempResponse), rfl, ⟨_, rfl⟩, ?_⟩
  rw [s.hresp_emit]
  exact ⟨s.tempResponse_sign, s.tempResponse_magnitude, s.tempResponse_toNat, fun _ => rfl⟩

/-! ### The value of a reading (R168) -/

/-- The temperature in tenths of a degree, as an integer with its sign. -/
def State.tenths (s : State) : ℤ := if s.tneg = 0 then s.tmag.toNat else -s.tmag.toNat

theorem State.tenths_of_positive (h : s.tneg = 0) : s.tenths = s.tmag.toNat := if_pos h

theorem State.tenths_of_negative (h : s.tneg = 1) : s.tenths = -s.tmag.toNat := if_neg (by simp [h])

theorem State.tenths_cases (s : State) :
    (s.tneg = 0 ∧ s.tenths = s.tmag.toNat) ∨ (s.tneg = 1 ∧ s.tenths = -s.tmag.toNat) :=
  (BitVec.eq_zero_or_eq_one s.tneg).imp (fun h => ⟨h, State.tenths_of_positive h⟩) fun h => ⟨h, State.tenths_of_negative h⟩

theorem State.tenths_abs_le (s : State) : -32767 ≤ s.tenths ∧ s.tenths ≤ 32767 := by
  have hmag := s.tmag.isLt
  rcases s.tenths_cases with ⟨-, h⟩ | ⟨-, h⟩ <;> omega

/-- With one sign, tenths are equal exactly when the magnitudes are. -/
theorem State.tenths_eq_iff_of_sign_eq (hsign : s₁.tneg = s₂.tneg) : s₁.tenths = s₂.tenths ↔ s₁.tmag = s₂.tmag := by
  unfold State.tenths
  rw [hsign]
  split <;> simp [BitVec.toNat_inj]

/-- With opposite signs, tenths are equal at the two zeros alone (R169). -/
theorem State.tenths_eq_iff_of_sign_ne (hsign : s₁.tneg ≠ s₂.tneg) :
    s₁.tenths = s₂.tenths ↔ s₁.tmag = 0 ∧ s₂.tmag = 0 := by
  have hzero (s : State) : s.tmag = 0 ↔ s.tmag.toNat = 0 := BitVec.toNat_inj.symm
  rw [hzero, hzero]
  rcases s₁.tenths_cases with ⟨hs₁, h₁⟩ | ⟨hs₁, h₁⟩ <;> rcases s₂.tenths_cases with ⟨hs₂, h₂⟩ | ⟨hs₂, h₂⟩
  · exact absurd (hs₁.trans hs₂.symm) hsign
  · omega
  · omega
  · exact absurd (hs₁.trans hs₂.symm) hsign

/-- Tenths tell apart all pairs of sign and magnitude but the two zeros. -/
theorem State.tenths_eq_iff (s₁ s₂ : State) :
    s₁.tenths = s₂.tenths ↔ (s₁.tneg = s₂.tneg ∧ s₁.tmag = s₂.tmag) ∨ (s₁.tmag = 0 ∧ s₂.tmag = 0) := by
  by_cases hsign : s₁.tneg = s₂.tneg
  · rw [State.tenths_eq_iff_of_sign_eq hsign, or_iff_left_of_imp fun ⟨h₁, h₂⟩ => ⟨hsign, h₁.trans h₂.symm⟩]
    exact (and_iff_right hsign).symm
  · rw [State.tenths_eq_iff_of_sign_ne hsign, or_iff_right fun h => hsign h.1]

theorem State.temperature_mul_ten (s : State) : s.temperature * 10 = s.tenths := by
  unfold State.temperature State.tenths
  split <;> push_cast <;> ring

theorem State.humidity_mul_ten (s : State) : s.humidity * 10 = s.hum.toNat :=
  div_mul_cancel₀ _ (by norm_num)

theorem State.humidity_range (s : State) : 0 ≤ s.humidity ∧ s.humidity ≤ 65535 / 10 := by
  have hle : (s.hum.toNat : ℚ) ≤ 65535 := mod_cast Nat.le_of_lt_succ s.hum.isLt
  have hnonneg : (0 : ℚ) ≤ s.hum.toNat := Nat.cast_nonneg _
  have hten := s.humidity_mul_ten
  constructor <;> linarith

theorem State.temperature_range (s : State) : -(32767 / 10) ≤ s.temperature ∧ s.temperature ≤ 32767 / 10 := by
  obtain ⟨hlow, hhigh⟩ := s.tenths_abs_le
  have hlow' : (-32767 : ℚ) ≤ s.tenths := mod_cast hlow
  have hhigh' : (s.tenths : ℚ) ≤ 32767 := mod_cast hhigh
  have hten := s.temperature_mul_ten
  constructor <;> linarith

theorem State.humidity_eq_iff (s₁ s₂ : State) : s₁.humidity = s₂.humidity ↔ s₁.hum = s₂.hum := by
  rw [← mul_left_inj' (by norm_num : (10 : ℚ) ≠ 0), State.humidity_mul_ten, State.humidity_mul_ten, Nat.cast_inj,
    BitVec.toNat_inj]

theorem State.temperature_eq_iff (s₁ s₂ : State) : s₁.temperature = s₂.temperature ↔ s₁.tenths = s₂.tenths := by
  rw [← mul_left_inj' (by norm_num : (10 : ℚ) ≠ 0), State.temperature_mul_ten, State.temperature_mul_ten, Int.cast_inj]

/-- Settles O56: both readings are integers over ten, and the integers are those of the registers. -/
theorem readingsAreTenths : Obligations.ReadingsAreTenths := by
  refine ⟨fun s => ?_, fun s₁ s₂ => ⟨s₁.humidity_eq_iff s₂, (s₁.temperature_eq_iff s₂).trans (s₁.tenths_eq_iff s₂)⟩⟩
  obtain ⟨hhum₀, hhum₁⟩ := s.humidity_range
  refine ⟨s.humidity_mul_ten, hhum₀, hhum₁, fun h => ?_, fun h => ?_, s.temperature_range⟩
  · rw [s.temperature_mul_ten, State.tenths_of_positive h, Int.cast_natCast]
  · rw [s.temperature_mul_ten, State.tenths_of_negative h, Int.cast_neg, Int.cast_natCast]

end Sys2Proof.Machine
end

section
/-! Proofs of the statements of 45_checksum.md (R183: what the verdict of VRFY depends on; R184: what VRFY catches and misses), after
the lemmas they rest on. -/

namespace Sys2Proof.Machine

variable {s s₁ s₂ t t₁ t₂ : State}

/-! ### The verdict (R181, R183) -/

/-- VRFY of a frame that does not match raises ChecksumMismatch. -/
theorem exec_vrfy_of_mismatch (h : s.checksum ≠ s.byte 4) :
    exec .vrfy s = .next ({ s with sum := s.checksum }.raise .checksumMismatch) := by
  show execVrfy s = _
  simp [execVrfy, State.checksumEqual, h]

/-- VRFY raises exactly when the sum differs from byte 4. -/
theorem exec_vrfy_raises_iff (h : exec .vrfy s = .next t) : errorCount s.log < errorCount t.log ↔ s.checksum ≠ s.byte 4 := by
  by_cases hmatch : s.checksum = s.byte 4
  · cases (exec_vrfy_of_match hmatch).symm.trans h
    simp [hmatch]
  · cases (exec_vrfy_of_mismatch hmatch).symm.trans h
    simp [hmatch]

/-- The checksum is the sum of the four bytes as numbers, modulo 256 (R182). -/
theorem State.checksum_toNat (s : State) :
    s.checksum.toNat = ((s.byte 0).toNat + (s.byte 1).toNat + (s.byte 2).toNat + (s.byte 3).toNat) % 256 := by
  unfold State.checksum
  simp only [BitVec.toNat_add]
  omega

/-- The verdict is a function of the checksum and of byte 4 (R183). -/
theorem exec_vrfy_raises_congr (h₁ : exec .vrfy s₁ = .next t₁) (h₂ : exec .vrfy s₂ = .next t₂)
    (hsum : s₁.checksum = s₂.checksum) (h4 : s₁.byte 4 = s₂.byte 4) :
    errorCount s₁.log < errorCount t₁.log ↔ errorCount s₂.log < errorCount t₂.log := by
  rw [exec_vrfy_raises_iff h₁, exec_vrfy_raises_iff h₂, hsum, h4]

/-- A reordering of bytes 0 … 3 leaves the checksum alone. -/
theorem State.checksum_eq_of_perm
    (h : [s₁.byte 0, s₁.byte 1, s₁.byte 2, s₁.byte 3].Perm [s₂.byte 0, s₂.byte 1, s₂.byte 2, s₂.byte 3]) :
    s₁.checksum = s₂.checksum := by
  have hsum (s : State) : s.checksum = [s.byte 0, s.byte 1, s.byte 2, s.byte 3].sum := by
    simp [State.checksum, BitVec.add_assoc]
  rw [hsum, hsum, h.sum_eq]

/-- EXTR takes its fields from bytes at fixed places, so exchanging bytes 0 and 1 with bytes 2 and 3 changes both readings. -/
theorem exec_extr_of_reordered : ∃ s₁ s₂ t₁ t₂ : State,
    [s₁.byte 0, s₁.byte 1, s₁.byte 2, s₁.byte 3].Perm [s₂.byte 0, s₂.byte 1, s₂.byte 2, s₂.byte 3] ∧
    s₁.byte 4 = s₂.byte 4 ∧ exec .extr s₁ = .next t₁ ∧ exec .extr s₂ = .next t₂ ∧ t₁.th ≠ t₂.th ∧ t₁.tm ≠ t₂.tm :=
  ⟨{ State.reset with frame := [(0, 0x02), (1, 0x8C), (2, 0x01), (3, 0x5F), (4, 0xEE)] },
    { State.reset with frame := [(0, 0x01), (1, 0x5F), (2, 0x02), (3, 0x8C), (4, 0xEE)] },
    _, _, by decide, by decide, rfl, rfl, by decide, by decide⟩

/-- Settles O47: the verdict is that of the checksum and byte 4, and a sum does not depend on the order of its terms. -/
theorem verdictDependsOnTheSumOnly : Obligations.VerdictDependsOnTheSumOnly := by
  refine ⟨fun s₁ s₂ t₁ t₂ h₁ h₂ hsum h4 => exec_vrfy_raises_congr h₁ h₂ (BitVec.eq_of_toNat_eq ?_) h4,
    fun s₁ s₂ t₁ t₂ h₁ h₂ hperm h4 => exec_vrfy_raises_congr h₁ h₂ (State.checksum_eq_of_perm hperm) h4,
    exec_extr_of_reordered⟩
  rw [s₁.checksum_toNat, s₂.checksum_toNat, hsum]

/-! ### Changed bits of the frame (R184) -/

/-- Byte `a` is the `a`-th from the top of the frame number (R8). -/
theorem State.byte_eq_extract (s : State) {a : Nat} (ha : a < 5) : s.byte a = s.frameBits.extractLsb' (32 - 8 * a) 8 := by
  refine BitVec.eq_of_getLsbD_eq fun b hb => ?_
  have hbit := s.frameBits_getLsbD (j := 8 * a + 7 - b) (by omega)
  rw [show (8 * a + 7 - b) / 8 = a by omega, show 7 - (8 * a + 7 - b) % 8 = b by omega] at hbit
  rw [← hbit, BitVec.getLsbD_extractLsb', decide_eq_true hb, Bool.true_and]
  congr 1
  omega

/-- A mask over the frame number changes each byte by its own eight bits of the mask. -/
theorem State.byte_of_frameBits_xor {m : BitVec 40} (h : s₂.frameBits = s₁.frameBits ^^^ m) {a : Nat} (ha : a < 5) :
    s₂.byte a = s₁.byte a ^^^ m.extractLsb' (32 - 8 * a) 8 := by
  rw [s₂.byte_eq_extract ha, s₁.byte_eq_extract ha, h, BitVec.extractLsb'_xor]

/-- A change of bit `j` of the frame number changes byte `4 − j div 8` and no other. -/
theorem State.byte_eq_iff_of_bit_changed {j : Nat} (hj : j < 40) (h : s₂.frameBits = s₁.frameBits ^^^ (1#40 <<< j))
    {a : Nat} (ha : a < 5) : s₂.byte a = s₁.byte a ↔ a ≠ 4 - j / 8 := by
  have hmask : ∀ j < 40, ∀ a < 5, (1#40 <<< j).extractLsb' (32 - 8 * a) 8 = 0#8 ↔ a ≠ 4 - j / 8 := by decide
  rw [State.byte_of_frameBits_xor h ha, ← hmask j hj a ha]
  simpa only [BitVec.xor_zero] using BitVec.xor_right_inj (s₁.byte a) (y := 0#8)

theorem State.checksum_eq_sum (s : State) : s.checksum = ∑ a ∈ Finset.range 4, s.byte a := by
  simp [State.checksum, Finset.sum_range_succ]

/-- A change of one of bytes 0 … 3 alone changes the checksum: the other three terms cancel. -/
theorem State.checksum_ne_of_one_byte_changed {a : Nat} (ha : a < 4) (hbyte : s₂.byte a ≠ s₁.byte a)
    (hsame : ∀ c < 4, c ≠ a → s₂.byte c = s₁.byte c) : s₂.checksum ≠ s₁.checksum := by
  have hrest : ∑ c ∈ (Finset.range 4).erase a, s₂.byte c = ∑ c ∈ (Finset.range 4).erase a, s₁.byte c :=
    Finset.sum_congr rfl fun c hc =>
      hsame c (Finset.mem_range.1 (Finset.mem_of_mem_erase hc)) (Finset.ne_of_mem_erase hc)
  have hmem : a ∈ Finset.range 4 := Finset.mem_range.2 ha
  rw [s₂.checksum_eq_sum, s₁.checksum_eq_sum, ← Finset.add_sum_erase _ _ hmem, ← Finset.add_sum_erase _ s₁.byte hmem, hrest]
  exact fun heq => hbyte ((BitVec.add_left_inj _).1 heq)

/-- A change of a single bit changes either the checksum or byte 4, but not both (R184). -/
theorem State.checksum_ne_iff_of_bit_changed {j : Nat} (hj : j < 40) (h : s₂.frameBits = s₁.frameBits ^^^ (1#40 <<< j)) :
    s₂.checksum ≠ s₁.checksum ↔ s₂.byte 4 = s₁.byte 4 := by
  have hbyte {a : Nat} (ha : a < 5) := State.byte_eq_iff_of_bit_changed hj h ha
  by_cases hlast : j / 8 = 0
  · have hne : s₂.byte 4 ≠ s₁.byte 4 := fun heq => (hbyte (by decide)).1 heq (by omega)
    have hsum : s₂.checksum = s₁.checksum :=
      State.checksum_congr ((hbyte (by decide)).2 (by omega)) ((hbyte (by decide)).2 (by omega))
        ((hbyte (by decide)).2 (by omega)) ((hbyte (by decide)).2 (by omega))
    exact iff_of_false (not_not_intro hsum) hne
  · refine iff_of_true (State.checksum_ne_of_one_byte_changed (a := 4 - j / 8) (by omega) ?_ ?_)
      ((hbyte (by decide)).2 (by omega))
    · exact fun heq => (hbyte (by omega)).1 heq rfl
    · exact fun c hc hne => (hbyte (by omega)).2 hne

/-- So the changed frame of a frame that matches does not match. -/
theorem State.mismatch_of_bit_changed (hmatch : s₁.checksum = s₁.byte 4) {j : Nat} (hj : j < 40)
    (h : s₂.frameBits = s₁.frameBits ^^^ (1#40 <<< j)) : s₂.checksum ≠ s₂.byte 4 := by
  have hone := State.checksum_ne_iff_of_bit_changed hj h
  intro hmatch'
  rw [hmatch', hmatch] at hone
  exact not_iff_self hone

/-- Bit 0 from 0 to 1 adds 1: there is nothing to carry, so addition, OR and XOR agree. -/
theorem xor_one_eq_add_one {w : Nat} {x : BitVec w} (h : x.getLsbD 0 = false) : x ^^^ 1#w = x + 1#w := by
  have hand : x &&& 1#w = 0#w := by simp [BitVec.and_one_eq_setWidth_ofBool_getLsbD, h]
  rw [BitVec.add_eq_or_of_and_eq_zero x 1#w hand]
  refine BitVec.eq_of_getLsbD_eq fun b _ => ?_
  have hbit : (x.getLsbD b && (1#w).getLsbD b) = false := by rw [← BitVec.getLsbD_and, hand, BitVec.getLsbD_zero]
  rw [BitVec.getLsbD_xor, BitVec.getLsbD_or]
  cases hx : x.getLsbD b with
  | false => rw [Bool.false_xor, Bool.false_or]
  | true =>
    rw [hx, Bool.true_and] at hbit
    rw [hbit, Bool.xor_false, Bool.or_false]

/-- Bit 0 of byte 0 from 0 to 1 and bit 0 of byte 1 from 1 to 0 cancel in the checksum and leave byte 4 alone. -/
theorem State.match_of_two_bits_changed (hmatch : s₁.checksum = s₁.byte 4) (h₀ : (s₁.byte 0).getLsbD 0 = false)
    (h₁ : (s₁.byte 1).getLsbD 0 = true) (h : s₂.frameBits = s₁.frameBits ^^^ (1#40 <<< 32) ^^^ (1#40 <<< 24)) :
    s₂.checksum = s₂.byte 4 := by
  rw [BitVec.xor_assoc] at h
  have hup : s₂.byte 0 = s₁.byte 0 + 1#8 := (State.byte_of_frameBits_xor h (by decide)).trans (xor_one_eq_add_one h₀)
  have hxor : s₂.byte 1 = s₁.byte 1 ^^^ 1#8 := State.byte_of_frameBits_xor h (by decide)
  have hdown : s₁.byte 1 = s₂.byte 1 + 1#8 := by
    rw [← xor_one_eq_add_one (by simp [hxor, h₁]), hxor, BitVec.xor_assoc, BitVec.xor_self, BitVec.xor_zero]
  have h₂ : s₂.byte 2 = s₁.byte 2 := (State.byte_of_frameBits_xor h (by decide)).trans BitVec.xor_zero
  have h₃ : s₂.byte 3 = s₁.byte 3 := (State.byte_of_frameBits_xor h (by decide)).trans BitVec.xor_zero
  have h₄ : s₂.byte 4 = s₁.byte 4 := (State.byte_of_frameBits_xor h (by decide)).trans BitVec.xor_zero
  rw [h₄, ← hmatch]
  unfold State.checksum
  rw [hup, hdown, h₂, h₃]
  ac_rfl

/-- Settles O48: one changed bit cannot keep the frame matching; the two changes of R184 cancel. -/
theorem singleBitErrorsAreCaught : Obligations.SingleBitErrorsAreCaught :=
  ⟨fun _ _ _ hmatch hj h => ⟨_, exec_vrfy_of_mismatch (State.mismatch_of_bit_changed hmatch hj h), rfl, rfl, by simp⟩,
    fun _ _ hmatch h₀ h₁ h => ⟨_, exec_vrfy_of_match (State.match_of_two_bits_changed hmatch h₀ h₁ h), rfl, rfl⟩⟩

end Sys2Proof.Machine
end

section
/-! Proof of the statement of 70_reset_and_hazards.md (R230, R231: a reset at an idle tick, after an accepted READ, and in a running
operation), after the lemmas it rests on. -/

namespace Sys2Proof.Machine

variable {s : State}

/-! ### The state after a reset (R230) -/

/-- Every register has its reset value, whatever the state and the tick. -/
theorem State.resetAt_reg (s : State) (r : Tick) (x : Reg) : (s.resetAt r).reg x = State.reset.reg x := by
  cases x <;> rfl

/-- The pin is an input. -/
@[simp] theorem State.resetAt_drive (s : State) (r : Tick) : (s.resetAt r).drive = none := rfl

/-! ### The three places of a reset (R230, R231) -/

/-- An idle tick with `rst` = 1: its command is not evaluated. -/
theorem step_of_idle_reset (hrun : s.run = 0) (hrst : s.inputs.rstAt s.now = true) : step s = .next (s.resetAt s.now) := by
  unfold step hostStep
  rw [if_neg (by simp [hrun]), if_pos hrst]

/-- The tick after an accepted READ with `rst` = 1: neither its command nor word 0 is evaluated. -/
theorem State.afterIdle_of_reset (hrun : s.run = 1) (hrst : s.inputs.rstAt (s.now + 1) = true) :
    s.afterIdle = s.resetAt (s.now + 1) := by
  unfold State.afterIdle
  rw [if_neg (by simp [hrun]), firstReset_one_some _ _ hrst]

/-- An idle tick that accepts a READ, with a reset at the next tick: the step ends in that reset. -/
theorem step_of_accepting_reset (hrun : s.run = 0) (hread : s.inputs.hcmdAt s.now = 1)
    (hnow : s.inputs.rstAt s.now = false) (hnext : s.inputs.rstAt (s.now + 1) = true) :
    step s = .next (s.resetAt (s.now + 1)) := by
  rw [step_accepts hrun hread hnow, State.afterIdle_of_reset (s := { s with run := 1, pc := 0 }) rfl hnext]
  rfl

/-- A running operation with a reset in its ticks: the commands before that tick are answered, and the operation is dropped. -/
theorem step_of_running_reset {i : Instr} {r : Tick} (hrun : s.run = 1) (hi : decodeWord s.fetch = .ok i)
    (hr : s.inputs.firstReset s.now (s.ticksOf i) = some r) :
    step s = .next ((s.serve (r - 1 - s.now)).resetAt r) := by
  unfold step microStep
  rw [if_pos hrun, hi]
  simp only [hr]

/-- The first reset of a span is the least of the resets listed in it. -/
theorem firstReset_of_least {e : Inputs} {p n r : Nat} (hmem : r ∈ e.resets) (hlt : p < r) (hle : r ≤ p + n)
    (hleast : ∀ r' ∈ e.resets, p < r' → r ≤ r') : e.firstReset p n = some r := by
  refine List.min?_eq_some_iff.2 ⟨by simp [hmem, hlt, hle], fun r' hr' => ?_⟩
  obtain ⟨hmem', hspan⟩ := List.mem_filter.1 hr'
  simp only [Bool.and_eq_true, decide_eq_true_eq] at hspan
  exact hleast r' hmem' hspan.1

/-! ### What the answers during an operation add to the log (R69) -/

/-- A response of the tick of the command, or nothing. -/
theorem State.answer_log_cases (s : State) (c : Tick × BitVec 2) :
    (s.answer c).log = s.log ∨ ∃ v, (s.answer c).log = .hresp c.1 v :: s.log := by
  unfold State.answer
  split
  · exact .inr ⟨_, rfl⟩
  · exact .inl rfl

/-- Commands answered one after another add responses of their own ticks, and no other event. -/
theorem foldl_answer_log (cs : List (Tick × BitVec 2)) (s : State) :
    ∃ es, (cs.foldl State.answer s).log = es ++ s.log ∧ ∀ e ∈ es, ∃ c ∈ cs, ∃ v, e = .hresp c.1 v := by
  induction cs generalizing s with
  | nil => exact ⟨[], rfl, by simp⟩
  | cons c cs ih =>
    obtain ⟨es, hlog, hes⟩ := ih (s.answer c)
    have hlater : ∀ e ∈ es, ∃ c' ∈ c :: cs, ∃ v, e = .hresp c'.1 v := fun e he => by
      obtain ⟨c', hc', hv⟩ := hes e he
      exact ⟨c', List.mem_cons_of_mem c hc', hv⟩
    rw [List.foldl_cons, hlog]
    obtain hnone | ⟨v, hsome⟩ := s.answer_log_cases c
    · exact ⟨es, by rw [hnone], hlater⟩
    · refine ⟨es ++ [.hresp c.1 v], by simp [hsome], fun e he => ?_⟩
      obtain he | he := List.mem_append.1 he
      · exact hlater e he
      · exact ⟨c, List.mem_cons_self, v, List.mem_singleton.1 he⟩

/-- The answers of the `n` ticks after `now` are responses of those ticks, and no other event. -/
theorem State.serve_log (s : State) (n : Nat) :
    ∃ es, (s.serve n).log = es ++ s.log ∧ ∀ e ∈ es, ∃ p v, e = .hresp p v ∧ s.now < p ∧ p ≤ s.now + n := by
  obtain ⟨es, hlog, hes⟩ := foldl_answer_log (s.inputs.hcmdsIn s.now n) s
  refine ⟨es, hlog, fun e he => ?_⟩
  obtain ⟨c, hc, v, rfl⟩ := hes e he
  have hspan : s.now < c.1 ∧ c.1 ≤ s.now + n := by simpa using (List.mem_filter.1 hc).2
  exact ⟨c.1, v, rfl, hspan⟩

theorem retCount_append (log log' : List Event) : retCount (log ++ log') = retCount log + retCount log' :=
  List.countP_append

/-- What the host is answered during an operation is no end of a read. -/
@[simp] theorem State.serve_retCount (s : State) (n : Nat) : retCount (s.serve n).log = retCount s.log := by
  obtain ⟨es, hlog, hes⟩ := s.serve_log n
  have hnone : retCount es = 0 := List.countP_eq_zero.2 fun e he => by
    obtain ⟨p, v, rfl, -⟩ := hes e he
    simp
  rw [hlog, retCount_append, hnone, Nat.zero_add]

/-- A response that was not in the log before the `n` ticks is of one of them. -/
theorem State.hresp_mem_serve_log {n : Nat} {p : Tick} {v : Word} (h : Event.hresp p v ∈ (s.serve n).log) :
    Event.hresp p v ∈ s.log ∨ (s.now < p ∧ p ≤ s.now + n) := by
  obtain ⟨es, hlog, hes⟩ := s.serve_log n
  rw [hlog] at h
  obtain hnew | hold := List.mem_append.1 h
  · obtain ⟨p', v', heq, hspan⟩ := hes _ hnew
    cases heq
    exact .inr hspan
  · exact .inl hold

/-- The ticks answered before a reset at tick `r` end before `r`. -/
theorem last_answered_lt_reset {p r : Nat} (h : p < r) : p + (r - 1 - p) < r := by omega

/-- Settles O37: each of the three steps ends in `resetAt`; a running one has answered the commands before the reset, and those
only. -/
theorem resetDropsEverything : Obligations.ResetDropsEverything := by
  refine ⟨fun s hrun hrst => ?_, fun s hrun hread hnow hnext => ?_, fun s i r hrun hi hmem hlt hle hleast => ?_⟩
  · exact ⟨_, step_of_idle_reset hrun hrst, State.resetAt_reg _ _, rfl, rfl, rfl⟩
  · exact ⟨_, step_of_accepting_reset hrun hread hnow hnext, State.resetAt_reg _ _, rfl, rfl, rfl⟩
  · have hstep := step_of_running_reset hrun hi (firstReset_of_least hmem hlt hle hleast)
    refine ⟨_, hstep, State.resetAt_reg _ _, rfl, rfl, State.serve_retCount _ _, State.serve_errorCount _ _, fun p v hp => ?_⟩
    obtain hold | ⟨-, hbefore⟩ := State.hresp_mem_serve_log hp
    · exact .inl hold
    · exact .inr (hbefore.trans_lt (last_answered_lt_reset hlt))

end Sys2Proof.Machine
end

section
/-! Proofs of the remaining statements of 30_encoding.md (sections 5 and 6: the decoder and the encoder are each other's inverse), after
the lemmas they rest on. -/

namespace Sys2Proof.Machine

variable {i j : Instr} {w : Word}

/-! ### The encoder undoes the decoder -/

/-- `ifZero` lets an operation through only when the unnamed bits are zero (R93). -/
theorem ifZero_eq_ok {k : Nat} {unnamed : BitVec k} (h : ifZero unnamed j = .ok i) : unnamed = 0 ∧ j = i := by
  unfold ifZero at h
  split at h
  · next hzero => exact ⟨hzero, Except.ok.inj h⟩
  · cases h

/-- A word is OP over N (R89). -/
theorem opField_append_low (w : Word) : opField w ++ w.extractLsb' 0 12 = w :=
  (BitVec.extractLsb'_append_extractLsb'_eq_extractLsb' (len₁ := 12) (start₁ := 0) rfl).trans BitVec.extractLsb'_eq_self

/-- N is its upper `m` bits over its lower `k` (R90). -/
theorem low_eq_append (w : Word) (m k : Nat) :
    w.extractLsb' k m ++ w.extractLsb' 0 k = w.extractLsb' 0 (m + k) :=
  BitVec.extractLsb'_append_extractLsb'_eq_extractLsb' (Nat.zero_add k).symm

/-- With the OP and the value of N known, so is the word. -/
theorem word_eq_append {op : BitVec 4} {n : BitVec 12} (hop : (opField w).toNat = op.toNat) (hn : w.extractLsb' 0 12 = n) :
    op ++ n = w := by
  rw [← opField_append_low w, BitVec.eq_of_toNat_eq hop, hn]

/-- A word whose row names no bit of N but the lower `k`, the others being zero. -/
theorem word_eq_append_zero {op : BitVec 4} (m k : Nat) (hmk : m + k = 12) (hop : (opField w).toNat = op.toNat)
    (hzero : w.extractLsb' k m = 0) : op ++ (0#m ++ w.extractLsb' 0 k).cast hmk = w := by
  refine word_eq_append hop (BitVec.eq_of_toNat_eq ?_)
  rw [← BitVec.ofNat_eq_ofNat, ← hzero, BitVec.toNat_cast, low_eq_append, hmk]

/-- Row by row of R90: the unnamed bits are zero, so N is the operand field alone. -/
theorem encode_of_decodeWord (h : decodeWord w = .ok i) : encode i = .micro w := by
  unfold decodeWord at h
  split at h
  case h_1 hop | h_8 hop | h_9 hop | h_10 hop =>
    obtain ⟨hzero, rfl⟩ := ifZero_eq_ok h
    exact congrArg Code.micro (word_eq_append hop hzero)
  case h_2 hop | h_3 hop =>
    obtain ⟨hzero, rfl⟩ := ifZero_eq_ok h
    exact congrArg Code.micro (BitVec.append_assoc.trans (word_eq_append_zero 11 1 rfl hop hzero))
  case h_4 hop =>
    cases h
    rw [encode, BitVec.ofNat_toNat, BitVec.setWidth_eq]
    exact congrArg Code.micro (word_eq_append hop rfl)
  case h_5 hop =>
    cases h
    rw [encode, BitVec.ofNat_toNat, BitVec.setWidth_eq]
    exact congrArg Code.micro (BitVec.append_assoc.trans (word_eq_append hop (low_eq_append w 1 11).symm))
  case h_6 hop =>
    obtain ⟨hzero, rfl⟩ := ifZero_eq_ok h
    rw [encode, BitVec.ofNat_toNat, BitVec.setWidth_eq]
    exact congrArg Code.micro (BitVec.append_assoc.trans (word_eq_append_zero 5 7 rfl hop hzero))
  case h_7 hop =>
    obtain ⟨hzero, rfl⟩ := ifZero_eq_ok h
    have hword : 0x7#4 ++ 0#2 ++ w.extractLsb' 0 10 = w :=
      BitVec.append_assoc.trans (word_eq_append_zero 2 10 rfl hop hzero)
    rw [← low_eq_append w 6 4] at hword
    exact congrArg Code.micro (BitVec.append_assoc.trans hword)
  case h_11 => cases h

/-- An operand the decoder reads from a field of N is inside that field. -/
theorem wellFormed_of_decodeWord (h : decodeWord w = .ok i) : i.wellFormed = true := by
  unfold decodeWord at h
  split at h
  case h_4 | h_5 =>
    cases h
    exact decide_eq_true (BitVec.isLt _)
  case h_6 =>
    obtain ⟨-, rfl⟩ := ifZero_eq_ok h
    exact decide_eq_true (BitVec.isLt _)
  case h_11 => cases h
  all_goals
    obtain ⟨-, rfl⟩ := ifZero_eq_ok h
    rfl

/-- Settles O53: a host code by its four values, a word row by row. -/
theorem encodeOfDecodeIsTheCode : Obligations.EncodeOfDecodeIsTheCode := by
  intro c i h
  cases c with
  | host c =>
    have hhost : ∀ c : BitVec 2, (decodeHost c).wellFormed = true ∧ encode (decodeHost c) = .host c := by decide
    cases h
    exact hhost c
  | micro w => exact ⟨wellFormed_of_decodeWord h, encode_of_decodeWord h⟩

/-! ### The decoder undoes the encoder -/

/-- OP stands over the rest of N, whatever fields N is made of. -/
theorem op_of_append {m k n : Nat} (hn : n = m + k) (op : BitVec 4) (x : BitVec m) (y : BitVec k) :
    (op ++ x ++ y).extractLsb' n 4 = op := by
  rw [BitVec.extractLsb'_append_eq_of_le (by omega), show n - k = m by omega, BitVec.extractLsb'_append_eq_left]

/-- The field under OP and over the lowest field. -/
theorem upper_of_append {m k v : Nat} (z : BitVec v) (x : BitVec m) (y : BitVec k) :
    (z ++ x ++ y).extractLsb' k m = x := by
  rw [BitVec.extractLsb'_append_eq_of_le le_rfl, Nat.sub_self, BitVec.extractLsb'_append_eq_right]

theorem ifZero_zero (k : Nat) (i : Instr) : ifZero (0#k) i = .ok i := if_pos rfl

theorem decodeWord_dly {n : Nat} (hn : n < 4096) : decodeWord (0x4#4 ++ BitVec.ofNat 12 n) = .ok (.dly n) := by
  have hop : opField (0x4#4 ++ BitVec.ofNat 12 n) = 0x4#4 := BitVec.extractLsb'_append_eq_left
  rw [decodeWord, hop]
  show Except.ok (Instr.dly _) = _
  rw [BitVec.extractLsb'_append_eq_right, BitVec.toNat_ofNat, Nat.mod_eq_of_lt hn]

theorem decodeWord_meas {n : Nat} (hn : n < 2048) (l : Level) :
    decodeWord (0x5#4 ++ l ++ BitVec.ofNat 11 n) = .ok (.meas n l) := by
  have hop : opField (0x5#4 ++ l ++ BitVec.ofNat 11 n) = 0x5#4 := op_of_append rfl _ _ _
  rw [decodeWord, hop]
  show Except.ok (Instr.meas _ _) = _
  rw [upper_of_append, BitVec.extractLsb'_append_eq_right, BitVec.toNat_ofNat, Nat.mod_eq_of_lt hn]

theorem decodeWord_pack {n : Nat} (hn : n < 128) : decodeWord (0x6#4 ++ 0#5 ++ BitVec.ofNat 7 n) = .ok (.pack n) := by
  have hop : opField (0x6#4 ++ 0#5 ++ BitVec.ofNat 7 n) = 0x6#4 := op_of_append rfl _ _ _
  rw [decodeWord, hop]
  show ifZero _ (Instr.pack _) = _
  rw [upper_of_append, ifZero_zero, BitVec.extractLsb'_append_eq_right, BitVec.toNat_ofNat, Nat.mod_eq_of_lt hn]

theorem decodeWord_loop (a : BitVec 4) (c : BitVec 6) : decodeWord (0x7#4 ++ 0#2 ++ c ++ a) = .ok (.loop a c) := by
  have hop : opField (0x7#4 ++ 0#2 ++ c ++ a) = 0x7#4 :=
    (BitVec.extractLsb'_append_eq_of_le (by decide)).trans (op_of_append rfl _ _ _)
  have hzero : (0x7#4 ++ 0#2 ++ c ++ a).extractLsb' 10 2 = 0#2 :=
    (BitVec.extractLsb'_append_eq_of_le (by decide)).trans (upper_of_append _ _ _)
  rw [decodeWord, hop]
  show ifZero _ (Instr.loop _ _) = _
  rw [hzero, ifZero_zero, upper_of_append, BitVec.extractLsb'_append_eq_right]

/-- Settles O52: the encoder puts each operand into the field the decoder takes it from, and a well-formed one fits it. -/
theorem decodeOfEncodeIsTheOperation : Obligations.DecodeOfEncodeIsTheOperation := by
  intro i h
  cases i with
  | noCall | read | hum | temp | clrf | extr | vrfy | cmt => rfl
  | dir d => revert d; decide
  | lvl l => revert l; decide
  | dly n => exact decodeWord_dly (of_decide_eq_true h)
  | meas n l => exact decodeWord_meas (of_decide_eq_true h) l
  | pack n => exact decodeWord_pack (of_decide_eq_true h)
  | loop a c => exact decodeWord_loop a c

end Sys2Proof.Machine
end

section
/-! Proofs of the statements about what a step runs (R121; the framing of log entry 1, the placing of log entry 6), after the lemmas they
rest on. -/

namespace Sys2Proof.Machine

variable {i : Instr} {s t : State} {w : Word}

/-! ### The operation a step runs -/

/-- Format H spells host commands only. -/
theorem isHost_decodeHost (c : BitVec 2) : (decodeHost c).isHost = true := by
  revert c
  decide

/-- Format U spells micro-operations only. -/
theorem isHost_of_decodeWord (h : decodeWord w = .ok i) : i.isHost = false := by
  have hword := encode_of_decodeWord h
  cases i with
  | noCall | read | hum | temp => cases hword
  | _ => rfl

/-- An idle step with no reset at its tick is `exec` of the tick's command (R121). -/
theorem step_of_command (hrun : s.run = 0) (hrst : s.inputs.rstAt s.now = false) :
    step s = mapNext State.afterIdle (exec (decodeHost (s.inputs.hcmdAt s.now)) s) := by
  unfold step hostStep
  rw [if_neg (by simp [hrun]), hrst]
  rfl

/-- Settles O34: `step_of_decoded` for a running block, `step_of_command` for an idle one. -/
theorem stepRunsTheDecodedOperation : Obligations.StepRunsTheDecodedOperation := by
  refine ⟨fun s i => step_of_decoded, fun s i hrun hi hrst => ?_⟩
  obtain rfl := Except.ok.inj hi
  exact step_of_command hrun hrst

/-! ### A placed word -/

/-- The command placed at a tick is the one presented at it. -/
theorem Inputs.hcmdAt_withHcmd (e : Inputs) (p : Tick) (c : BitVec 2) : (e.withHcmd p c).hcmdAt p = c := by
  have hbefore : (e.hcmds.filter (fun x => decide (x.1 < p))).find? (fun x => x.1 == p) = none := by
    refine List.find?_eq_none.2 fun x hx => ?_
    have hlt : x.1 < p := by simpa using (List.mem_filter.1 hx).2
    simp [hlt.ne]
  simp [Inputs.hcmdAt, Inputs.withHcmd, List.find?_append, hbefore]

theorem Inputs.firstReset_withoutResets (e : Inputs) (p : Tick) (n : Nat) : e.withoutResets.firstReset p n = none := rfl

/-- The word placed at PC is the one fetched. -/
theorem State.fetch_withCode (s : State) (w : Word) : (s.withCode (.micro w)).fetch = w :=
  Vector.getElem_set_self _

/-- The step runs the word placed at PC of a running block. -/
theorem step_withCode_micro (s : State) (hi : decodeWord w = .ok i) :
    step (s.withCode (.micro w)) =
      mapNext State.afterOp (exec i ((s.withCode (.micro w)).serve ((s.withCode (.micro w)).ticksOf i))) :=
  step_of_decoded rfl (by rw [s.fetch_withCode, hi]) (Inputs.firstReset_withoutResets _ _ _)

/-- The step runs the command placed on the host port of an idle block. -/
theorem step_withCode_host (s : State) (c : BitVec 2) :
    step (s.withCode (.host c)) = mapNext State.afterIdle (exec (decodeHost c) (s.withCode (.host c))) := by
  have hcmd : (s.withCode (.host c)).inputs.hcmdAt (s.withCode (.host c)).now = c := s.inputs.hcmdAt_withHcmd s.now c
  rw [step_of_command (s := s.withCode (.host c)) rfl rfl, hcmd]

/-- Settles O35: the row's bits are a host code or a word, and the format tells which half of the statement is about it. -/
theorem aPlacedWordRunsNext : Obligations.APlacedWordRunsNext := by
  intro s nbits n i h
  unfold decodeTableWord at h
  unfold State.withFetchWord
  cases hcode : tableCode nbits n with
  | none => rw [hcode] at h; cases h
  | some c =>
    rw [hcode] at h
    cases c with
    | host c =>
      obtain rfl : decodeHost c = i := Option.some.inj h
      exact ⟨fun hmicro => absurd hmicro (by simp [isHost_decodeHost]), fun _ => step_withCode_host s c⟩
    | micro w =>
      cases hi : decodeWord w with
      | error e => simp [decode, hi, Except.toOption] at h
      | ok j =>
        obtain rfl : j = i := by simpa [decode, hi, Except.toOption] using h
        exact ⟨fun _ => step_withCode_micro s hi, fun hhost => absurd hhost (by simp [isHost_of_decodeWord hi])⟩

end Sys2Proof.Machine
end

section
/-! Proofs of the remaining statements about one operation: who raises and what an error entry leaves (R191, R196), VRFY (R181), what
stores to the FRAME space (R64, R76), what stops (R63), DLY (R142) and MEAS (R113, R115), after the lemmas they rest on. -/

namespace Sys2Proof.Machine

variable {i : Instr} {k : Outcome} {s t u v : State} {n : Nat} {l : Level}

/-! ### The three ways a micro-operation goes (R190, R191) -/

/-- Operation `i` fails from `s` with `k`, entering the error from `v` (R196). -/
inductive Fails (s : State) : Instr → Outcome → State → Prop where
  | timeout {n : Nat} {l : Level} (h : s.duration n l = none) : Fails s (.meas n l) .timeout (s.pass (sampleLimit n))
  | mismatch (h : s.checksumEqual = false) : Fails s .vrfy .checksumMismatch { s with sum := s.checksum }

theorem Fails.log_eq (h : Fails s i k v) : v.log = s.log := by cases h <;> rfl

theorem Fails.retained_eq (h : Fails s i k v) : v.retained = s.retained := by cases h <;> rfl

theorem Fails.code_cases (h : Fails s i k v) : k.code = 1 ∨ k.code = 2 := by cases h <;> decide

/-- A micro-operation goes on with the read and puts out nothing, or commits it, or fails. -/
theorem exec_micro_cases (hmicro : i.isHost = false) (h : exec i s = .next t) :
    (i ≠ .cmt ∧ t.run = s.run ∧ t.outcome = s.outcome ∧ t.log = s.log) ∨ (i = .cmt ∧ t = s.committed) ∨
      ∃ k v, Fails s i k v ∧ t = v.raise k := by
  cases i with
  | noCall | read | hum | temp => cases hmicro
  | meas n l =>
    rcases execMeas_cases h with ⟨k, -, rfl⟩ | ⟨hnone, rfl⟩
    · exact .inl ⟨by simp, rfl, rfl, rfl⟩
    · exact .inr (.inr ⟨_, _, .timeout hnone, rfl⟩)
  | vrfy =>
    rcases execVrfy_cases h with ⟨-, rfl⟩ | ⟨hne, rfl⟩
    · exact .inl ⟨by simp, rfl, rfl, rfl⟩
    · exact .inr (.inr ⟨_, _, .mismatch hne, rfl⟩)
  | cmt => cases h; exact .inr (.inl ⟨rfl, rfl⟩)
  | pack n => rcases execPack_cases h with ⟨-, rfl⟩ | ⟨-, -, rfl⟩ <;> exact .inl ⟨by simp, rfl, rfl, rfl⟩
  | clrf | dir d | lvl l | dly n | loop a c | extr => cases h; exact .inl ⟨by simp, rfl, rfl, rfl⟩

/-- A host command puts out no error. -/
theorem exec_host_errorCount (hhost : i.isHost = true) (h : exec i s = .next t) : errorCount t.log = errorCount s.log := by
  cases i with
  | read => rcases execRead_cases h with ⟨-, rfl⟩ | ⟨-, rfl⟩ <;> rfl
  | noCall | hum | temp => cases h; rfl
  | _ => cases hhost

/-- An operation that adds an `on_error` has failed. -/
theorem fails_of_errorCount_lt (h : exec i s = .next t) (herr : errorCount s.log < errorCount t.log) :
    ∃ k v, Fails s i k v ∧ t = v.raise k := by
  cases hhost : i.isHost with
  | true => exact absurd (exec_host_errorCount hhost h) herr.ne'
  | false =>
    rcases exec_micro_cases hhost h with ⟨-, -, -, hlog⟩ | ⟨-, rfl⟩ | hfails
    · exact absurd (congrArg errorCount hlog) herr.ne'
    · exact absurd (errorCount_cons_ret _ _ _) herr.ne'
    · exact hfails

/-! ### Error entry (R196) -/

/-- An `on_error` put out last but for a `ret` is what `err_valid` and `err_kind` show at its tick (R68). -/
theorem State.err_of_log_onError {p : Tick} {c c' : BitVec 2} {log : List Event}
    (h : t.log = .ret p c' :: .onError p c :: log) : t.errValid p = true ∧ t.errKind p = c := by
  simp [State.errValid, State.errKind, h, Event.errorAt, List.findSome?_cons]

/-- Both events of an error entry show on the ports at its tick. -/
theorem State.raise_ports (v : State) (k : Outcome) :
    (v.raise k).done v.now = true ∧ (v.raise k).doneCode v.now = k.code ∧
      (v.raise k).errValid v.now = true ∧ (v.raise k).errKind v.now = k.code := by
  obtain ⟨hdone, hcode⟩ := State.done_of_log_ret (v.raise_log k)
  obtain ⟨hvalid, hkind⟩ := State.err_of_log_onError (v.raise_log k)
  exact ⟨hdone, hcode, hvalid, hkind⟩

/-- Settles O21: an operation that adds an `on_error` is one of the two that fail, and ends in an error entry. -/
theorem onlyMeasAndVrfyRaiseAndTheReadingsStay : Obligations.OnlyMeasAndVrfyRaiseAndTheReadingsStay := by
  intro i s t h herr
  obtain ⟨k, v, hfails, rfl⟩ := fails_of_errorCount_lt h herr
  obtain ⟨hdone, hcode, hvalid, hkind⟩ := v.raise_ports k
  cases hfails with
  | @timeout n l =>
    exact ⟨.timeout, .inl ⟨rfl, ⟨n, l, rfl⟩, rfl⟩, rfl, rfl, rfl, rfl, hdone, hcode, hvalid, hkind, rfl, rfl, rfl, rfl, rfl,
      fun _ => rfl, rfl, rfl, rfl, rfl, rfl, rfl⟩
  | mismatch =>
    exact ⟨.checksumMismatch, .inr ⟨rfl, rfl, rfl⟩, rfl, rfl, rfl, rfl, hdone, hcode, hvalid, hkind, rfl, rfl, rfl, rfl, rfl,
      fun _ => rfl, rfl, rfl, rfl, rfl, rfl, rfl⟩

/-- Settles O22: `raise` by itself, then the two operations that end in it. -/
theorem errorEntryWritesThreeRegisters : Obligations.ErrorEntryWritesThreeRegisters := by
  refine ⟨fun _ _ => rfl, fun n l s hline => ?_, fun s hsum => exec_vrfy_of_mismatch fun heq => hsum ?_⟩
  · exact exec_meas_of_duration_none ((duration_none s n l).2 hline)
  · rw [← s.checksum_toNat, heq]

/-! ### VRFY (R181) -/

/-- Settles O19: VRFY writes the sum, and the comparison with byte 4 decides between the next word and the error entry. -/
theorem vrfyComparesTheChecksum : Obligations.VrfyComparesTheChecksum := by
  refine ⟨rfl, fun s => ⟨rfl, ?_⟩⟩
  by_cases heq : s.checksum = s.byte 4
  · exact ⟨_, exec_vrfy_of_match heq, s.checksum_toNat, fun _ => rfl, fun hne => absurd heq hne⟩
  · exact ⟨_, exec_vrfy_of_mismatch heq, s.checksum_toNat, fun heq' => absurd heq' heq, fun _ => rfl⟩

/-! ### What stores, and what stops (R63, R64, R76) -/

/-- No operation but CLRF and PACK touches the FRAME space. -/
theorem exec_frame (hclrf : i ≠ .clrf) (hpack : ∀ n, i ≠ .pack n) (h : exec i s = .next t) : t.frame = s.frame := by
  cases i with
  | clrf => exact absurd rfl hclrf
  | pack n => exact absurd rfl (hpack n)
  | read => rcases execRead_cases h with ⟨-, rfl⟩ | ⟨-, rfl⟩ <;> rfl
  | meas n l => rcases execMeas_cases h with ⟨k, -, rfl⟩ | ⟨-, rfl⟩ <;> rfl
  | vrfy => rcases execVrfy_cases h with ⟨-, rfl⟩ | ⟨-, rfl⟩ <;> rfl
  | _ => cases h; rfl

/-- FrameSetBit clears no bit. -/
theorem Memory.read_setBit_and (m : Memory) (x : BitVec 6) (a : Nat) : (m.setBit x).read a &&& m.read a = m.read a := by
  rw [Memory.read_setBit]
  split
  · next ha =>
    refine BitVec.eq_of_getLsbD_eq fun b _ => ?_
    rw [ha, BitVec.getLsbD_and, BitVec.getLsbD_or]
    cases (m.read (frameAddr x)).getLsbD b <;> simp
  · exact BitVec.and_self

/-- Settles O25: only CLRF and PACK touch the FRAME space, and PACK is FrameSetBit or nothing. -/
theorem onlyClrfAndPackStore : Obligations.OnlyClrfAndPackStore := by
  intro i s t h
  refine ⟨fun hclrf hpack a => ?_, ?_, ?_⟩
  · rw [State.byte, exec_frame hclrf hpack h, State.byte]
  · rintro n rfl
    rcases execPack_cases h with ⟨-, rfl⟩ | ⟨hone, -, rfl⟩
    · exact ⟨fun _ _ => rfl, fun _ _ => rfl⟩
    · have hlt : n < s.d.toNat := of_decide_eq_true hone
      exact ⟨fun a ha => (Memory.read_setBit ..).trans (if_neg ha), fun hle => absurd hlt (Nat.not_lt.2 hle)⟩
  · rintro n rfl a
    rcases execPack_cases h with ⟨-, rfl⟩ | ⟨-, -, rfl⟩
    · exact BitVec.and_self
    · exact s.frame.read_setBit_and s.idx a

/-- Settles O16: PACK of a 1 by itself, and `exec_stops` for the rest. -/
theorem onlyAnIndexOutsideTheFrameStops : Obligations.OnlyAnIndexOutsideTheFrameStops := by
  refine ⟨fun n s hidx hd => ?_, fun i s hstops => ?_⟩
  · show execPack n s = _
    simp [execPack, State.bitValue, Config.nBits, hd, Nat.not_lt.2 hidx]
  · rcases exec_stops i s with ⟨t, ht⟩ | ⟨n, rfl, hone, hidx, -⟩
    · exact absurd ht (hstops t)
    · exact ⟨n, rfl, hidx, of_decide_eq_true hone⟩

/-! ### DLY (R142) -/

/-- The word of DLY: OP over the number of ticks. -/
theorem encode_dly (hn : n < 4096) : encode (.dly n) = .micro (0x4000#16 ||| BitVec.ofNat 16 n) := by
  have hop : (0x4#4).setWidth 16 <<< 12 = 0x4000#16 := by decide
  have hlow : (BitVec.ofNat 12 n).setWidth 16 = BitVec.ofNat 16 n := BitVec.setWidth_ofNat_of_le_of_lt (by decide) hn
  have hword := BitVec.setWidth_append_eq_shiftLeft_setWidth_or (b := 0x4#4) (b' := BitVec.ofNat 12 n) (w'' := 16)
  rw [hop, hlow] at hword
  exact congrArg Code.micro ((BitVec.setWidth_eq _).symm.trans hword)

/-- The countdown: one tick a visit, and one visit more that finds CNT at 0. -/
theorem visits_dlyVisit (s : State) (hcnt : s.cnt.toNat = n) :
    visits dlyVisit (n + 1) s = some { s with now := s.now + n, cnt := 0, pc := s.pc + 1 } := by
  induction n generalizing s with
  | zero =>
    have hzero : s.cnt = 0 := BitVec.eq_of_toNat_eq hcnt
    rw [visits, dlyVisit, if_pos hzero, ← hzero]
    rfl
  | succ n ih =>
    have hpos : s.cnt ≠ 0 := fun hzero => by simp [hzero] at hcnt
    have hless : (s.cnt - 1).toNat = n := by
      rw [BitVec.toNat_sub_of_le (by rw [BitVec.le_def, hcnt]; simp), hcnt]
      rfl
    rw [visits, dlyVisit, if_neg hpos]
    simp only [ih { s with cnt := s.cnt - 1, now := s.now + 1 } hless, Nat.add_assoc, Nat.add_comm 1 n]

/-- Settles O9: the one-step form is the definition, the per-tick form the countdown. -/
theorem dlyWaitsItsTicks : Obligations.DlyWaitsItsTicks := by
  intro n s hn
  have hcnt : (dlyStart n s).cnt.toNat = n := (BitVec.toNat_ofNat ..).trans (Nat.mod_eq_of_lt hn)
  exact ⟨encode_dly hn, rfl, _, rfl, rfl, rfl, visits_dlyVisit _ hcnt⟩

/-! ### MEAS, one tick a visit (R113, R115) -/

/-- Settles O11: the run length is 0. -/
theorem measOfTheOtherLevelIsZero : Obligations.MeasOfTheOtherLevelIsZero := by
  intro n l s hother
  have hdur : s.duration n l = some 0 := (duration_some s n l 0).2 ⟨Nat.zero_le _, by simp, hother⟩
  exact exec_meas_of_duration_some hdur

/-- A visit at the level, below the limit: the tick is counted. -/
theorem measVisit_counting (hline : s.line s.now = l) (hcnt : s.cnt.toNat < n + Config.measSlack) :
    measVisit n l s = .goesOn { s with cnt := s.cnt + 1, now := s.now + 1 } := by
  rw [measVisit, if_neg (not_not_intro hline), if_neg hcnt.ne]

/-- CNT counts without wrapping up to a timeout that fits the field of MEAS. -/
theorem cnt_add_one_toNat {c : BitVec 12} (hn : n < 2048) (hc : c.toNat < n) : (c + 1).toNat = c.toNat + 1 :=
  BitVec.toNat_add_of_lt (by simp; omega)

/-- The visits of a run of `j` ticks at the level count it and leave the count in D. -/
theorem visits_measVisit_completes {j fuel : Nat} (hn : n < 2048) (s : State) (hcnt : s.cnt.toNat + j ≤ n)
    (hline : ∀ x < j, s.line (s.now + x) = l) (hend : s.line (s.now + j) ≠ l) (hfuel : j < fuel) :
    visits (measVisit n l) fuel s = some { s with
      d := BitVec.ofNat 11 (s.cnt.toNat + j), cnt := BitVec.ofNat 12 (s.cnt.toNat + j), now := s.now + j, pc := s.pc + 1 } := by
  obtain ⟨fuel, rfl⟩ := Nat.exists_eq_add_one_of_ne_zero (Nat.ne_zero_of_lt hfuel)
  induction j generalizing s fuel with
  | zero =>
    rw [Nat.add_zero] at hend
    rw [visits, measVisit, if_pos hend]
    simp
  | succ j ih =>
    have hnext := cnt_add_one_toNat hn (show s.cnt.toNat < n by omega)
    obtain ⟨fuel, rfl⟩ := Nat.exists_eq_add_one_of_ne_zero (show fuel ≠ 0 by omega)
    rw [visits, measVisit_counting (hline 0 (by omega)) (by omega)]
    have hrest := ih { s with cnt := s.cnt + 1, now := s.now + 1 } (by simp only [hnext]; omega)
      (fun x hx => by rw [Nat.add_assoc, Nat.add_comm 1 x]; exact hline (x + 1) (by omega))
      (by rw [Nat.add_assoc, Nat.add_comm 1 j]; exact hend) fuel (by omega)
    simp only [hrest, hnext]
    simp only [Nat.add_assoc, Nat.add_comm 1 j]

/-- The visits of a run that reaches the limit count up to it; the last one raises, and CNT keeps the count. -/
theorem visits_measVisit_times_out {j fuel : Nat} (hn : n < 2048) (s : State) (hcnt : s.cnt.toNat + j = n)
    (hline : ∀ x < j + 1, s.line (s.now + x) = l) (hfuel : j < fuel) :
    visits (measVisit n l) fuel s = some (({ s with cnt := BitVec.ofNat 12 n, now := s.now + j }.pass 1).raise .timeout) := by
  obtain ⟨fuel, rfl⟩ := Nat.exists_eq_add_one_of_ne_zero (Nat.ne_zero_of_lt hfuel)
  induction j generalizing s fuel with
  | zero =>
    have hfull : BitVec.ofNat 12 n = s.cnt := by rw [← hcnt]; simp
    rw [visits, measVisit_raising (hline 0 (by omega)) hcnt, hfull]
    rfl
  | succ j ih =>
    have hnext := cnt_add_one_toNat hn (show s.cnt.toNat < n by omega)
    obtain ⟨fuel, rfl⟩ := Nat.exists_eq_add_one_of_ne_zero (show fuel ≠ 0 by omega)
    rw [visits, measVisit_counting (hline 0 (by omega)) (by omega)]
    have hrest := ih { s with cnt := s.cnt + 1, now := s.now + 1 } (by simp only [hnext]; omega)
      (fun x hx => by rw [Nat.add_assoc, Nat.add_comm 1 x]; exact hline (x + 1) (by omega)) fuel (by omega)
    simp only [hrest, Nat.add_assoc, Nat.add_comm 1 j]

/-- Settles O13: the visits count the run that `duration` measures, or count to the limit and raise. -/
theorem measPerTickFormAgrees : Obligations.MeasPerTickFormAgrees := by
  intro n l s hn
  cases hdur : s.duration n l with
  | some j =>
    obtain ⟨hle, hline, hend⟩ := (duration_some s n l j).1 hdur
    have hvisits := visits_measVisit_completes (fuel := n + 2 + Config.measSlack) hn (measStart s)
      ((Nat.zero_add j).trans_le hle) hline hend (by omega)
    refine ⟨_, _, exec_meas_of_duration_some hdur, hvisits, ?_⟩
    simp [measStart, State.measured]
  | none =>
    have hline := (duration_none s n l).1 hdur
    have hvisits := visits_measVisit_times_out (fuel := n + 2 + Config.measSlack) hn (measStart s) (Nat.zero_add n) hline
      (by omega)
    refine ⟨_, _, exec_meas_of_duration_none hdur, hvisits, rfl, fun herr => ?_, fun _ => ⟨rfl, rfl⟩⟩
    simp at herr

end Sys2Proof.Machine
end

section
/-! Proofs of the statements about one step: an accepted READ (R120), the ends of RUN (R22), the host commands of an operation's ticks
(R69, R247), and what the ports show at a completion (R196), after the lemmas they rest on. -/

namespace Sys2Proof.Machine

variable {α : Type} {f : State → α} {i : Instr} {s t u : State} {c : BitVec 2} {v : Word} {n p q : Nat}

/-! ### An idle step -/

/-- The end of an idle tick comes to a later tick. -/
theorem State.now_lt_afterIdle (s : State) : s.now < s.afterIdle.now := by
  unfold State.afterIdle
  split
  · exact Nat.lt_succ_self _
  · split
    · next r hr =>
      obtain ⟨-, hlt, -⟩ := firstReset_mem hr
      exact Nat.lt_succ_of_lt hlt
    · simp

/-- An idle step has a next state, at a later tick. -/
theorem step_idle_next (hrun : s.run = 0) : ∃ t, step s = .next t ∧ s.now < t.now := by
  cases hrst : s.inputs.rstAt s.now with
  | true => exact ⟨_, step_of_idle_reset hrun hrst, Nat.lt_succ_self _⟩
  | false =>
    obtain ⟨u, hu⟩ := exec_decodeHost_next (s.inputs.hcmdAt s.now) s
    refine ⟨u.afterIdle, by rw [step_of_command hrun hrst, hu]; rfl, ?_⟩
    have hnow : s.now ≤ u.now := by rw [exec_now hu]; exact Nat.le_add_right _ _
    exact hnow.trans_lt u.now_lt_afterIdle

/-! ### A READ (R120, R69) -/

/-- The accepting step enters the next tick: its command is answered before word 0. -/
theorem step_accepts_entering (hrun : s.run = 0) (hread : s.inputs.hcmdAt s.now = 1) (hrst : s.inputs.rstAt s.now = false)
    (hnext : s.inputs.rstAt (s.now + 1) = false) :
    step s = .next ((({ s with run := 1, pc := 0 } : State).serve 1).pass 1) := by
  rw [step_accepts hrun hread hrst, State.afterIdle, if_neg (by simp)]
  simp only [(firstReset_one_none s.inputs s.now).2 hnext]

/-- Rising commands: at most one of them is of a given tick. -/
theorem filter_tick_of_rising {cs : List (Tick × BitVec 2)} (h : cs.Pairwise (fun c c' => c.1 < c'.1)) (q : Tick) :
    cs.filter (fun c => c.1 == q) = (cs.find? (fun c => c.1 == q)).toList := by
  induction h with
  | nil => rfl
  | @cons c cs hlater _ ih =>
    by_cases hc : c.1 = q
    · have hnone : cs.filter (fun c => c.1 == q) = [] :=
        List.filter_eq_nil_iff.2 fun c' hc' => by simpa [hc] using (hc ▸ hlater c' hc').ne'
      simp [hc, hnone]
    · simpa [hc] using ih

theorem hcmdsIn_one (e : Inputs) (p : Tick) : e.hcmdsIn p 1 = e.hcmds.filter (fun c => c.1 == p + 1) := by
  refine List.filter_congr fun c _ => ?_
  have hspan : p < c.1 ∧ c.1 ≤ p + 1 ↔ c.1 = p + 1 :=
    ⟨fun ⟨hlt, hle⟩ => Nat.le_antisymm hle hlt, fun heq => ⟨heq.symm ▸ Nat.lt_succ_self p, heq.le⟩⟩
  rw [← Bool.decide_and, decide_eq_decide.2 hspan, Bool.beq_eq_decide_eq]

/-- The commands of one tick: the command of that tick is answered. -/
theorem State.serve_one (h : s.inputs.hcmds.Pairwise (fun c c' => c.1 < c'.1)) :
    s.serve 1 = s.answer (s.now + 1, s.inputs.hcmdAt (s.now + 1)) := by
  rw [State.serve, hcmdsIn_one, filter_tick_of_rising h, Inputs.hcmdAt]
  cases hfind : s.inputs.hcmds.find? (fun c => c.1 == s.now + 1) with
  | none => rfl
  | some c =>
    have hc : c.1 = s.now + 1 := by simpa using List.find?_some hfind
    simp [← hc]

/-- What an answered command puts out (R88). -/
theorem State.answer_log (s : State) (p : Tick) (c : BitVec 2) :
    (s.answer (p, c)).log =
      if c = 2 then .hresp p s.hum :: s.log else if c = 3 then .hresp p (s.tneg ++ s.tmag) :: s.log else s.log := by
  have hc : c = 0 ∨ c = 1 ∨ c = 2 ∨ c = 3 := by revert c; decide
  rcases hc with rfl | rfl | rfl | rfl <;> rfl

/-- Settles O3: READ by itself, and the accepting step, which answers the command of the tick it enters. -/
theorem readStartsACycleOrIsIgnored : Obligations.ReadStartsACycleOrIsIgnored := by
  refine ⟨fun s hrun => ?_, fun s hrun => ?_, fun s hrun hread hrst hnext => ?_⟩
  · exact congrArg Host.Outcome.next (if_pos hrun)
  · exact congrArg Host.Outcome.next (if_neg (by simp [hrun]))
  · refine ⟨_, step_accepts_entering hrun hread hrst hnext, congrArg (State.pass · 1) (State.serve_eq _ 1),
      State.serve_retCount _ 1, State.serve_errorCount _ 1, fun hrising => ?_⟩
    have hserved := State.serve_one (s := { s with run := 1, pc := 0 }) hrising
    rw [State.pass_log, hserved, State.answer_log]

/-! ### RUN (R22, R231) -/

/-- The end of an idle tick does not set RUN. -/
theorem State.run_of_afterIdle_run (h : s.afterIdle.run = 1) : s.run = 1 := by
  by_contra hne
  have hidle : s.run = 0 := (BitVec.eq_zero_or_eq_one s.run).resolve_right hne
  rw [State.afterIdle, if_pos hidle, State.pass_run] at h
  exact hne h

/-- RUN rises at an idle tick only if its command is READ and it has no reset. -/
theorem hostStep_run (hrun : s.run = 0) (h : hostStep s = .next t) (hrises : t.run = 1) :
    s.inputs.hcmdAt s.now = 1 ∧ s.inputs.rstAt s.now = false := by
  rcases hostStep_cases h with ⟨-, rfl⟩ | ⟨hrst, u, hu, rfl⟩
  · rw [State.resetAt_run] at hrises
    cases hrises
  · refine ⟨?_, hrst⟩
    by_contra hne
    obtain ⟨hkept, -, -⟩ := exec_decodeHost_of_ne_read hne hu
    rw [State.run_of_afterIdle_run hrises, hrun] at hkept
    cases hkept

/-- RUN falls in a running step only by CMT, by an error entry or by a reset. -/
theorem microStep_run (hrun : s.run = 1) (h : microStep s = .next t) (hfalls : t.run = 0) :
    decodeWord s.fetch = .ok .cmt ∨ errorCount s.log < errorCount t.log ∨
      ∃ i r, decodeWord s.fetch = .ok i ∧ s.inputs.firstReset s.now (s.ticksOf i) = some r := by
  obtain ⟨i, hi, ⟨r, hr, -⟩ | ⟨-, u, hu, rfl⟩⟩ := microStep_cases h
  · exact .inr (.inr ⟨i, r, hi, hr⟩)
  · rw [State.afterOp_run] at hfalls
    rcases (exec_run (by simpa using hrun) hu).1 hfalls with rfl | herr
    · exact .inl hi
    · exact .inr (.inl (by simpa using herr))

/-- Settles O27: `hostStep_run` for a rise, `microStep_run` for a fall. -/
theorem runChangesOnlyAtReadCompletionOrReset : Obligations.RunChangesOnlyAtReadCompletionOrReset := by
  refine fun s t h => ⟨fun hrun => ?_, fun hrun => ?_⟩
  · rw [step, if_neg (by simp [hrun])] at h
    exact hostStep_run hrun h
  · rw [step, if_pos hrun] at h
    exact microStep_run hrun h

/-! ### The host commands of an operation's ticks (R69, R247) -/

/-- HUM and TEMP have a response, from the registers as they stand (R88). -/
theorem State.responseTo_eq_some (s : State) (c : BitVec 2) (v : Word) :
    s.responseTo c = some v ↔ (c = 2 ∧ v = s.hum) ∨ (c = 3 ∧ v = s.tneg ++ s.tmag) := by
  have hc : c = 0 ∨ c = 1 ∨ c = 2 ∨ c = 3 := by revert c; decide
  rcases hc with rfl | rfl | rfl | rfl <;>
    simp [State.responseTo, State.humResponse, State.tempResponse, eq_comm]

/-- Answering changes no response. -/
theorem State.answer_responseTo (s : State) (x : Tick × BitVec 2) : (s.answer x).responseTo = s.responseTo := by
  rw [State.answer_eq]
  rfl

theorem State.hresp_mem_answer (s : State) (x : Tick × BitVec 2) :
    Event.hresp p v ∈ (s.answer x).log ↔ Event.hresp p v ∈ s.log ∨ (x.1 = p ∧ s.responseTo x.2 = some v) := by
  unfold State.answer
  split
  · next w hw => simp [hw, or_comm, eq_comm]
  · next hnone => simp [hnone]

/-- The responses after some commands are those before them and the commands' own. -/
theorem hresp_mem_foldl_answer (cs : List (Tick × BitVec 2)) (s : State) :
    Event.hresp p v ∈ (cs.foldl State.answer s).log ↔
      Event.hresp p v ∈ s.log ∨ ∃ x ∈ cs, x.1 = p ∧ s.responseTo x.2 = some v := by
  induction cs generalizing s with
  | nil => simp
  | cons x cs ih =>
    rw [List.foldl_cons, ih, State.hresp_mem_answer, State.answer_responseTo, List.exists_mem_cons_iff, or_assoc]

/-- The responses an operation's ticks add are those to their HUM and TEMP commands. -/
theorem State.hresp_mem_serve (s : State) (n : Nat) :
    Event.hresp p v ∈ (s.serve n).log ↔ Event.hresp p v ∈ s.log ∨ (s.now < p ∧ p ≤ s.now + n ∧
      (((p, 2#2) ∈ s.inputs.hcmds ∧ v = s.hum) ∨ ((p, 3#2) ∈ s.inputs.hcmds ∧ v = s.tneg ++ s.tmag))) := by
  rw [State.serve, hresp_mem_foldl_answer]
  refine or_congr_right ?_
  simp only [State.responseTo_eq_some, Inputs.hcmdsIn, List.mem_filter, Bool.and_eq_true, decide_eq_true_eq]
  constructor
  · rintro ⟨⟨q, c⟩, ⟨hmem, hlt, hle⟩, rfl, ⟨rfl, hv⟩ | ⟨rfl, hv⟩⟩
    · exact ⟨hlt, hle, .inl ⟨hmem, hv⟩⟩
    · exact ⟨hlt, hle, .inr ⟨hmem, hv⟩⟩
  · rintro ⟨hlt, hle, ⟨hmem, hv⟩ | ⟨hmem, hv⟩⟩
    · exact ⟨_, ⟨hmem, hlt, hle⟩, rfl, .inl ⟨rfl, hv⟩⟩
    · exact ⟨_, ⟨hmem, hlt, hle⟩, rfl, .inr ⟨rfl, hv⟩⟩

/-- A micro-operation puts out no response. -/
theorem hresp_mem_exec_micro (hmicro : i.isHost = false) (h : exec i s = .next t) :
    Event.hresp p v ∈ t.log ↔ Event.hresp p v ∈ s.log := by
  rcases exec_micro_cases hmicro h with ⟨-, -, -, hlog⟩ | ⟨-, rfl⟩ | ⟨k, w, hfails, rfl⟩
  · rw [hlog]
  · simp [State.committed]
  · simp [hfails.log_eq]

/-- A running step that no reset drops, from its own end: the operation, and the tick passed if it ended the read. -/
theorem exec_of_step (hrun : s.run = 1) (hi : decodeWord s.fetch = .ok i)
    (hreset : s.inputs.firstReset s.now (s.ticksOf i) = none) (h : step s = .next t) :
    ∃ u, exec i (s.serve (s.ticksOf i)) = .next u ∧ t = u.afterOp :=
  mapNext_next ((step_of_decoded hrun hi hreset).symm.trans h)

/-- Settles O36: the operation itself puts out no response, so what is added is what its ticks' commands are answered. -/
theorem commandsDuringAnOperationAreAnsweredFirst : Obligations.CommandsDuringAnOperationAreAnsweredFirst := by
  intro s t i hrun hi hreset h p v
  obtain ⟨u, hu, rfl⟩ := exec_of_step hrun hi hreset h
  rw [State.afterOp_log, hresp_mem_exec_micro (isHost_of_decodeWord hi) hu, State.hresp_mem_serve]

/-! ### What the ports show at a completion (R196, R68) -/

/-- The operation that ends a read puts out `ret` last, at its tick and with the code it leaves in OUTCOME. -/
theorem exec_micro_ends (hmicro : i.isHost = false) (hrun : s.run = 1) (h : exec i s = .next t) (hend : t.run = 0) :
    ∃ log, t.log = .ret t.now t.outcome :: log := by
  rcases exec_micro_cases hmicro h with ⟨-, hkept, -, -⟩ | ⟨-, rfl⟩ | ⟨k, w, -, rfl⟩
  · rw [hend, hrun] at hkept
    cases hkept
  · exact ⟨_, rfl⟩
  · exact ⟨_, rfl⟩

/-- At the ticks of a running operation without a reset a port shows what it showed before. -/
theorem passingValue_of_running (hrun : s.run = 1) (hreset : s.inputs.firstReset s.now n = none) (hle : q ≤ s.now + n) :
    passingValue f s t q = f s := by
  refine if_neg ?_
  rintro ⟨-, hrst, hidle | hlt⟩
  · rw [hrun] at hidle
    cases hidle
  · have hmem : q ∈ s.inputs.resets := List.contains_iff_mem.1 hrst
    exact absurd hle (Nat.not_le.2 (firstReset_none.1 hreset q hmem hlt))

/-- At an idle tick without a reset a port shows what it is connected to. -/
theorem portAt_idle (f : State → α) (hrun : s.run = 0) (hrst : s.inputs.rstAt s.now = false) :
    State.portAt f 1 s s.now = some (f s) := by
  obtain ⟨t, hstep, hnow⟩ := step_idle_next hrun
  rw [portAt_passing hstep le_rfl hnow, passingValue_noReset hrst]

/-- Settles O43: the step ends at the tick of its `ret`, which it passes; up to it the ports show the state before, and from the
next tick the state after. -/
theorem aCompletionShowsFromTheNextTick : Obligations.ACompletionShowsFromTheNextTick := by
  intro s t i hrun hi hreset h hend
  obtain ⟨u, hu, rfl⟩ := exec_of_step hrun hi hreset h
  have huend : u.run = 0 := by simpa using hend
  obtain ⟨log, hlog⟩ := exec_micro_ends (isHost_of_decodeWord hi) (by simpa using hrun) hu huend
  obtain ⟨hdone, hcode⟩ := State.done_of_log_ret hlog
  have hlast : u.now = s.now + s.ticksOf i := by
    rw [exec_now hu, s.serve_now, State.ticksOf_congr (s.serve_now _) (s.serve_inputs _)]
  have hin := step_inputs h
  rw [State.afterOp_of_ended huend] at h hin ⊢
  have hshows {β : Type} (g : State → β) (q : Nat) (hfrom : s.now ≤ q) (hto : q ≤ u.now) :
      State.portAt g 1 s q = some (g s) := by
    rw [portAt_passing h hfrom (Nat.lt_succ_of_le hto), passingValue_of_running hrun hreset (hlast ▸ hto)]
  refine ⟨u.now, rfl, fun q hfrom hto => ⟨?_, hshows State.outcome q hfrom hto⟩, hdone, hcode, fun hrst => ?_⟩
  · exact (hshows State.busy q hfrom hto).trans (congrArg some hrun)
  · rw [← hin] at hrst
    have hbusy := portAt_idle State.busy (s := u.pass 1) huend hrst
    exact ⟨hbusy.trans (congrArg some huend), portAt_idle State.outcome (s := u.pass 1) huend hrst⟩

end Sys2Proof.Machine
end

section
/-! What a running step of the hard-wired microprogram does (R122, R123): its operation, the word and the count of bits that come next, and
how it ends. The statements about the invariant and about whole reads rest on it. -/

namespace Sys2Proof.Machine

variable {i : Instr} {s t u : State} {a : BitVec 4} {n : Nat} {l : Level}

/-! ### The operation at each address (R122) -/

/-- The operation of the word at an address. -/
def opAt (a : BitVec 4) : Instr :=
  match a.toNat with
  | 0 => .clrf
  | 1 => .dir 1
  | 2 => .lvl 0
  | 3 => .dly 3000
  | 4 => .lvl 1
  | 5 => .dly 25
  | 6 => .dir 0
  | 7 => .meas 85 0
  | 8 => .meas 85 1
  | 9 => .meas 56 0
  | 10 => .meas 75 1
  | 11 => .pack 40
  | 12 => .loop 9 40
  | 13 => .extr
  | 14 => .vrfy
  | _ => .cmt

theorem decodeWord_wordAt (a : BitVec 4) : decodeWord (wordAt a) = .ok (opAt a) := by
  revert a
  decide

theorem isHost_opAt (a : BitVec 4) : (opAt a).isHost = false := isHost_of_decodeWord (decodeWord_wordAt a)

theorem decodeWord_fetch (hrom : s.rom = microprogram) : decodeWord s.fetch = .ok (opAt s.pc) := by
  rw [State.fetch_eq_wordAt hrom, decodeWord_wordAt]

/-- PACK stands at address 11 alone, CLRF at 0. -/
theorem address_of_pack (h : opAt a = .pack n) : a.toNat = 11 := by
  have hpack : ∀ a : BitVec 4, (opAt a).mnemonic = "PACK" → a.toNat = 11 := by decide
  exact hpack a (congrArg Instr.mnemonic h)

theorem address_of_clrf (h : opAt a = .clrf) : a.toNat = 0 := by
  have hclrf : ∀ a : BitVec 4, (opAt a).mnemonic = "CLRF" → a.toNat = 0 := by decide
  exact hclrf a (congrArg Instr.mnemonic h)

/-- The four measurements, with their timeouts and levels. -/
theorem address_of_meas (h : opAt a = .meas n l) :
    (a.toNat = 7 ∧ n = 85 ∧ l = 0) ∨ (a.toNat = 8 ∧ n = 85 ∧ l = 1) ∨ (a.toNat = 9 ∧ n = 56 ∧ l = 0) ∨
      (a.toNat = 10 ∧ n = 75 ∧ l = 1) := by
  have hmeas : ∀ a : BitVec 4, (opAt a).mnemonic = "MEAS" → a = 7 ∨ a = 8 ∨ a = 9 ∨ a = 10 := by decide
  rcases hmeas a (congrArg Instr.mnemonic h) with rfl | rfl | rfl | rfl <;> cases h <;> decide

/-- VRFY and CMT stand at the end. -/
theorem address_of_vrfy (h : opAt a = .vrfy) : a.toNat = 14 := by
  have hvrfy : ∀ a : BitVec 4, (opAt a).mnemonic = "VRFY" → a.toNat = 14 := by decide
  exact hvrfy a (congrArg Instr.mnemonic h)

theorem address_of_cmt (h : opAt a = .cmt) : a.toNat = 15 := by
  have hcmt : ∀ a : BitVec 4, (opAt a).mnemonic = "CMT" → a.toNat = 15 := by decide
  exact hcmt a (congrArg Instr.mnemonic h)

/-! ### The word and the count of bits that come next (R123, R124) -/

/-- From `s` the read goes on with `t`: to the next word, at LOOP back to word 9 until 40 bits are counted; CLRF starts the count; the pin
is as DIR and LVL leave it. -/
structure Flows (s t : State) : Prop where
  last : s.pc.toNat < 15
  line : s.pc.toNat ≠ 12 → t.pc.toNat = s.pc.toNat + 1 ∧ t.idx.toNat = if s.pc.toNat = 0 then 0 else s.idx.toNat
  loop : s.pc.toNat = 12 →
    t.idx.toNat = (s.idx.toNat + 1) % 64 ∧ t.pc.toNat = if s.idx.toNat + 1 = 40 then 13 else 9
  dir : t.dir = if s.pc.toNat = 1 then 1 else if s.pc.toNat = 6 then 0 else s.dir
  lvl : t.lvl = if s.pc.toNat = 2 then 0 else if s.pc.toNat = 4 then 1 else s.lvl

/-- LOOP leads to word 9 or 13 alone. -/
theorem Flows.ne_loop (h : Flows s t) (h9 : t.pc.toNat ≠ 9) (h13 : t.pc.toNat ≠ 13) : s.pc.toNat ≠ 12 := fun h12 => by
  obtain ⟨-, hpc⟩ := h.loop h12
  split at hpc <;> omega

/-- An operation that leaves IDX, DIR and LVL alone and goes on to the next word, at an address where that is the flow. -/
theorem flows_of_next_word (ha : s.pc.toNat = 3 ∨ s.pc.toNat = 5 ∨ (7 ≤ s.pc.toNat ∧ s.pc.toNat < 15 ∧ s.pc.toNat ≠ 12))
    (hpc : t.pc = s.pc + 1) (hidx : t.idx = s.idx) (hdir : t.dir = s.dir) (hlvl : t.lvl = s.lvl) : Flows s t := by
  have hnext : t.pc.toNat = s.pc.toNat + 1 := by
    rw [hpc]
    exact BitVec.toNat_add_of_lt (by simp; omega)
  refine ⟨by omega, fun _ => ⟨hnext, ?_⟩, fun h => by omega, ?_, ?_⟩
  · rw [hidx, if_neg (by omega)]
  · rw [hdir, if_neg (by omega), if_neg (by omega)]
  · rw [hlvl, if_neg (by omega), if_neg (by omega)]

/-- The operations in line leave LVL alone. -/
theorem exec_lvl_of_staysInLine (hi : staysInLine i = true) (h : exec i s = .next t) : t.lvl = s.lvl := by
  cases i with
  | meas n l => rcases execMeas_cases h with ⟨k, -, rfl⟩ | ⟨-, rfl⟩ <;> rfl
  | pack n => rcases execPack_cases h with ⟨-, rfl⟩ | ⟨-, -, rfl⟩ <;> rfl
  | extr => cases h; rfl
  | vrfy => rcases execVrfy_cases h with ⟨-, rfl⟩ | ⟨-, rfl⟩ <;> rfl
  | _ => cases hi

/-- The addresses: the operations in line, LOOP, CMT, and the start signal. -/
theorem address_cases (a : BitVec 4) :
    (7 ≤ a.toNat ∧ a.toNat < 15 ∧ a.toNat ≠ 12 ∧ staysInLine (opAt a) = true) ∨ a = 12 ∨ a = 15 ∨
      a = 0 ∨ a = 1 ∨ a = 2 ∨ a = 3 ∨ a = 4 ∨ a = 5 ∨ a = 6 := by
  revert a
  decide

/-- LOOP at its address. -/
theorem flows_of_loop (h12 : s.pc = 12) (h : exec (.loop 9 40) s = .next t) : Flows s t := by
  cases h
  have hcount : (s.idx + 1).toNat = (s.idx.toNat + 1) % 64 := BitVec.toNat_add _ _
  have hlast : s.idx + 1 = 40 ↔ s.idx.toNat + 1 = 40 := by
    rw [← BitVec.toNat_inj, hcount]
    have := s.idx.isLt
    simp
    omega
  refine ⟨by simp [h12], fun hne => absurd (congrArg BitVec.toNat h12) hne, fun _ => ⟨hcount, ?_⟩, by simp [h12],
    by simp [h12]⟩
  simp only [hlast, h12]
  split <;> rfl

/-- An operation that does not end the read goes on to the next word; only LOOP can go back. -/
theorem exec_opAt_flows (hrun : s.run = 1) (h : exec (opAt s.pc) s = .next t) (hon : t.run = 1) : Flows s t := by
  rcases address_cases s.pc with ⟨h7, h15, h12, hline⟩ | hpc | hpc | hpc | hpc | hpc | hpc | hpc | hpc | hpc
  · rcases exec_staysInLine hline hrun h with hend | ⟨-, hpc, hidx, hdir⟩
    · rw [hend] at hon
      cases hon
    · exact flows_of_next_word (.inr (.inr ⟨h7, h15, h12⟩)) hpc hidx hdir (exec_lvl_of_staysInLine hline h)
  · rw [hpc] at h
    exact flows_of_loop hpc h
  · rw [hpc] at h
    cases h
    cases hon
  all_goals
    rw [hpc] at h
    cases h
    exact ⟨by simp [hpc], fun _ => by simp [hpc], fun h12 => by simp [hpc] at h12, by simp [hpc], by simp [hpc]⟩

/-- From `s` the read has ended in `t`: from word 7 on, with PC back at 0, and IDX and the pin as they were. -/
structure Ends (s t : State) : Prop where
  addr : 7 ≤ s.pc.toNat
  pc : t.pc = 0
  idx : t.idx = s.idx
  dir : t.dir = s.dir
  lvl : t.lvl = s.lvl

/-- An operation that ends the read is CMT or fails. -/
theorem exec_opAt_ends (hrun : s.run = 1) (h : exec (opAt s.pc) s = .next t) (hend : t.run = 0) :
    Ends s t ∧ ((s.pc.toNat = 15 ∧ t = s.committed) ∨ ∃ k v, Fails s (opAt s.pc) k v ∧ t = v.raise k) := by
  rcases exec_micro_cases (isHost_opAt _) h with ⟨-, hkept, -, -⟩ | ⟨hcmt, rfl⟩ | ⟨k, v, hfails, rfl⟩
  · rw [hend, hrun] at hkept
    cases hkept
  · have h15 := address_of_cmt hcmt
    exact ⟨⟨by omega, rfl, rfl, rfl, rfl⟩, .inl ⟨h15, rfl⟩⟩
  · refine ⟨?_, .inr ⟨k, v, hfails, rfl⟩⟩
    generalize hi : opAt s.pc = i at hfails
    cases hfails with
    | timeout =>
      have := address_of_meas hi
      exact ⟨by omega, rfl, rfl, rfl, rfl⟩
    | mismatch =>
      have := address_of_vrfy hi
      exact ⟨by omega, rfl, rfl, rfl, rfl⟩

/-! ### A running step -/

/-- What a running step does: a reset at one of its ticks, or its operation, after the host's answers. -/
theorem step_running_cases (hrom : s.rom = microprogram) (hrun : s.run = 1) (h : step s = .next t) :
    (∃ n r, s.inputs.firstReset s.now (s.ticksOf (opAt s.pc)) = some r ∧ t = (s.serve n).resetAt r) ∨
      ∃ u, exec (opAt s.pc) (s.serve (s.ticksOf (opAt s.pc))) = .next u ∧ t = u.afterOp := by
  rw [step, if_pos hrun] at h
  obtain ⟨i, hi, hcases⟩ := microStep_cases h
  obtain rfl := Except.ok.inj ((decodeWord_fetch hrom).symm.trans hi)
  exact hcases.imp (fun ⟨r, hr, ht⟩ => ⟨_, r, hr, ht⟩) fun ⟨_, u, hu, ht⟩ => ⟨u, hu, ht⟩

/-- A running step that leaves RUN = 1 is its operation, which goes on with the read. -/
theorem exec_of_step_running (hrom : s.rom = microprogram) (hrun : s.run = 1) (h : step s = .next t) (hon : t.run = 1) :
    exec (opAt s.pc) (s.serve (s.ticksOf (opAt s.pc))) = .next t ∧ Flows s t := by
  rcases step_running_cases hrom hrun h with ⟨n, r, -, rfl⟩ | ⟨u, hu, rfl⟩
  · rw [State.resetAt_run] at hon
    cases hon
  · rw [State.afterOp_run] at hon
    rw [State.afterOp_of_running hon]
    refine ⟨hu, ?_⟩
    obtain ⟨hlast, hline, hloop, hdir, hlvl⟩ :=
      exec_opAt_flows (s := s.serve (s.ticksOf (opAt s.pc))) (by simpa using hrun) (by simpa using hu) hon
    simp only [State.serve_pc, State.serve_idx, State.serve_dir, State.serve_lvl] at hlast hline hloop hdir hlvl
    exact ⟨hlast, hline, hloop, hdir, hlvl⟩

/-- A running step has a next state: only PACK could be refused, and at its word IDX is inside the frame. -/
theorem step_running_next (hrom : s.rom = microprogram) (hrun : s.run = 1) (hidx : s.pc.toNat = 11 → s.idx.toNat < 40) :
    ∃ t, step s = .next t := by
  have hi := decodeWord_fetch hrom
  cases hreset : s.inputs.firstReset s.now (s.ticksOf (opAt s.pc)) with
  | some r => exact ⟨_, step_of_running_reset hrun hi hreset⟩
  | none =>
    rw [step_of_decoded hrun hi hreset]
    rcases exec_stops (opAt s.pc) (s.serve (s.ticksOf (opAt s.pc))) with ⟨u, hu⟩ | ⟨n, hpack, -, hout, -⟩
    · exact ⟨u.afterOp, by rw [hu]; rfl⟩
    · rw [State.serve_idx] at hout
      exact absurd (hidx (address_of_pack hpack)) (Nat.not_lt.2 hout)

end Sys2Proof.Machine
end

section
/-! Proofs of the statements about the invariant (10_state.md, R144, R93, R155), after the lemmas they rest on. -/

namespace Sys2Proof.Machine

variable {i : Instr} {s t u : State} {n : Nat}

/-! ### The pin and IDX along the microprogram (R144, R24) -/

theorem pinOk_iff (s : State) : pinOk s = true ↔
    s.dir = (if 2 ≤ s.pc.toNat ∧ s.pc.toNat ≤ 6 then 1 else 0) ∧
      s.lvl = (if s.pc.toNat = 3 ∨ s.pc.toNat = 4 then 0 else 1) := by
  simp [pinOk]

/-- From word 7 on the pin is an input with LVL = 1. -/
theorem released_of_pinOk (h : pinOk s = true) (haddr : s.pc.toNat < 2 ∨ 7 ≤ s.pc.toNat) : s.dir = 0 ∧ s.lvl = 1 := by
  obtain ⟨hdir, hlvl⟩ := (pinOk_iff s).1 h
  exact ⟨hdir.trans (if_neg (by omega)), hlvl.trans (if_neg (by omega))⟩

theorem pinOk_of_released (hpc : t.pc.toNat < 2 ∨ 7 ≤ t.pc.toNat) (hdir : t.dir = 0) (hlvl : t.lvl = 1) : pinOk t = true :=
  (pinOk_iff t).2 ⟨hdir.trans (if_neg (by omega)).symm, hlvl.trans (if_neg (by omega)).symm⟩

theorem Flows.pinOk (h : Flows s t) (hs : pinOk s = true) : Machine.pinOk t = true := by
  obtain ⟨hlast, hline, hloop, hdir, hlvl⟩ := h
  by_cases h7 : 7 ≤ s.pc.toNat
  · obtain ⟨hsdir, hslvl⟩ := released_of_pinOk hs (.inr h7)
    have htpc : 7 ≤ t.pc.toNat := by
      by_cases h12 : s.pc.toNat = 12
      · rw [(hloop h12).2]; split <;> decide
      · rw [(hline h12).1]; omega
    refine pinOk_of_released (.inr htpc) ?_ ?_
    · rw [hdir, if_neg (by omega), if_neg (by omega), hsdir]
    · rw [hlvl, if_neg (by omega), if_neg (by omega), hslvl]
  · obtain ⟨hsdir, hslvl⟩ := (pinOk_iff s).1 hs
    obtain ⟨htpc, -⟩ := hline (by omega)
    rw [pinOk_iff, hdir, hlvl, hsdir, hslvl, htpc]
    have ha : s.pc.toNat < 7 := by omega
    generalize s.pc.toNat = a at ha
    revert a
    decide

theorem Ends.pinOk (h : Ends s t) (hs : pinOk s = true) : Machine.pinOk t = true := by
  obtain ⟨haddr, hpc, -, hdir, hlvl⟩ := h
  obtain ⟨hsdir, hslvl⟩ := released_of_pinOk hs (.inr haddr)
  exact pinOk_of_released (.inl (by simp [hpc])) (hdir.trans hsdir) (hlvl.trans hslvl)

/-- IDX at an address, in numbers. -/
theorem idxOk_iff (s : State) : idxOk s = true ↔
    (s.pc.toNat = 0 ∧ s.idx.toNat ≤ 40) ∨ (1 ≤ s.pc.toNat ∧ s.pc.toNat ≤ 8 ∧ s.idx.toNat = 0) ∨
      (9 ≤ s.pc.toNat ∧ s.pc.toNat ≤ 12 ∧ s.idx.toNat ≤ 39) ∨ (13 ≤ s.pc.toNat ∧ s.idx.toNat = 40) := by
  have h0 : s.idx = 0 ↔ s.idx.toNat = 0 := BitVec.toNat_inj.symm
  have h40 : s.idx = 40 ↔ s.idx.toNat = 40 := BitVec.toNat_inj.symm
  unfold idxOk
  split_ifs <;> simp only [decide_eq_true_eq, beq_iff_eq, h0, h40] <;> omega

theorem Flows.idxOk (h : Flows s t) (hs : s.pc.toNat ≠ 0 → idxOk s = true) : Machine.idxOk t = true := by
  obtain ⟨hlast, hline, hloop, -, -⟩ := h
  rw [idxOk_iff] at hs ⊢
  by_cases h12 : s.pc.toNat = 12
  · have := hloop h12
    split at this <;> omega
  · have := hline h12
    split at this <;> omega

/-! ### What an operation keeps, whatever the word -/

/-- Every operation keeps the canonical form of the FRAME space. -/
theorem exec_frame_wf (h : exec i s = .next t) (hs : s.frame.wf = true) : t.frame.wf = true := by
  by_cases hclrf : i = .clrf
  · subst hclrf
    cases h
    exact Memory.cleared_wf
  by_cases hpack : ∃ n, i = .pack n
  · obtain ⟨n, rfl⟩ := hpack
    rcases execPack_cases h with ⟨-, rfl⟩ | ⟨-, hidx, rfl⟩
    · exact hs
    · exact Memory.setBit_wf _ _ hidx hs
  · rwa [exec_frame hclrf (fun n hn => hpack ⟨n, hn⟩) h]

/-- A micro-operation keeps OUTCOME and the codes of the events legal (R86, R190). -/
theorem exec_micro_legal (hmicro : i.isHost = false) (h : exec i s = .next t) (hout : s.outcome ≠ 3)
    (hlog : ∀ e ∈ s.log, e.legal = true) : t.outcome ≠ 3 ∧ ∀ e ∈ t.log, e.legal = true := by
  rcases exec_micro_cases hmicro h with ⟨-, -, htout, htlog⟩ | ⟨-, rfl⟩ | ⟨k, v, hfails, rfl⟩
  · rw [htout, htlog]
    exact ⟨hout, hlog⟩
  · exact ⟨(by decide : Outcome.ok.code ≠ 3), List.forall_mem_cons.2 ⟨rfl, hlog⟩⟩
  · rw [v.raise_outcome, v.raise_log, hfails.log_eq, List.forall_mem_cons, List.forall_mem_cons]
    rcases hfails.code_cases with hk | hk <;> rw [hk] <;> exact ⟨by decide, rfl, rfl, hlog⟩

/-- No operation but MEAS writes D. -/
theorem exec_d (hmeas : ∀ n l, i ≠ .meas n l) (h : exec i s = .next t) : t.d = s.d := by
  cases i with
  | meas n l => exact absurd rfl (hmeas n l)
  | read => rcases execRead_cases h with ⟨-, rfl⟩ | ⟨-, rfl⟩ <;> rfl
  | pack n => rcases execPack_cases h with ⟨-, rfl⟩ | ⟨-, -, rfl⟩ <;> rfl
  | vrfy => rcases execVrfy_cases h with ⟨-, rfl⟩ | ⟨-, rfl⟩ <;> rfl
  | _ => cases h; rfl

/-- A measurement of the microprogram leaves in D at most its timeout, and that is at most 85 (R23). -/
theorem exec_opAt_d (h : exec (opAt s.pc) s = .next t) (hs : s.d.toNat ≤ 85) : t.d.toNat ≤ 85 := by
  by_cases hmeas : ∃ n l, opAt s.pc = .meas n l
  · obtain ⟨n, l, hi⟩ := hmeas
    rw [hi] at h
    have hn := address_of_meas hi
    rcases execMeas_cases h with ⟨k, hk, rfl⟩ | ⟨-, rfl⟩
    · obtain ⟨hle, -, -⟩ := (duration_some s n l k).1 hk
      rw [measured_d_toNat (by omega) hk]
      unfold Config.measSlack at hle
      omega
    · exact hs
  · rwa [exec_d (fun n l hi => hmeas ⟨n, l, hi⟩) h]

/-! ### The invariant, operation by operation -/

/-- The answers of an operation's ticks are responses, and responses are legal. -/
theorem State.Inv.serve (h : s.Inv) (n : Nat) : (s.serve n).Inv := by
  obtain ⟨es, hlog, hes⟩ := s.serve_log n
  rw [State.serve_eq]
  refine ⟨h.rom, h.frame, h.idle, h.outcome, h.duration, h.pin, h.index, ?_, h.commands⟩
  rw [hlog]
  refine List.forall_mem_append.2 ⟨fun e he => ?_, h.events⟩
  obtain ⟨p, v, rfl, -⟩ := hes e he
  rfl

theorem State.Inv.pass (h : s.Inv) (n : Nat) : (s.pass n).Inv :=
  ⟨h.rom, h.frame, h.idle, h.outcome, h.duration, h.pin, h.index, h.events, h.commands⟩

theorem State.Inv.afterOp (h : s.Inv) : s.afterOp.Inv := by
  unfold State.afterOp
  split
  · exact h.pass 1
  · exact h

theorem State.Inv.resetAt (h : s.Inv) (r : Tick) : (s.resetAt r).Inv :=
  ⟨h.rom, rfl, fun _ => rfl, by simp, by simp, rfl, rfl, h.events, h.commands⟩

/-- The operation of the word at PC keeps the invariant. -/
theorem State.Inv.exec_opAt (h : s.Inv) (hrun : s.run = 1) (hexec : exec (opAt s.pc) s = .next t) : t.Inv := by
  obtain ⟨hrom, hin⟩ := exec_rom_inputs hexec
  obtain ⟨hout, hlog⟩ := exec_micro_legal (isHost_opAt _) hexec h.outcome h.events
  have hrest : (t.run = 0 → t.pc = 0) ∧ pinOk t = true ∧ idxOk t = true := by
    rcases BitVec.eq_zero_or_eq_one t.run with hend | hon
    · obtain ⟨hends, -⟩ := exec_opAt_ends hrun hexec hend
      have hidx := (idxOk_iff s).1 h.index
      have haddr := hends.addr
      refine ⟨fun _ => hends.pc, hends.pinOk h.pin, (idxOk_iff t).2 (.inl ⟨by simp [hends.pc], ?_⟩)⟩
      rw [hends.idx]
      omega
    · have hflows := exec_opAt_flows hrun hexec hon
      exact ⟨fun hend => by simp [hon] at hend, hflows.pinOk h.pin, hflows.idxOk fun _ => h.index⟩
  obtain ⟨hidle, hpin, hindex⟩ := hrest
  exact ⟨hrom.trans h.rom, exec_frame_wf hexec h.frame, hidle, hout, exec_opAt_d hexec h.duration, hpin, hindex, hlog,
    hin ▸ h.commands⟩

/-- A host command keeps the invariant of an idle block: an accepted READ finds PC at 0, and a response is legal. -/
theorem State.Inv.exec_command {c : BitVec 2} (h : s.Inv) (hexec : exec (decodeHost c) s = .next t) : t.Inv := by
  rcases exec_host_cases hexec with rfl | ⟨-, hidle, rfl⟩ | ⟨-, rfl⟩ | ⟨-, rfl⟩
  · exact h
  · have hpc := h.idle hidle
    have hpin := h.pin
    have hidx := h.index
    unfold Machine.pinOk at hpin
    unfold Machine.idxOk at hidx
    rw [hpc] at hpin hidx
    exact ⟨h.rom, h.frame, fun hend => absurd hend (by simp), h.outcome, h.duration, hpin, hidx, h.events, h.commands⟩
  all_goals
    exact ⟨h.rom, h.frame, h.idle, h.outcome, h.duration, h.pin, h.index, List.forall_mem_cons.2 ⟨rfl, h.events⟩,
      h.commands⟩

theorem State.Inv.afterIdle (h : s.Inv) : s.afterIdle.Inv := by
  unfold State.afterIdle
  split
  · exact h.pass 1
  · split
    · exact h.resetAt _
    · exact (h.serve 1).pass 1

/-! ### The invariant, step by step -/

/-- Settles O31: a reset, the operation at PC, or a host command, each between steps of the sequencer that keep the invariant too. -/
theorem everyStepKeepsTheInvariant : Obligations.EveryStepKeepsTheInvariant := by
  intro s t h hstep
  rcases BitVec.eq_zero_or_eq_one s.run with hidle | hrun
  · rw [step, if_neg (by simp [hidle])] at hstep
    rcases hostStep_cases hstep with ⟨-, rfl⟩ | ⟨-, u, hu, rfl⟩
    · exact h.resetAt _
    · exact (h.exec_command hu).afterIdle
  · rcases step_running_cases h.rom hrun hstep with ⟨n, r, -, rfl⟩ | ⟨u, hu, rfl⟩
    · exact (h.serve n).resetAt r
    · exact ((h.serve _).exec_opAt (by simpa using hrun) (by simpa using hu)).afterOp

/-- Settles O32: an idle step always has a next state, and a running one has IDX inside the frame at PACK. -/
theorem noStepIsRefused : Obligations.NoStepIsRefused := by
  intro s h
  rcases BitVec.eq_zero_or_eq_one s.run with hidle | hrun
  · obtain ⟨t, ht, -⟩ := step_idle_next hidle
    exact ⟨t, ht⟩
  · have hidx := (idxOk_iff s).1 h.index
    exact step_running_next h.rom hrun fun h11 => by omega

/-! ### Runs from reset -/

/-- Settles O30: field by field; the commands are the premise. -/
theorem resetMeetsTheInvariant : Obligations.ResetMeetsTheInvariant :=
  fun _ hrising => ⟨rfl, rfl, fun _ => rfl, (by decide : (0 : BitVec 2) ≠ 3), Nat.zero_le 85, rfl, rfl, by simp [State.reset], hrising⟩

/-- From a state that meets the invariant any number of steps lead to one that meets it. -/
theorem State.Inv.steps (h : s.Inv) (n : Nat) : ∃ t, steps n s = .next t ∧ t.Inv := by
  induction n generalizing s with
  | zero => exact ⟨s, rfl, h⟩
  | succ n ih =>
    obtain ⟨u, hu⟩ := noStepIsRefused s h
    obtain ⟨t, ht, hinv⟩ := ih (everyStepKeepsTheInvariant s u h hu)
    exact ⟨t, (steps_succ hu n).trans ht, hinv⟩

/-- Settles O33: the invariant of every state the run reaches says so. -/
theorem idlePinIsReleasedInEveryRun : Obligations.IdlePinIsReleasedInEveryRun := by
  intro e k hrising
  obtain ⟨t, ht, hinv⟩ := (resetMeetsTheInvariant e hrising).steps k
  refine ⟨t, ht, fun hor => ?_, hinv.outcome, hinv.events⟩
  have haddr : t.pc.toNat < 2 ∨ 7 ≤ t.pc.toNat := hor.imp_left fun hidle => by simp [hinv.idle hidle]
  obtain ⟨hdir, hlvl⟩ := released_of_pinOk hinv.pin haddr
  exact ⟨by simp [State.drive, hdir], hlvl⟩

/-! ### The bits the loop has not reached (R155) -/

/-- The bits of the frame from sample index `x` on are 0. -/
def State.ZeroFrom (s : State) (x : Nat) : Prop := ∀ j < Config.nBits, x ≤ j → s.frameBits.getLsbD (39 - j) = false

theorem State.zeroFrom_of_zero (h : s.frameBits = 0) (x : Nat) : s.ZeroFrom x := fun j _ _ => by
  rw [h]
  exact BitVec.getLsbD_zero

theorem State.ZeroFrom.congr {x : Nat} (h : s.ZeroFrom x) (heq : t.frameBits = s.frameBits) : t.ZeroFrom x :=
  fun j hj hx => heq ▸ h j hj hx

/-- CLRF clears the frame, and only PACK can set a bit of it. -/
theorem exec_opAt_frameBits (h : exec (opAt s.pc) s = .next t) :
    (s.pc.toNat = 0 → t.frameBits = 0) ∧ (s.pc.toNat ≠ 0 → s.pc.toNat ≠ 11 → t.frameBits = s.frameBits) := by
  refine ⟨fun h0 => ?_, fun h0 h11 => State.frameBits_congr (exec_frame ?_ ?_ h)⟩
  · rw [show s.pc = 0 from BitVec.eq_of_toNat_eq h0] at h
    cases h
    exact State.frameBits_of_cleared rfl
  · exact fun hclrf => h0 (address_of_clrf hclrf)
  · exact fun n hpack => h11 (address_of_pack hpack)

/-- PACK sets at most the bit that IDX names, so the bits after it stay zero. -/
theorem exec_opAt_zeroFrom_of_pack (h : exec (opAt s.pc) s = .next t) (h11 : s.pc.toNat = 11) (hidx : s.idx.toNat < 40)
    (hzero : s.ZeroFrom s.idx.toNat) : t.ZeroFrom (s.idx.toNat + 1) := by
  rw [show s.pc = 11 from BitVec.eq_of_toNat_eq h11] at h
  obtain ⟨u, hu, -, hbits⟩ := exec_pack_bits 40 hidx
  obtain rfl := Host.Outcome.next.inj (hu.symm.trans h)
  intro j hj hlt
  rw [hbits j hj, hzero j hj (Nat.le_of_succ_le hlt), Bool.false_or, decide_eq_false]
  omega

/-- The operation of a running step takes the zero bits on with the count. -/
theorem State.UnreachedBitsZero.exec_opAt (hzero : s.UnreachedBitsZero) (hrun : s.run = 1) (hidx : idxOk s = true)
    (h : exec (opAt s.pc) s = .next t) (hflows : Flows s t) : t.UnreachedBitsZero := by
  obtain ⟨hbefore, hin, hloop⟩ := hzero hrun
  obtain ⟨hclrf, hkeep⟩ := exec_opAt_frameBits h
  have hnext := hflows.line
  have hback := hflows.loop
  have hrange := (idxOk_iff s).1 hidx
  have hadvance : s.pc.toNat ≠ 12 → s.pc.toNat ≠ 0 → t.pc.toNat = s.pc.toNat + 1 ∧ t.idx.toNat = s.idx.toNat :=
    fun h12 h0 => by simpa [h0] using hnext h12
  refine fun _ => ⟨fun ⟨_, _⟩ => ?_, fun ⟨_, _⟩ => ?_, fun htpc => ?_⟩
  · by_cases h0 : s.pc.toNat = 0
    · exact hclrf h0
    · have := hadvance (hflows.ne_loop (by omega) (by omega)) h0
      rw [hkeep h0 (by omega), hbefore ⟨by omega, by omega⟩]
  · show t.ZeroFrom t.idx.toNat
    have h0 : s.pc.toNat ≠ 0 := fun h0 => by have := hnext (by omega); omega
    by_cases h12 : s.pc.toNat = 12
    · have hcount : t.idx.toNat = s.idx.toNat + 1 := by have := (hback h12).1; omega
      rw [hcount]
      exact State.ZeroFrom.congr (hloop h12) (hkeep h0 (by omega))
    · have hstep := hadvance h12 h0
      rw [hstep.2]
      have hsame := hkeep h0 (by omega)
      by_cases h8 : s.pc.toNat = 8
      · exact State.zeroFrom_of_zero (hsame.trans (hbefore ⟨by omega, by omega⟩)) _
      · exact State.ZeroFrom.congr (hin ⟨by omega, by omega⟩) hsame
  · show t.ZeroFrom (t.idx.toNat + 1)
    have h12 := hflows.ne_loop (by omega) (by omega)
    have h0 : s.pc.toNat ≠ 0 := fun h0 => by have := hnext h12; omega
    have hstep := hadvance h12 h0
    rw [hstep.2]
    exact exec_opAt_zeroFrom_of_pack h (by omega) (by omega) (hin ⟨by omega, by omega⟩)

theorem State.UnreachedBitsZero.serve (h : s.UnreachedBitsZero) (n : Nat) : (s.serve n).UnreachedBitsZero := by
  rw [State.serve_eq]
  exact h

/-- An idle step ends with PC = 0. -/
theorem step_idle_pc (hidle : s.run = 0) (hpc : s.pc = 0) (h : step s = .next t) : t.pc = 0 := by
  have hend (u : State) (hu : u.pc = 0) : u.afterIdle.pc = 0 := by
    unfold State.afterIdle
    split
    · exact hu
    · split <;> simp [hu]
  rw [step, if_neg (by simp [hidle])] at h
  rcases hostStep_cases h with ⟨-, rfl⟩ | ⟨-, u, hu, rfl⟩
  · rfl
  · refine hend u ?_
    rcases exec_host_cases hu with rfl | ⟨-, -, rfl⟩ | ⟨-, rfl⟩ | ⟨-, rfl⟩
    · exact hpc
    · rfl
    · exact hpc
    · exact hpc

/-- Settles O46: a read that has just begun has reached no word of the statement; a read that goes on keeps the zero bits. -/
theorem unreachedFrameBitsStayZero : Obligations.UnreachedFrameBitsStayZero := by
  intro s t h hzero hstep hon
  rcases BitVec.eq_zero_or_eq_one s.run with hidle | hrun
  · have hpc : t.pc.toNat = 0 := congrArg BitVec.toNat (step_idle_pc hidle (h.idle hidle) hstep)
    exact ⟨fun _ => by omega, fun _ => by omega, fun _ => by omega⟩
  · obtain ⟨hexec, -⟩ := exec_of_step_running h.rom hrun hstep hon
    have hserved : (s.serve (s.ticksOf (opAt s.pc))).run = 1 := by simpa using hrun
    have hexec' : exec (opAt (s.serve (s.ticksOf (opAt s.pc))).pc) (s.serve (s.ticksOf (opAt s.pc))) = .next t := by
      simpa using hexec
    exact (hzero.serve _).exec_opAt hserved (h.serve _).index hexec' (exec_opAt_flows hserved hexec' hon) hon

end Sys2Proof.Machine
end

section
/-! Proofs of the statements about a whole read (R123, R128, R129, R194, R246): that it ends, with one outcome, within its bounds, and what a
complete one commits; after the lemmas they rest on. -/

namespace Sys2Proof.Machine

variable {i : Instr} {s t u v : State} {n k p : Nat} {l : Level}

/-! ### The distance to the end of a read (R123) -/

/-- The microprogram is that of R122, and while a read runs IDX is as the address says from word 1 on. -/
structure State.Hardwired (s : State) : Prop where
  rom : s.rom = microprogram
  index : s.run = 1 → s.pc.toNat ≠ 0 → idxOk s = true

theorem State.Inv.hardwired (h : s.Inv) : s.Hardwired := ⟨h.rom, fun _ _ => h.index⟩

/-- The steps to the end of a read that no error and no reset ends; an idle block first has to accept one. -/
def State.distance (s : State) : Nat := if s.run = 0 then 173 else if s.pc.toNat = 0 then 172 else s.stepsLeft

theorem State.distance_of_idle (h : s.run = 0) : s.distance = 173 := if_pos h

theorem State.distance_of_start (hrun : s.run = 1) (h0 : s.pc.toNat = 0) : s.distance = 172 := by
  rw [State.distance, if_neg (by simp [hrun]), if_pos h0]

theorem State.distance_of_word (hrun : s.run = 1) (h0 : s.pc.toNat ≠ 0) : s.distance = s.stepsLeft := by
  rw [State.distance, if_neg (by simp [hrun]), if_neg h0]

theorem State.distance_le (s : State) : s.distance ≤ 173 := by
  unfold State.distance State.stepsLeft
  split_ifs <;> omega

theorem State.distance_le_of_running (hrun : s.run = 1) : s.distance ≤ 172 := by
  unfold State.distance State.stepsLeft
  rw [if_neg (by simp [hrun])]
  split_ifs <;> omega

theorem State.Hardwired.distance_pos (hs : s.Hardwired) (hrun : s.run = 1) : 0 < s.distance := by
  by_cases h0 : s.pc.toNat = 0
  · rw [State.distance_of_start hrun h0]
    decide
  have hrange := (idxOk_iff s).1 (hs.index hrun h0)
  rw [State.distance_of_word hrun h0]
  by_cases hle : s.pc.toNat ≤ 12
  · rw [State.stepsLeft_of_le hle]
    omega
  · rw [State.stepsLeft_of_gt (by omega)]
    omega

/-- A read that goes on comes one step nearer to its end. -/
theorem Flows.distance (h : Flows s t) (hs : s.Hardwired) (hrun : s.run = 1) (hon : t.run = 1) :
    t.distance + 1 = s.distance := by
  obtain ⟨hlast, hline, hloop, -, -⟩ := h
  by_cases h0 : s.pc.toNat = 0
  · obtain ⟨hpc, hidx⟩ := hline (by omega)
    rw [State.distance_of_start hrun h0, State.distance_of_word hon (by omega), State.stepsLeft_of_le (by omega), hidx]
    simp [hpc, h0]
  have hrange := (idxOk_iff s).1 (hs.index hrun h0)
  by_cases h12 : s.pc.toNat = 12
  · obtain ⟨hidx, hpc⟩ := hloop h12
    rw [State.distance_of_word hrun h0, State.stepsLeft_of_le h12.le]
    split at hpc
    · rw [State.distance_of_word hon (by omega), State.stepsLeft_of_gt (by omega)]
      omega
    · rw [State.distance_of_word hon (by omega), State.stepsLeft_of_le (by omega)]
      omega
  · obtain ⟨hpc, hidx⟩ := hline h12
    rw [if_neg h0] at hidx
    rw [State.distance_of_word hrun h0, State.distance_of_word hon (by omega)]
    by_cases hle : s.pc.toNat ≤ 12
    · rw [State.stepsLeft_of_le hle, State.stepsLeft_of_le (by omega)]
      omega
    · rw [State.stepsLeft_of_gt (by omega), State.stepsLeft_of_gt (by omega)]
      omega

/-! ### A read up to its last step -/

/-- No step writes the microprogram. -/
theorem step_rom (h : step s = .next t) : t.rom = s.rom := by
  have hidle (u : State) : u.afterIdle.rom = u.rom := by
    unfold State.afterIdle
    split
    · rfl
    · split <;> simp
  unfold step at h
  split at h
  · obtain ⟨i, -, ⟨r, -, rfl⟩ | ⟨-, u, hu, rfl⟩⟩ := microStep_cases h
    · simp
    · rw [State.afterOp_rom, (exec_rom_inputs hu).1, State.serve_rom]
  · rcases hostStep_cases h with ⟨-, rfl⟩ | ⟨-, u, hu, rfl⟩
    · simp
    · rw [hidle, (exec_rom_inputs hu).1]

/-- An idle step that sets RUN has accepted a READ and entered the next tick (R120). -/
theorem step_idle_rises (hidle : s.run = 0) (h : step s = .next t) (hon : t.run = 1) :
    t = (({ s with run := 1, pc := 0 } : State).serve 1).pass 1 := by
  have hhost : hostStep s = .next t := by rwa [step, if_neg (by simp [hidle])] at h
  obtain ⟨hread, hrst⟩ := hostStep_run hidle hhost hon
  cases hnext : s.inputs.rstAt (s.now + 1) with
  | true =>
    obtain rfl := Host.Outcome.next.inj ((step_of_accepting_reset hidle hread hrst hnext).symm.trans h)
    cases hon
  | false => exact Host.Outcome.next.inj (h.symm.trans (step_accepts_entering hidle hread hrst hnext))

/-- A step of a running block: the read has ended, or it goes on one step nearer to its end. -/
theorem State.Hardwired.step_running (hs : s.Hardwired) (hrun : s.run = 1) :
    ∃ t, step s = .next t ∧ (t.run = 0 ∨ (t.run = 1 ∧ t.Hardwired ∧ t.distance + 1 = s.distance)) := by
  have hidx : s.pc.toNat = 11 → s.idx.toNat < 40 := fun h11 => by
    have := (idxOk_iff s).1 (hs.index hrun (by omega))
    omega
  obtain ⟨t, ht⟩ := step_running_next hs.rom hrun hidx
  refine ⟨t, ht, (BitVec.eq_zero_or_eq_one t.run).imp_right fun hon => ?_⟩
  obtain ⟨-, hflows⟩ := exec_of_step_running hs.rom hrun ht hon
  exact ⟨hon, ⟨(step_rom ht).trans hs.rom, fun _ _ => hflows.idxOk (hs.index hrun)⟩, hflows.distance hs hrun hon⟩

/-- Every read ends within its distance; what every step that goes on keeps holds up to the last step. -/
theorem State.Hardwired.read_ends {P : State → Prop}
    (hkeep : ∀ u v, u.Hardwired → u.run = 1 → P u → step u = .next v → v.run = 1 → P v)
    (hs : s.Hardwired) (hrun : s.run = 1) (hP : P s) :
    ∃ k u t, k + 1 ≤ s.distance ∧ steps (k + 1) s = .next t ∧ u.Hardwired ∧ u.run = 1 ∧ P u ∧ step u = .next t ∧ t.run = 0 := by
  induction hd : s.distance generalizing s with
  | zero => exact absurd hd (hs.distance_pos hrun).ne'
  | succ d ih =>
    obtain ⟨v, hv, hend | ⟨hon, hv', hnearer⟩⟩ := hs.step_running hrun
    · exact ⟨0, s, v, by omega, (steps_succ hv 0).trans rfl, hs, hrun, hP, hv, hend⟩
    · obtain ⟨k, u, t, hk, hsteps, hrest⟩ := ih hv' hon (hkeep s v hs hrun hP hv hon) (by omega)
      exact ⟨k + 1, u, t, by omega, (steps_succ hv _).trans hsteps, hrest⟩

/-- Settles O38: the distance is at most 172 steps. -/
theorem everyReadEnds : Obligations.EveryReadEnds := by
  intro s h hrun
  obtain ⟨k, u, t, hk, hsteps, -, -, -, -, hend⟩ :=
    h.hardwired.read_ends (P := fun _ => True) (fun _ _ _ _ _ _ _ => trivial) hrun trivial
  exact ⟨k + 1, hk.trans (State.distance_le_of_running hrun), t, hsteps, hend⟩

/-! ### The one outcome of a read that no reset drops (R128, R194) -/

/-- Since `s` no read has ended, none has been committed, and no reset is to come. -/
structure Undecided (s u : State) : Prop where
  noReset : ∀ r ∈ u.inputs.resets, r ≤ u.now
  rets : retCount u.log = retCount s.log
  errors : errorCount u.log = errorCount s.log
  retained : u.retained = s.retained

/-- A read that goes on stays undecided. -/
theorem Undecided.of_step (h : Undecided s u) (hu : u.Hardwired) (hrun : u.run = 1) (hstep : step u = .next v) (hon : v.run = 1) :
    Undecided s v := by
  obtain ⟨hexec, -⟩ := exec_of_step_running hu.rom hrun hstep hon
  obtain ⟨-, hin⟩ := exec_rom_inputs hexec
  rw [State.serve_inputs] at hin
  have hreset : ∀ r ∈ v.inputs.resets, r ≤ v.now := fun r hr =>
    (h.noReset r (hin ▸ hr)).trans (now_le_of_exec_serve hexec)
  rcases exec_micro_cases (isHost_opAt _) hexec with ⟨hcmt, -, -, hlog⟩ | ⟨-, rfl⟩ | ⟨k, w, -, rfl⟩
  · refine ⟨hreset, ?_, ?_, ?_⟩
    · rw [hlog, State.serve_retCount, h.rets]
    · rw [hlog, State.serve_errorCount, h.errors]
    · rw [exec_retained hcmt hexec, State.serve_retained, h.retained]
  · cases hon
  · cases hon

/-- `t` is the end of a read at tick `p`: one `ret` more than in `s`, with the code in OUTCOME, and exactly if that code is not 0 one
`on_error` more and the retained registers as they were. -/
structure EndedAt (s t : State) (p : Tick) : Prop where
  now : t.now = p + 1
  rets : retCount t.log = retCount s.log + 1
  ret : Event.ret p t.outcome ∈ t.log
  errors : errorCount t.log = errorCount s.log + if t.outcome = 0 then 0 else 1
  error : t.outcome ≠ 0 → Event.onError p t.outcome ∈ t.log ∧ t.retained = s.retained

theorem retCount_cons_ret (p : Tick) (c : BitVec 2) (log : List Event) : retCount (.ret p c :: log) = retCount log + 1 :=
  List.countP_cons_of_pos rfl

theorem retCount_cons_onError (p : Tick) (c : BitVec 2) (log : List Event) : retCount (.onError p c :: log) = retCount log := rfl

/-- The end by CMT. -/
theorem endedAt_of_committed (s : State) : EndedAt s (s.committed.pass 1) s.now :=
  ⟨rfl, retCount_cons_ret _ _ _, List.mem_cons_self, rfl, fun hne => absurd rfl hne⟩

/-- The end by an error entry. -/
theorem endedAt_of_fails {o : Outcome} (h : Fails s i o v) : EndedAt s ((v.raise o).pass 1) v.now := by
  have hne : o.code ≠ 0 := by rcases h.code_cases with hc | hc <;> rw [hc] <;> decide
  refine ⟨rfl, ?_, List.mem_cons_self, ?_, fun _ => ⟨List.mem_cons_of_mem _ List.mem_cons_self, h.retained_eq⟩⟩
  · rw [State.pass_log, v.raise_log, retCount_cons_ret, retCount_cons_onError, h.log_eq]
  · rw [State.pass_log, v.raise_log, errorCount_cons_ret, errorCount_cons_onError, h.log_eq, State.pass_outcome, v.raise_outcome,
      if_neg hne]

/-- The last step of an undecided read is the operation that ends it, and the tick passed after it. -/
theorem Undecided.last_step (h : Undecided s u) (hu : u.Hardwired) (hrun : u.run = 1) (hstep : step u = .next t)
    (hend : t.run = 0) :
    ∃ w, exec (opAt u.pc) (u.serve (u.ticksOf (opAt u.pc))) = .next w ∧ w.run = 0 ∧ t = w.pass 1 := by
  rcases step_running_cases hu.rom hrun hstep with ⟨n, r, hr, -⟩ | ⟨w, hw, rfl⟩
  · obtain ⟨hmem, hlt, -⟩ := firstReset_mem hr
    exact absurd (h.noReset r hmem) (Nat.not_le.2 hlt)
  · rw [State.afterOp_run] at hend
    exact ⟨w, hw, hend, State.afterOp_of_ended hend⟩

/-- An undecided read ends with one outcome. -/
theorem Undecided.endedAt (h : Undecided s u) (hu : u.Hardwired) (hrun : u.run = 1) (hstep : step u = .next t)
    (hend : t.run = 0) : ∃ p, EndedAt s t p := by
  obtain ⟨w, hw, hwend, rfl⟩ := h.last_step hu hrun hstep hend
  have hserved : ∃ p, EndedAt (u.serve (u.ticksOf (opAt u.pc))) (w.pass 1) p := by
    obtain ⟨-, ⟨-, rfl⟩ | ⟨o, v, hfails, rfl⟩⟩ :=
      exec_opAt_ends (s := u.serve (u.ticksOf (opAt u.pc))) (by simpa using hrun) (by simpa using hw) hwend
    · exact ⟨_, endedAt_of_committed _⟩
    · exact ⟨_, endedAt_of_fails hfails⟩
  obtain ⟨p, hnow, hrets, hret, herrors, herror⟩ := hserved
  rw [State.serve_retCount, h.rets] at hrets
  rw [State.serve_errorCount, h.errors] at herrors
  rw [State.serve_retained, h.retained] at herror
  exact ⟨p, hnow, hrets, hret, herrors, herror⟩

/-- Settles O39: undecided up to its last step, and decided by that. -/
theorem everyReadHasExactlyOneOutcome : Obligations.EveryReadHasExactlyOneOutcome := by
  intro s h hrun hreset
  obtain ⟨k, u, t, hk, hsteps, hu, hurun, hundecided, hstep, hend⟩ :=
    h.hardwired.read_ends (P := Undecided s) (fun u v hu hrun hP => hP.of_step hu hrun) hrun ⟨hreset, rfl, rfl, rfl⟩
  obtain ⟨p, hnow, hrets, hret, herrors, herror⟩ := hundecided.endedAt hu hurun hstep hend
  have hlast : t.now - 1 = p := by rw [hnow]; rfl
  refine ⟨k + 1, hk.trans (State.distance_le_of_running hrun), t, hsteps, hend, hnow ▸ Nat.succ_pos p, hrets, hlast ▸ hret,
    herrors, fun hne => ?_⟩
  obtain ⟨hon, hretained⟩ := herror hne
  exact ⟨hlast ▸ hon, State.retained_eq_iff.1 hretained⟩

/-! ### How long a read lasts (R246) -/

theorem address_of_dly {a : BitVec 4} (h : opAt a = .dly n) : (a.toNat = 3 ∧ n = 3000) ∨ (a.toNat = 5 ∧ n = 25) := by
  have hdly : ∀ a : BitVec 4, (opAt a).mnemonic = "DLY" → a = 3 ∨ a = 5 := by decide
  rcases hdly a (congrArg Instr.mnemonic h) with rfl | rfl <;> cases h <;> decide

/-- A measurement that does not end the read takes at most its timeout and leaves the line at the other level; begun at its level, it
takes at least one tick. -/
theorem exec_meas_running (h : exec (.meas n l) s = .next t) (hon : t.run = 1) :
    ∃ k ≤ n, t.now = s.now + k ∧ s.line (s.now + k) = 1 - l ∧ (s.line s.now = l → 1 ≤ k) := by
  obtain ⟨k, hk, rfl⟩ := duration_of_exec_meas_running h hon
  obtain ⟨hle, -, hend⟩ := (duration_some s n l k).1 hk
  refine ⟨k, hle, rfl, level_eq_one_sub_of_ne hend, fun hstart => Nat.one_le_iff_ne_zero.2 ?_⟩
  rintro rfl
  exact hend hstart

/-- How many ticks after its word 0 a read can stand at word `a` with `x` bits counted (R129, R246). -/
def WithinBounds (a x e : Nat) : Prop :=
  (a ≤ 3 ∧ e = 0) ∨ ((a = 4 ∨ a = 5) ∧ e = 3000) ∨ ((a = 6 ∨ a = 7) ∧ e = 3025) ∨ (a = 8 ∧ 3025 ≤ e ∧ e ≤ 3110) ∨
    (a = 9 ∧ 3026 + 2 * x ≤ e ∧ e ≤ 3195 + 131 * x) ∨ (a = 10 ∧ 3027 + 2 * x ≤ e ∧ e ≤ 3251 + 131 * x) ∨
    ((a = 11 ∨ a = 12) ∧ 3028 + 2 * x ≤ e ∧ e ≤ 3326 + 131 * x) ∨ (13 ≤ a ∧ 3106 ≤ e ∧ e ≤ 8435)

section bounds

variable {a x e : Nat}

theorem WithinBounds.after_meas (h : WithinBounds a x e)
    (hmeas : (a = 7 ∧ k ≤ 85) ∨ (a = 8 ∧ x = 0 ∧ 1 ≤ k ∧ k ≤ 85) ∨ (a = 9 ∧ 1 ≤ k ∧ k ≤ 56) ∨ (a = 10 ∧ 1 ≤ k ∧ k ≤ 75)) :
    WithinBounds (a + 1) x (e + k) := by
  rcases hmeas with ⟨rfl, hk⟩ | ⟨rfl, rfl, hk⟩ | ⟨rfl, hk⟩ | ⟨rfl, hk⟩ <;> simp [WithinBounds] at h ⊢ <;> omega

theorem WithinBounds.after_dly (h : WithinBounds a x e) (hdly : (a = 3 ∧ n = 3000) ∨ (a = 5 ∧ n = 25)) :
    WithinBounds (a + 1) x (e + n) := by
  rcases hdly with ⟨rfl, rfl⟩ | ⟨rfl, rfl⟩ <;> simp [WithinBounds] at h ⊢ <;> omega

/-- LOOP goes back with one bit more, or on with the 40th. -/
theorem WithinBounds.after_loop (h : WithinBounds 12 x e) : WithinBounds (if x + 1 = 40 then 13 else 9) (x + 1) e := by
  split <;> simp [WithinBounds] at h ⊢ <;> omega

/-- The other words take no tick. -/
theorem WithinBounds.after_untimed (h : WithinBounds a x e)
    (ha : a = 0 ∨ a = 1 ∨ a = 2 ∨ a = 4 ∨ a = 6 ∨ a = 11 ∨ a = 13 ∨ a = 14) :
    WithinBounds (a + 1) (if a = 0 then 0 else x) e := by
  rcases ha with rfl | rfl | rfl | rfl | rfl | rfl | rfl | rfl <;> simp [WithinBounds] at h ⊢ <;> omega

end bounds

/-- A read whose word 0 stood at tick `p` is within its bounds, and between two measurements the line is at the level that ended the
first of them. -/
structure OnTime (p : Tick) (s : State) : Prop where
  within : ∃ e : Nat, s.now = p + e ∧ WithinBounds s.pc.toNat s.idx.toNat e
  high : s.pc.toNat = 8 ∨ s.pc.toNat = 10 → s.line s.now = 1
  low : s.pc.toNat = 9 ∨ s.pc.toNat = 11 ∨ s.pc.toNat = 12 → s.line s.now = 0

theorem exec_line (h : exec i s = .next t) : t.line = s.line := by
  unfold State.line
  rw [(exec_rom_inputs h).2]

/-- A measurement, by its address: it takes at least a tick but for the first one, and leaves the line at the other level. -/
theorem OnTime.exec_meas (h : OnTime p s) (hidx : idxOk s = true) (hi : opAt s.pc = .meas n l)
    (hexec : exec (.meas n l) s = .next t) (hflows : Flows s t) (hon : t.run = 1) : OnTime p t := by
  obtain ⟨⟨e, hnow, hwithin⟩, hhigh, hlow⟩ := h
  obtain ⟨k, hle, htnow, hline, hpos⟩ := exec_meas_running hexec hon
  have haddr := address_of_meas hi
  have hrange := (idxOk_iff s).1 hidx
  obtain ⟨hpc, hcount⟩ := hflows.line (by omega)
  rw [if_neg (by omega)] at hcount
  rw [← htnow, ← exec_line hexec] at hline
  have hmeas : (s.pc.toNat = 7 ∧ k ≤ 85) ∨ (s.pc.toNat = 8 ∧ s.idx.toNat = 0 ∧ 1 ≤ k ∧ k ≤ 85) ∨
      (s.pc.toNat = 9 ∧ 1 ≤ k ∧ k ≤ 56) ∨ (s.pc.toNat = 10 ∧ 1 ≤ k ∧ k ≤ 75) := by
    rcases haddr with ⟨ha, rfl, -⟩ | ⟨ha, rfl, rfl⟩ | ⟨ha, rfl, rfl⟩ | ⟨ha, rfl, rfl⟩
    · exact .inl ⟨ha, hle⟩
    · exact .inr (.inl ⟨ha, by omega, hpos (hhigh (.inl ha)), hle⟩)
    · exact .inr (.inr (.inl ⟨ha, hpos (hlow (.inl ha)), hle⟩))
    · exact .inr (.inr (.inr ⟨ha, hpos (hhigh (.inr ha)), hle⟩))
  refine ⟨⟨e + k, by rw [htnow, hnow, Nat.add_assoc], ?_⟩, fun hor => ?_, fun hor => ?_⟩
  · rw [hpc, hcount]
    exact hwithin.after_meas hmeas
  · rcases haddr with ⟨-, -, rfl⟩ | ⟨ha, -⟩ | ⟨-, -, rfl⟩ | ⟨ha, -⟩
    · exact hline
    · omega
    · exact hline
    · omega
  · rcases haddr with ⟨ha, -⟩ | ⟨-, -, rfl⟩ | ⟨ha, -⟩ | ⟨-, -, rfl⟩
    · omega
    · exact hline
    · omega
    · exact hline

/-- The operation at an address is a delay, a measurement, or takes no tick. -/
theorem timed_cases (a : BitVec 4) :
    (∃ n, opAt a = .dly n) ∨ (∃ n l, opAt a = .meas n l) ∨
      (a.toNat ≤ 2 ∨ a.toNat = 4 ∨ a.toNat = 6 ∨ 11 ≤ a.toNat) ∧ ∀ s : State, s.ticksOf (opAt a) = 0 := by
  have haddr : ∀ a : BitVec 4, a = 3 ∨ a = 5 ∨ a = 7 ∨ a = 8 ∨ a = 9 ∨ a = 10 ∨
      (a.toNat ≤ 2 ∨ a.toNat = 4 ∨ a.toNat = 6 ∨ 11 ≤ a.toNat) ∧
        (opAt a).mnemonic ≠ "DLY" ∧ (opAt a).mnemonic ≠ "MEAS" := by decide
  rcases haddr a with rfl | rfl | rfl | rfl | rfl | rfl | ⟨ha, hdly, hmeas⟩
  · exact .inl ⟨_, rfl⟩
  · exact .inl ⟨_, rfl⟩
  · exact .inr (.inl ⟨_, _, rfl⟩)
  · exact .inr (.inl ⟨_, _, rfl⟩)
  · exact .inr (.inl ⟨_, _, rfl⟩)
  · exact .inr (.inl ⟨_, _, rfl⟩)
  · exact .inr (.inr ⟨ha, fun s => s.ticksOf_of_untimed (fun n hn => hdly (congrArg Instr.mnemonic hn))
      fun n l hn => hmeas (congrArg Instr.mnemonic hn)⟩)

/-- A delay of the start signal. -/
theorem OnTime.exec_dly (h : OnTime p s) (hi : opAt s.pc = .dly n) (hexec : exec (.dly n) s = .next t) (hflows : Flows s t) :
    OnTime p t := by
  obtain ⟨⟨e, hnow, hwithin⟩, -, -⟩ := h
  have haddr := address_of_dly hi
  have htnow : t.now = s.now + n := exec_now hexec
  obtain ⟨hpc, hcount⟩ := hflows.line (by omega)
  rw [if_neg (by omega)] at hcount
  refine ⟨⟨e + n, by rw [htnow, hnow, Nat.add_assoc], ?_⟩, fun hor => by omega, fun hor => by omega⟩
  rw [hpc, hcount]
  exact hwithin.after_dly haddr

/-- An operation that takes no tick leaves the line at its level. -/
theorem OnTime.exec_untimed (h : OnTime p s) (ha : s.pc.toNat ≤ 2 ∨ s.pc.toNat = 4 ∨ s.pc.toNat = 6 ∨ 11 ≤ s.pc.toNat)
    (hidx : s.pc.toNat ≠ 0 → idxOk s = true) (hexec : exec (opAt s.pc) s = .next t) (hticks : s.ticksOf (opAt s.pc) = 0)
    (hflows : Flows s t) : OnTime p t := by
  obtain ⟨⟨e, hnow, hwithin⟩, hhigh, hlow⟩ := h
  have htnow : t.now = s.now := by rw [exec_now hexec, hticks, Nat.add_zero]
  obtain ⟨hlast, hline, hloop, -, -⟩ := hflows
  have hlevel : t.line t.now = s.line s.now := by rw [exec_line hexec, htnow]
  rw [← htnow] at hnow
  by_cases h12 : s.pc.toNat = 12
  · have hrange := (idxOk_iff s).1 (hidx (by omega))
    obtain ⟨hcount, hpc⟩ := hloop h12
    rw [Nat.mod_eq_of_lt (by omega)] at hcount
    refine ⟨⟨e, hnow, ?_⟩, fun hor => ?_, fun _ => hlevel.trans (hlow (.inr (.inr h12)))⟩
    · rw [h12] at hwithin
      rw [hpc, hcount]
      exact hwithin.after_loop
    · split at hpc <;> omega
  · obtain ⟨hpc, hcount⟩ := hline h12
    refine ⟨⟨e, hnow, ?_⟩, fun hor => by omega, fun hor => hlevel.trans (hlow (by omega))⟩
    rw [hpc, hcount]
    exact hwithin.after_untimed (by omega)

/-- A read that goes on stays within its bounds. -/
theorem OnTime.exec_opAt (h : OnTime p s) (hrun : s.run = 1) (hidx : s.pc.toNat ≠ 0 → idxOk s = true)
    (hexec : exec (opAt s.pc) s = .next t) (hon : t.run = 1) : OnTime p t := by
  have hflows := exec_opAt_flows hrun hexec hon
  rcases timed_cases s.pc with ⟨n, hi⟩ | ⟨n, l, hi⟩ | ⟨ha, hticks⟩
  · exact h.exec_dly hi (hi ▸ hexec) hflows
  · have haddr := address_of_meas hi
    exact h.exec_meas (hidx (by omega)) hi (hi ▸ hexec) hflows hon
  · exact h.exec_untimed ha hidx hexec (hticks s) hflows

/-- The end of a read within its bounds: a complete one ends where VRFY and CMT stand, one that times out after one sample too many. -/
theorem OnTime.exec_ends (h : OnTime p s) (hrun : s.run = 1) (hidx : s.pc.toNat ≠ 0 → idxOk s = true)
    (hexec : exec (opAt s.pc) s = .next t) (hend : t.run = 0) :
    ∃ e : Nat, t.now = p + e ∧ (t.outcome ≠ 1 → 3106 ≤ e ∧ e ≤ 8435) ∧ (t.outcome = 1 → 3083 ≤ e ∧ e ≤ 8436) := by
  obtain ⟨⟨e, hnow, hwithin⟩, -, -⟩ := h
  have hcomplete (h13 : 13 ≤ s.pc.toNat) : 3106 ≤ e ∧ e ≤ 8435 := by
    unfold WithinBounds at hwithin
    omega
  obtain ⟨-, ⟨h15, rfl⟩ | ⟨o, v, hfails, rfl⟩⟩ := exec_opAt_ends hrun hexec hend
  · exact ⟨e, hnow, fun _ => hcomplete (by omega), fun hne => absurd hne (by decide : Outcome.ok.code ≠ 1)⟩
  · generalize hi : opAt s.pc = i at hfails
    cases hfails with
    | @timeout n l hnone =>
      have haddr := address_of_meas hi
      have hrange := (idxOk_iff s).1 (hidx (by omega))
      refine ⟨e + (n + 1), by rw [State.raise_now, State.pass_now, hnow, Nat.add_assoc]; rfl, fun hne => absurd rfl hne,
        fun _ => ?_⟩
      rcases haddr with ⟨ha, rfl, -⟩ | ⟨ha, rfl, -⟩ | ⟨ha, rfl, -⟩ | ⟨ha, rfl, -⟩ <;>
        simp [WithinBounds, ha] at hwithin hrange <;> omega
    | mismatch hne =>
      have h14 := address_of_vrfy hi
      exact ⟨e, hnow, fun _ => hcomplete (by omega),
        fun hone => absurd hone (by decide : Outcome.checksumMismatch.code ≠ 1)⟩

theorem OnTime.serve (h : OnTime p s) (n : Nat) : OnTime p (s.serve n) := by
  rw [State.serve_eq]
  exact ⟨h.within, h.high, h.low⟩

/-- A read that goes on stays undecided and within its bounds. -/
theorem undecided_onTime_step {s₀ : State} (hu : u.Hardwired) (hrun : u.run = 1) (h : Undecided s₀ u ∧ OnTime p u)
    (hstep : step u = .next v) (hon : v.run = 1) : Undecided s₀ v ∧ OnTime p v := by
  obtain ⟨hundecided, htime⟩ := h
  obtain ⟨hexec, -⟩ := exec_of_step_running hu.rom hrun hstep hon
  refine ⟨hundecided.of_step hu hrun hstep hon, (htime.serve (u.ticksOf (opAt u.pc))).exec_opAt ?_ ?_ ?_ hon⟩
  · simpa using hrun
  · rw [State.serve_eq]
    exact hu.index hrun
  · simpa using hexec

/-- The last step of a read within its bounds. -/
theorem OnTime.last_step {s₀ : State} (htime : OnTime p u) (h : Undecided s₀ u) (hu : u.Hardwired) (hrun : u.run = 1)
    (hstep : step u = .next t) (hend : t.run = 0) :
    ∃ e : Nat, t.now = p + e + 1 ∧ (t.outcome ≠ 1 → 3106 ≤ e ∧ e ≤ 8435) ∧ (t.outcome = 1 → 3083 ≤ e ∧ e ≤ 8436) := by
  obtain ⟨w, hw, hwend, rfl⟩ := h.last_step hu hrun hstep hend
  obtain ⟨e, hnow, hbounds⟩ := (htime.serve (u.ticksOf (opAt u.pc))).exec_ends (t := w) (by simpa using hrun)
    (by rw [State.serve_eq]; exact hu.index hrun) (by simpa using hw) hwend
  exact ⟨e, congrArg (· + 1) hnow, hbounds⟩

/-- Settles O40: undecided and within its bounds up to its last step, which decides it. -/
theorem aReadLastsBetweenItsBounds : Obligations.AReadLastsBetweenItsBounds := by
  intro s h
  obtain ⟨s₀, hstep₀, hreading, hpc, hnow₀⟩ := h.accepted
  have hpc₀ : s₀.pc.toNat = 0 := congrArg BitVec.toNat hpc
  have hrets₀ : retCount s₀.log = retCount s.log := by
    obtain ⟨-, hidle, -, -⟩ := h
    rw [step_idle_rises hidle hstep₀ hreading.run, State.pass_log, State.serve_retCount]
  have hs₀ : s₀.Hardwired := ⟨hreading.rom, fun _ hne => absurd hpc₀ hne⟩
  have htime₀ : OnTime (s.now + 1) s₀ :=
    ⟨⟨0, hnow₀, .inl ⟨by omega, rfl⟩⟩, fun hor => by omega, fun hor => by omega⟩
  obtain ⟨k, u, t, hk, hsteps, hu, hurun, ⟨hundecided, htime⟩, hstep, hend⟩ :=
    hs₀.read_ends (P := fun u => Undecided s₀ u ∧ OnTime (s.now + 1) u)
      (fun u v hu hrun hP => undecided_onTime_step hu hrun hP) hreading.run ⟨⟨hreading.noReset, rfl, rfl, rfl⟩, htime₀⟩
  obtain ⟨q, hq, hrets, hret, -, -⟩ := hundecided.endedAt hu hurun hstep hend
  obtain ⟨e, hnow, hbounds⟩ := htime.last_step hundecided hu hurun hstep hend
  obtain rfl : q = s.now + 1 + e := Nat.succ.inj (hq.symm.trans hnow)
  have hd := State.distance_le_of_running hreading.run
  exact ⟨k + 2, t, by omega, (steps_succ hstep₀ _).trans hsteps, hend,
    hrets.trans (congrArg (· + 1) hrets₀), e, hret, hnow, hbounds⟩

/-! ### The start signal in absolute ticks (R129) -/

/-- Settles O41: words 0 to 6 one by one, as far as each of the three points. -/
theorem startSignalOnTheLine : Obligations.StartSignalOnTheLine := by
  intro s h
  obtain ⟨s₀, e, r₀, pc₀, now₀⟩ := h.accepted
  obtain ⟨s₁, e₀, w₁⟩ := r₀.step_clrf (by rw [pc₀]; rfl)
  rw [pc₀, now₀] at w₁
  obtain ⟨s₂, e₁, w₂⟩ := w₁.step_dir (d' := 1) rfl
  obtain ⟨s₃, e₂, w₃⟩ := w₂.step_lvl (l' := 0) rfl
  obtain ⟨s₄, e₃, w₄⟩ := w₃.step_dly (n := 3000) rfl
  obtain ⟨s₅, e₄, w₅⟩ := w₄.step_lvl (l' := 1) rfl
  obtain ⟨s₆, e₅, w₆⟩ := w₅.step_dly (n := 25) rfl
  obtain ⟨s₇, e₆, w₇⟩ := w₆.step_dir (d' := 0) rfl
  have hlow : steps 4 s = .next s₃ := by simp [steps, e, e₀, e₁, e₂]
  have hhigh : steps 6 s = .next s₅ := (steps_add hlow 2).trans (by simp [steps, e₃, e₄])
  have hreleased : steps 8 s = .next s₇ := (steps_add hhigh 2).trans (by simp [steps, e₅, e₆])
  exact ⟨⟨s₃, hlow, w₃.now, w₃.drive_eq, w₃.decodeWord_fetch⟩, ⟨s₅, hhigh, w₅.now, w₅.drive_eq, w₅.decodeWord_fetch⟩,
    ⟨s₇, hreleased, w₇.now, w₇.drive_eq, w₇.run, w₇.decodeWord_fetch⟩⟩

/-! ### The retained registers along a read (R165) -/

/-- A step of an idle block, in terms of the distance. -/
theorem State.Hardwired.idle_step_distance (hs : s.Hardwired) (hidle : s.run = 0) (h : step s = .next t) :
    t.Hardwired ∧ ((t.distance + 1 = s.distance ∧ t.retained = s.retained) ∨ s.distance ≤ t.distance) := by
  have hrom := (step_rom h).trans hs.rom
  rcases BitVec.eq_zero_or_eq_one t.run with hend | hon
  · exact ⟨⟨hrom, fun hon => by simp [hend] at hon⟩, .inr (by rw [State.distance_of_idle hend]; exact s.distance_le)⟩
  · have ht := step_idle_rises hidle h hon
    have hpc : t.pc.toNat = 0 := by rw [ht]; simp
    refine ⟨⟨hrom, fun _ hne => absurd hpc hne⟩, .inl ⟨?_, ?_⟩⟩
    · rw [State.distance_of_start hon hpc, State.distance_of_idle hidle]
    · rw [ht]
      exact State.serve_retained _ 1

/-- A step comes nearer to the end of the read and keeps the retained registers, or it comes no nearer. -/
theorem State.Hardwired.step_distance (hs : s.Hardwired) (h : step s = .next t) :
    t.Hardwired ∧ ((t.distance + 1 = s.distance ∧ t.retained = s.retained) ∨ s.distance ≤ t.distance) := by
  rcases BitVec.eq_zero_or_eq_one s.run with hidle | hrun
  · exact hs.idle_step_distance hidle h
  · obtain ⟨t', ht', hcases⟩ := hs.step_running hrun
    obtain rfl := Host.Outcome.next.inj (h.symm.trans ht')
    rcases hcases with hend | ⟨hon, ht, hnearer⟩
    · refine ⟨⟨(step_rom h).trans hs.rom, fun hon => by simp [hend] at hon⟩, .inr ?_⟩
      rw [State.distance_of_idle hend]
      exact s.distance_le
    · obtain ⟨hexec, hflows⟩ := exec_of_step_running hs.rom hrun h hon
      have hcmt : opAt s.pc ≠ .cmt := fun hcmt => hflows.last.ne (address_of_cmt hcmt)
      exact ⟨ht, .inl ⟨hnearer, (exec_retained hcmt hexec).trans (State.serve_retained _ _)⟩⟩

theorem steps_succ_next (h : steps (n + 1) s = .next t) : ∃ u, step s = .next u ∧ steps n u = .next t := by
  rw [steps] at h
  cases hstep : step s with
  | next u => rw [hstep] at h; exact ⟨u, rfl, h⟩
  | fault e => rw [hstep] at h; cases h
  | refused e => rw [hstep] at h; cases h

/-- `n` steps come at most `n` nearer to the end of a read; if they do, each of them has kept the retained registers. -/
theorem State.Hardwired.steps_distance (hs : s.Hardwired) (h : steps n s = .next t) :
    s.distance ≤ t.distance + n ∧ (s.distance = t.distance + n → t.retained = s.retained) := by
  induction n generalizing s with
  | zero =>
    cases h
    exact ⟨le_rfl, fun _ => rfl⟩
  | succ n ih =>
    obtain ⟨u, hstep, hrest⟩ := steps_succ_next h
    obtain ⟨hu, hcases⟩ := hs.step_distance hstep
    obtain ⟨hle, hkept⟩ := ih hu hrest
    rcases hcases with ⟨hnearer, hretained⟩ | hfarther
    · exact ⟨by omega, fun heq => (hkept (by omega)).trans hretained⟩
    · exact ⟨by omega, fun heq => by omega⟩

theorem steps_rom_inputs (h : steps n s = .next t) : t.rom = s.rom ∧ t.inputs = s.inputs := by
  induction n generalizing s with
  | zero => cases h; exact ⟨rfl, rfl⟩
  | succ n ih =>
    obtain ⟨u, hstep, hrest⟩ := steps_succ_next h
    obtain ⟨hrom, hin⟩ := ih hrest
    exact ⟨hrom.trans (step_rom hstep), hin.trans (step_inputs hstep)⟩

/-! ### EXTR, VRFY and CMT at the end of a read -/

/-- No tick has no command. -/
theorem State.serve_zero (s : State) : s.serve 0 = s := by
  have hnone : s.inputs.hcmdsIn s.now 0 = [] :=
    List.filter_eq_nil_iff.2 fun c _ => by simp
  rw [State.serve, hnone]
  rfl

/-- A step whose operation takes no tick and goes on with the read. -/
theorem State.Reading.step_untimed (h : s.Reading) (hi : opAt s.pc = i) (hticks : s.ticksOf i = 0)
    (hexec : exec i s = .next u) (hon : u.run = 1) : step s = .next u ∧ u.Reading :=
  h.step_running (hi ▸ decodeWord_wordAt s.pc) (by rw [hticks, s.serve_zero, hexec]) hon

/-- What EXTR leaves (R160). -/
def State.extracted (s : State) : State :=
  { s with th := s.humField, tn := s.signField, tm := s.magField, pc := s.pc + 1 }

theorem exec_extr (s : State) : exec .extr s = .next s.extracted := rfl

section finish

variable (h : s.Reading) (hpc : s.pc = 13)
include h hpc

theorem State.Reading.step_extr : step s = .next s.extracted ∧ s.extracted.Reading :=
  h.step_untimed (by rw [hpc]; rfl) rfl (exec_extr s) h.run

/-- EXTR, VRFY and CMT of a frame that matches commit its fields. -/
theorem State.Reading.commits (hmatch : s.checksum = s.byte 4) :
    ∃ t, steps 3 s = .next t ∧ t.run = 0 ∧ t.outcome = 0 ∧ t.now = s.now + 1 ∧ Event.ret s.now 0 ∈ t.log ∧
      t.hum = s.humField ∧ t.tneg = s.signField ∧ t.tmag = s.magField := by
  obtain ⟨e₀, r₀⟩ := h.step_extr hpc
  have hpc₀ : s.extracted.pc = 14 := by simp [State.extracted, hpc]
  obtain ⟨e₁, r₁⟩ := r₀.step_untimed (by rw [hpc₀]; rfl) rfl (exec_vrfy_of_match (s := s.extracted) hmatch) h.run
  have e₂ := step_cmt r₁.run (by rw [decodeWord_fetch r₁.rom]; simp only [hpc₀]; rfl)
  rw [State.serve_zero] at e₂
  exact ⟨_, (steps_succ e₀ 2).trans ((steps_succ e₁ 1).trans (steps_succ e₂ 0)), rfl, rfl, rfl, List.mem_cons_self, rfl, rfl, rfl⟩

/-- EXTR and VRFY of a frame that does not match end in ChecksumMismatch and keep the retained registers. -/
theorem State.Reading.rejects (hne : s.checksum ≠ s.byte 4) :
    ∃ t, steps 2 s = .next t ∧ t.run = 0 ∧ t.outcome = 2 ∧ t.now = s.now + 1 ∧ Event.ret s.now 2 ∈ t.log ∧
      Event.onError s.now 2 ∈ t.log ∧ t.retained = s.retained := by
  obtain ⟨e₀, r₀⟩ := h.step_extr hpc
  have hpc₀ : s.extracted.pc = 14 := by simp [State.extracted, hpc]
  have hi : opAt s.extracted.pc = .vrfy := by rw [hpc₀]; rfl
  have e₁ := r₀.step_ended (hi ▸ decodeWord_wordAt _)
    (by rw [show s.extracted.ticksOf .vrfy = 0 from rfl, State.serve_zero]; exact exec_vrfy_of_mismatch (s := s.extracted) hne) rfl
  exact ⟨_, (steps_succ e₀ 1).trans (steps_succ e₁ 0), rfl, rfl, rfl, List.mem_cons_self, List.mem_cons_of_mem _ List.mem_cons_self, rfl⟩

end finish

/-! ### The frame on the line, and its fields (R8, R83) -/

theorem State.frameBits_eq_of_bits {fr : BitVec 40} (h : ∀ j < 40, s.frameBits.getLsbD (39 - j) = fr.getLsbD (39 - j)) :
    s.frameBits = fr := by
  refine BitVec.eq_of_getLsbD_eq fun b hb => ?_
  have hbit := h (39 - b) (by omega)
  rwa [show 39 - (39 - b) = b by omega] at hbit

/-- Sign flag and magnitude are bits 23 and 22:8 of the frame number. -/
theorem State.signField_magField_eq_extract (s : State) :
    s.signField = s.frameBits.extractLsb' 23 1 ∧ s.magField = s.frameBits.extractLsb' 8 15 := by
  have hword : s.signField ++ s.magField = s.frameBits.extractLsb' 23 1 ++ s.frameBits.extractLsb' 8 15 := by
    rw [s.signField_append_magField, s.bytes_two_three_eq_extract]
    exact (BitVec.extractLsb'_append_extractLsb'_eq_extractLsb' (start₁ := 8) (len₁ := 15) rfl).symm
  constructor
  · simpa only [BitVec.extractLsb'_append_eq_left] using congrArg (BitVec.extractLsb' 15 1) hword
  · simpa only [BitVec.extractLsb'_append_eq_right] using congrArg (BitVec.extractLsb' 0 15) hword

/-- The checksum and byte 4 as bits of the frame number. -/
theorem State.checksum_eq_byte_four_iff (s : State) : s.checksum = s.byte 4 ↔
    s.frameBits.extractLsb' 32 8 + s.frameBits.extractLsb' 24 8 + s.frameBits.extractLsb' 16 8 + s.frameBits.extractLsb' 8 8 =
      s.frameBits.extractLsb' 0 8 := by
  rw [State.checksum, s.byte_eq_extract (a := 0) (by decide), s.byte_eq_extract (a := 1) (by decide),
    s.byte_eq_extract (a := 2) (by decide), s.byte_eq_extract (a := 3) (by decide), s.byte_eq_extract (a := 4) (by decide)]

/-- The state at EXTR of a read from `s`: still reading, at word 13, with the retained registers of `s`. -/
theorem State.AboutToRead.at_extr (h : s.AboutToRead) (hsteps : steps 170 s = .next t) (hrun : t.run = 1)
    (hi : decodeWord t.fetch = .ok .extr) (hnow : s.now ≤ t.now) : t.Reading ∧ t.pc = 13 ∧ t.retained = s.retained := by
  obtain ⟨hrom, hidle, -, hresets⟩ := h
  obtain ⟨htrom, hin⟩ := steps_rom_inputs hsteps
  have hreading : t.Reading := ⟨htrom.trans hrom, hrun, fun r hr => ((hresets r (hin ▸ hr)).trans_le hnow).le⟩
  have haddr : ∀ a : BitVec 4, opAt a = .extr → a = 13 := by decide
  have hpc : t.pc = 13 := haddr _ (Except.ok.inj ((decodeWord_fetch hreading.rom).symm.trans hi))
  have hleft : t.distance = 3 := by
    rw [State.distance_of_word hrun (by simp [hpc]), State.stepsLeft_of_gt (by simp [hpc]), hpc]
    rfl
  have hs : s.Hardwired := ⟨hrom, fun hon => by simp [hidle] at hon⟩
  obtain ⟨-, hkept⟩ := hs.steps_distance hsteps
  exact ⟨hreading, hpc, hkept (by rw [hleft, State.distance_of_idle hidle])⟩

/-- Settles O45: when EXTR is next the frame is the one on the line (`theFrameHoldsTheDecidedBits`), and its checksum decides how the
last steps end. -/
theorem aCompleteReadCommitsOrRejects : Obligations.ACompleteReadCommitsOrRejects := by
  intro s ackLow ackHigh low high fr h haccepted hline hend hfr last sum
  obtain ⟨t, hsteps, hrun, hi, hnow, hbits⟩ := theFrameHoldsTheDecidedBits s ackLow ackHigh low high h haccepted hline hend
  obtain ⟨hreading, hpc, hretained⟩ := h.at_extr hsteps hrun hi (by rw [hnow, Nat.add_assoc]; exact Nat.le_add_right _ _)
  have hframe : t.frameBits = fr := State.frameBits_eq_of_bits fun j hj => (hbits j hj).trans (hfr j hj).symm
  have hticks (p n : Nat) : p + 3026 + n = p + 1 + (3025 + n) := by omega
  have hlast : t.now = last := hnow.trans (hticks _ _)
  obtain ⟨hsign, hmag⟩ := t.signField_magField_eq_extract
  have hhum := t.humField_eq_extract
  have hverdict := t.checksum_eq_byte_four_iff
  rw [hframe] at hsign hmag hhum hverdict
  rw [← hlast]
  refine ⟨fun hmatch => ?_, fun hne => ?_⟩
  · obtain ⟨u, e, hend, hout, hunow, hret, huhum, husign, humag⟩ := hreading.commits hpc (hverdict.2 hmatch)
    exact ⟨u, (steps_add hsteps 3).trans e, hend, hout, hunow, hret, huhum.trans hhum, husign.trans hsign, humag.trans hmag⟩
  · obtain ⟨u, e, hend, hout, hunow, hret, herr, hkept⟩ := hreading.rejects hpc fun heq => hne (hverdict.1 heq)
    exact ⟨u, (steps_add hsteps 2).trans e, hend, hout, hunow, hret, herr, State.retained_eq_iff.1 (hkept.trans hretained)⟩

end Sys2Proof.Machine
end
